-- ==== Sys2Proof/Word.lean ====
section
/-! DEFINITION. The word types of the mix core: bytes, beats, frames, command words. -/
namespace Sys2Proof

/-- One compressed-stream byte, the cell of `COMP[v]` (R60). -/
abbrev Byte := BitVec 8

/-- One beat of the 32-bit data path of the command port (R94). -/
abbrev Beat := BitVec 32

/-- One stereo sample frame as a 32-bit word: `left` in bits 15:0, `right` in bits 31:16 (R61). -/
abbrev Frame := BitVec 32

/-- A command word `CW` (R90, R91). -/
abbrev CmdWord := BitVec 64

end Sys2Proof
end

