-- ==== Sys2Proof/Config.lean ====
section
/-! DEFINITION. The configuration record of R9, its constraints (R10, R141), and the two named
configurations of R11. -/
namespace Sys2Proof

/-- The implementation parameters of R9. `SAMPLE_BITS`, `CHANNELS`, `FRAC_BITS`, `INDEX_PER_DB`,
`TICKS_PER_QUANTUM`, `SHORT_FADE_LIMIT`, `SILENCE_INDEX`, `UNITY` and `MAX_DB` are fixed by the
spec and are no fields. DESIGN CHOICE (log 1): the record stands in `State` as a field no step changes. -/
structure Config where
  /-- `MAX_VOICES`, the number of voice slots. -/
  maxVoices : Nat
  /-- `Q`, frames per mix quantum. -/
  q : Nat
  /-- `MIN_DB`, the decibel value of index 0. -/
  minDb : Int
  /-- `Z`, how many of the lowest table entries are zero. -/
  z : Nat
  /-- `GAIN_ROM`, the contents of `ROM`, entry 0 first. -/
  gainRom : List Nat
  /-- `C_COMP`, cells of each compressed ring buffer. -/
  cComp : Nat
  /-- `BLOCK_BYTES`, bytes in one storage block. -/
  blockBytes : Nat
  /-- `C_PCM`, cells of each decoded ring buffer. -/
  cPcm : Nat
  /-- `DECODE_FRAME`, frames in one decode frame. -/
  decodeFrame : Nat
  /-- `HARD_MUTE_CANCELS_FADER` (U6, C4). -/
  hardMuteCancelsFader : Bool
  deriving DecidableEq, Repr

/-- `MAX_DB`, fixed 0 (R9). -/
def maxDb : Int := 0

/-- `UNITY`, the linear amplitude of 0 dB (R9, R15). -/
def unity : Nat := 65536

/-- `N`, the gain-table length, `2·(MAX_DB − MIN_DB) + 1` (R9, R10 a). -/
def Config.n (c : Config) : Nat := (2 * (maxDb - c.minDb) + 1).toNat

/-- Every entry is at most the next one: R141 (c). -/
def nondecreasing : List Nat → Bool
  | [] => true
  | [_] => true
  | x :: y :: rest => decide (x ≤ y) && nondecreasing (y :: rest)

/-- R141: length N, entries in [0, 65536], non-decreasing, unity at the top, the lowest Z entries zero. -/
def Config.romOk (c : Config) : Bool :=
  decide (c.gainRom.length = c.n)
    && c.gainRom.all (fun a => decide (a ≤ unity))
    && nondecreasing c.gainRom
    && decide (c.gainRom[c.n - 1]? = some unity)
    && (c.gainRom.take c.z).all (fun a => decide (a = 0))

/-- The parameter ranges of R9 and the constraints of R10 and R141. A configuration that breaks one
has no defined behaviour (U2): `step` refuses it. -/
def Config.wf (c : Config) : Bool :=
  decide (1 ≤ c.maxVoices ∧ c.maxVoices ≤ 255)
    && decide (3 ≤ c.q ∧ c.q ≤ 65535)
    && decide (-1000 ≤ c.minDb ∧ c.minDb ≤ -1)
    && decide (1 ≤ c.z ∧ c.z ≤ c.n - 1)
    && decide (1 ≤ c.blockBytes ∧ c.blockBytes < 2 ^ 16)
    && decide (c.blockBytes + 1 ≤ c.cComp ∧ c.cComp < 2 ^ 31)
    && decide (1 ≤ c.decodeFrame ∧ c.decodeFrame < 2 ^ 16)
    && decide (c.decodeFrame + 1 ≤ c.cPcm ∧ c.cPcm < 2 ^ 31)
    && c.romOk

/-- The DEFAULT `GAIN_ROM` of R143, row by row. -/
def defaultGainRom : List Nat :=
  [0, 0, 0, 0, 8, 9, 9, 10] ++
  [10, 11, 12, 12, 13, 14, 15, 16] ++
  [16, 17, 18, 20, 21, 22, 23, 25] ++
  [26, 28, 29, 31, 33, 35, 37, 39] ++
  [41, 44, 46, 49, 52, 55, 58, 62] ++
  [66, 69, 74, 78, 83, 87, 93, 98] ++
  [104, 110, 117, 123, 131, 139, 147, 155] ++
  [165, 174, 185, 196, 207, 220, 233, 246] ++
  [261, 276, 293, 310, 328, 348, 369, 390] ++
  [414, 438, 464, 491, 521, 551, 584, 619] ++
  [655, 694, 735, 779, 825, 874, 926, 981] ++
  [1039, 1100, 1165, 1234, 1308, 1385, 1467, 1554] ++
  [1646, 1744, 1847, 1957, 2072, 2195, 2325, 2463] ++
  [2609, 2764, 2927, 3101, 3285, 3479, 3685, 3904] ++
  [4135, 4380, 4640, 4915, 5206, 5514, 5841, 6187] ++
  [6554, 6942, 7353, 7789, 8250, 8739, 9257, 9806] ++
  [10387, 11002, 11654, 12345, 13076, 13851, 14672, 15541] ++
  [16462, 17437, 18471, 19565, 20724, 21952, 23253, 24631] ++
  [26090, 27636, 29274, 31008, 32846, 34792, 36854, 39037] ++
  [41350, 43801, 46396, 49145, 52057, 55142, 58409, 61870] ++
  [65536]

/-- The `DEFAULT` configuration of R11: the DEFAULT column of R9. -/
def Config.default : Config where
  maxVoices := 8
  q := 128
  minDb := -80
  z := 4
  gainRom := defaultGainRom
  cComp := 4096
  blockBytes := 512
  cPcm := 4608
  decodeFrame := 1152
  hardMuteCancelsFader := true

/-- The `TINY` configuration of R11. -/
def Config.tiny : Config :=
  { Config.default with maxVoices := 2, q := 6, cComp := 16, blockBytes := 4, cPcm := 16, decodeFrame := 4 }

end Sys2Proof
end

