-- ==== Sys2Proof/Syntax.lean ====
section
/-! DEFINITION. The operations of the mix core (R4, R95): commands as they arrive on the port, and
one constructor of `Instr` for each row of the opcode table. -/
namespace Sys2Proof

/-- A command on the port: a command word and a list of payload beats (R90, R94). -/
structure Command where
  cw : CmdWord
  payload : List Beat
  deriving DecidableEq, Repr

/-- The operand `sel`: 0 selects the compressed buffer, 1 the decoded buffer (R96, R120). -/
inductive BufSel where
  | comp
  | pcm
  deriving DecidableEq, Repr

/-- The payload cells of `RBWRITE`: bytes for `sel = 0`, frames for `sel = 1` (R94, R127). -/
inductive Cells where
  | comp (bytes : List Byte)
  | pcm (frames : List Frame)
  deriving DecidableEq, Repr

/-- The operand `n` of `RBWRITE`: the number of payload cells (R127). -/
def Cells.count : Cells → Nat
  | .comp bytes => bytes.length
  | .pcm frames => frames.length

/-- The buffer `RBWRITE` writes to. -/
def Cells.sel : Cells → BufSel
  | .comp _ => .comp
  | .pcm _ => .pcm

/-- The 23 operations (R4), each with its operand fields as the command word holds them (R96) and
its payload cells (R94). `v` is the voice field; decibel operands are two's-complement fields. -/
inductive Instr where
  /-- `RESET` (R241). -/
  | reset
  /-- `OPEN gainDb, trackSize, loop, lock` (R245). -/
  | openVoice (gainDb : BitVec 16) (trackSize : BitVec 32) (loop lock : Bool)
  /-- `STOPV v, releaseTicks` (R251). -/
  | stopv (v : BitVec 8) (releaseTicks : BitVec 16)
  /-- `QUERY` (R255). -/
  | query
  /-- `STORERR` (R258). -/
  | storerr
  /-- `RDREG v, reg` (R262). -/
  | rdreg (v : BitVec 8) (reg : BitVec 16)
  /-- `RBSPACE v, sel, n` (R126). -/
  | rbspace (v : BitVec 8) (sel : BufSel) (n : BitVec 32)
  /-- `RBWRITE v, sel, cells` (R127). -/
  | rbwrite (v : BitVec 8) (cells : Cells)
  /-- `RBREAD v, sel, n` (R128). -/
  | rbread (v : BitVec 8) (sel : BufSel) (n : BitVec 32)
  /-- `RBUSED v, sel` (R129). -/
  | rbused (v : BitVec 8) (sel : BufSel)
  /-- `RBFREE v, sel` (R130). -/
  | rbfree (v : BitVec 8) (sel : BufSel)
  /-- `DB2IDX db` (R146). -/
  | db2idx (db : BitVec 16)
  /-- `IDX2LIN index` (R148). -/
  | idx2lin (index : BitVec 32)
  /-- `FADE v, targetDb, durationTicks, soc` (R159). -/
  | fade (v : BitVec 8) (targetDb durationTicks : BitVec 16) (soc : Bool)
  /-- `FSTOP v` (R161). -/
  | fstop (v : BitVec 8)
  /-- `FSVC v` (R163). -/
  | fsvc (v : BitVec 8)
  /-- `HASSTOR v` (R181). -/
  | hasstor (v : BitVec 8)
  /-- `INGEST v, block` (R183). -/
  | ingest (v : BitVec 8) (block : List Byte)
  /-- `FETCH v, requested` (R186). -/
  | fetch (v : BitVec 8) (requested : BitVec 32)
  /-- `HASDEC v` (R188). -/
  | hasdec (v : BitVec 8)
  /-- `PUSH v, frames` (R189). -/
  | push (v : BitVec 8) (frames : List Frame)
  /-- `DECERR v` (R192). -/
  | decerr (v : BitVec 8)
  /-- `MIX` (R223). -/
  | mix
  deriving DecidableEq, Repr

end Sys2Proof
end

