-- ==== Sys2Proof/Decode.lean ====
section
/-! DEFINITION. The decoder of R91 to R98, total on any command, and the encoder beside it; and how the
host's numbered bits are laid out as a command. -/
namespace Sys2Proof

/-- The mnemonics of the opcode table, one per row of R95. -/
inductive Op where
  | reset
  | openVoice
  | stopv
  | query
  | storerr
  | rdreg
  | rbspace
  | rbwrite
  | rbread
  | rbused
  | rbfree
  | db2idx
  | idx2lin
  | fade
  | fstop
  | fsvc
  | hasstor
  | ingest
  | fetch
  | hasdec
  | push
  | decerr
  | mix
  deriving DecidableEq, Repr

/-- One row of the encoding table R95: a word selects the operation iff `cw &&& mask = pattern`. -/
structure Row where
  op : Op
  mask : CmdWord
  pattern : CmdWord
  deriving DecidableEq, Repr

/-- The encoding table of R95, in its order. -/
def opcodeTable : List Row :=
  [⟨.reset, 0xFFFFFFFFFFFFFFFF#64, 0x0100000000000000#64⟩,
   ⟨.openVoice, 0xFFFC000000000000#64, 0x0200000000000000#64⟩,
   ⟨.stopv, 0xFF00FFFFFFFF0000#64, 0x0300000000000000#64⟩,
   ⟨.query, 0xFFFFFFFFFFFFFFFF#64, 0x0500000000000000#64⟩,
   ⟨.storerr, 0xFFFFFFFFFFFFFFFF#64, 0x0600000000000000#64⟩,
   ⟨.rdreg, 0xFF000000FFFFFFFF#64, 0x0700000000000000#64⟩,
   ⟨.rbspace, 0xFF00FFFE00000000#64, 0x1000000000000000#64⟩,
   ⟨.rbwrite, 0xFF00FFFE00000000#64, 0x1100000000000000#64⟩,
   ⟨.rbread, 0xFF00FFFE00000000#64, 0x1200000000000000#64⟩,
   ⟨.rbused, 0xFF00FFFEFFFFFFFF#64, 0x1300000000000000#64⟩,
   ⟨.rbfree, 0xFF00FFFEFFFFFFFF#64, 0x1400000000000000#64⟩,
   ⟨.db2idx, 0xFFFF0000FFFFFFFF#64, 0x2000000000000000#64⟩,
   ⟨.idx2lin, 0xFFFFFFFF00000000#64, 0x2100000000000000#64⟩,
   ⟨.fade, 0xFF000000FFFE0000#64, 0x3000000000000000#64⟩,
   ⟨.fstop, 0xFF00FFFFFFFFFFFF#64, 0x3100000000000000#64⟩,
   ⟨.fsvc, 0xFF00FFFFFFFFFFFF#64, 0x3200000000000000#64⟩,
   ⟨.hasstor, 0xFF00FFFFFFFFFFFF#64, 0x4000000000000000#64⟩,
   ⟨.ingest, 0xFF00FFFFFFFFFFFF#64, 0x4100000000000000#64⟩,
   ⟨.fetch, 0xFF00FFFF00000000#64, 0x4200000000000000#64⟩,
   ⟨.hasdec, 0xFF00FFFFFFFFFFFF#64, 0x4300000000000000#64⟩,
   ⟨.push, 0xFF00FFFF00000000#64, 0x4400000000000000#64⟩,
   ⟨.decerr, 0xFF00FFFFFFFFFFFF#64, 0x4500000000000000#64⟩,
   ⟨.mix, 0xFFFFFFFFFFFFFFFF#64, 0x5000000000000000#64⟩]

/-- The row a command word matches (R95). -/
def Row.selects (r : Row) (cw : CmdWord) : Bool := cw &&& r.mask == r.pattern

/-- The operation a command word selects, if it selects one (R95, R98). -/
def selectOp (cw : CmdWord) : Option Op :=
  (opcodeTable.find? (fun r => r.selects cw)).map Row.op

/-- Field `op`, bits 63:56 (R91). -/
def opField (cw : CmdWord) : BitVec 8 := cw.extractLsb' 56 8

/-- Field `v` (the flag field `f` of format O), bits 55:48 (R91, R92). -/
def vField (cw : CmdWord) : BitVec 8 := cw.extractLsb' 48 8

/-- Field `a`, bits 47:32 (R91). -/
def aField (cw : CmdWord) : BitVec 16 := cw.extractLsb' 32 16

/-- Field `b`, bits 31:0 (R91). -/
def bField (cw : CmdWord) : BitVec 32 := cw.extractLsb' 0 32

/-- The operand `sel` is `a[0]` (R96). -/
def selField (cw : CmdWord) : BufSel := if (aField cw).getLsbD 0 then .pcm else .comp

/-- The tick operands are `b[15:0]` (R96). -/
def ticksField (cw : CmdWord) : BitVec 16 := (bField cw).extractLsb' 0 16

/-- Why a command is illegal (R98). Each answers `IllegalCommand`. -/
inductive Illegal where
  /-- The `op` value is not assigned (R93, R98). -/
  | reservedOpcode (op : BitVec 8)
  /-- An assigned `op` with a nonzero must-be-zero bit (R98). -/
  | mustBeZero (op : BitVec 8)
  /-- The payload length is not the expected one (R94, R98). -/
  | payloadLength (expected actual : Nat)
  /-- A byte cell whose beat has a nonzero bit in 31:8 (R94). DEDUCED (log 7), unsafe. -/
  | payloadBeat
  deriving DecidableEq, Repr

/-- The expected payload length, a function of the command word alone (R94). -/
def payloadLength (c : Config) (op : Op) (cw : CmdWord) : Nat :=
  match op with
  | .rbwrite | .push => (bField cw).toNat
  | .ingest => c.blockBytes
  | .reset | .openVoice | .stopv | .query | .storerr | .rdreg | .rbspace | .rbread | .rbused
  | .rbfree | .db2idx | .idx2lin | .fade | .fstop | .fsvc | .hasstor | .fetch | .hasdec
  | .decerr | .mix => 0

/-- A byte cell is beat bits 7:0 with bits 31:8 zero (R94). -/
def beatByte (x : Beat) : Option Byte :=
  if x.extractLsb' 8 24 = 0#24 then some (x.extractLsb' 0 8) else none

/-- The byte cells of a payload, none if one beat is no byte cell. -/
def beatBytes : List Beat → Option (List Byte)
  | [] => some []
  | x :: rest =>
    match beatByte x, beatBytes rest with
    | some y, some ys => some (y :: ys)
    | _, _ => none

/-- The beat of a byte cell (R94). -/
def byteBeat (y : Byte) : Beat := y.setWidth 32

/-- `RBWRITE` with the payload cells of the selected buffer's type (R94, R127). -/
def assembleRbwrite (v : BitVec 8) (sel : BufSel) (payload : List Beat) : Except Illegal Instr :=
  match sel with
  | .pcm => .ok (.rbwrite v (.pcm payload))
  | .comp =>
    match beatBytes payload with
    | some bytes => .ok (.rbwrite v (.comp bytes))
    | none => .error .payloadBeat

/-- `INGEST` with its block of bytes (R94, R183). -/
def assembleIngest (v : BitVec 8) (payload : List Beat) : Except Illegal Instr :=
  match beatBytes payload with
  | some block => .ok (.ingest v block)
  | none => .error .payloadBeat

/-- Operand assembly (R96). -/
def assemble (op : Op) (cw : CmdWord) (payload : List Beat) : Except Illegal Instr :=
  match op with
  | .reset => .ok .reset
  | .openVoice =>
    .ok (.openVoice (aField cw) (bField cw) ((vField cw).getLsbD 0) ((vField cw).getLsbD 1))
  | .stopv => .ok (.stopv (vField cw) (ticksField cw))
  | .query => .ok .query
  | .storerr => .ok .storerr
  | .rdreg => .ok (.rdreg (vField cw) (aField cw))
  | .rbspace => .ok (.rbspace (vField cw) (selField cw) (bField cw))
  | .rbwrite => assembleRbwrite (vField cw) (selField cw) payload
  | .rbread => .ok (.rbread (vField cw) (selField cw) (bField cw))
  | .rbused => .ok (.rbused (vField cw) (selField cw))
  | .rbfree => .ok (.rbfree (vField cw) (selField cw))
  | .db2idx => .ok (.db2idx (aField cw))
  | .idx2lin => .ok (.idx2lin (bField cw))
  | .fade => .ok (.fade (vField cw) (aField cw) (ticksField cw) ((bField cw).getLsbD 16))
  | .fstop => .ok (.fstop (vField cw))
  | .fsvc => .ok (.fsvc (vField cw))
  | .hasstor => .ok (.hasstor (vField cw))
  | .ingest => assembleIngest (vField cw) payload
  | .fetch => .ok (.fetch (vField cw) (bField cw))
  | .hasdec => .ok (.hasdec (vField cw))
  | .push => .ok (.push (vField cw) payload)
  | .decerr => .ok (.decerr (vField cw))
  | .mix => .ok .mix

/-- Whether an `op` value is assigned (R93). -/
def assignedOpcode (op : BitVec 8) : Bool :=
  opcodeTable.any (fun r => opField r.pattern == op)

/-- The decoder: check (1) of R97. Total: every command is one operation or illegal (R98). -/
def decode (c : Config) (cmd : Command) : Except Illegal Instr :=
  match selectOp cmd.cw with
  | none =>
    if assignedOpcode (opField cmd.cw) then .error (.mustBeZero (opField cmd.cw))
    else .error (.reservedOpcode (opField cmd.cw))
  | some op =>
    if cmd.payload.length = payloadLength c op cmd.cw then assemble op cmd.cw cmd.payload
    else .error (.payloadLength (payloadLength c op cmd.cw) cmd.payload.length)

/-- A command word from its four fields (R91). -/
def cmdWord (op v : BitVec 8) (a : BitVec 16) (b : BitVec 32) : CmdWord := op ++ (v ++ (a ++ b))

/-- The field `a` that holds `sel` in bit 0 (R95, R96). -/
def selWord : BufSel → BitVec 16
  | .comp => 0
  | .pcm => 1

/-- The flag field `f` of `OPEN` (R92). -/
def openFlags (loop lock : Bool) : BitVec 8 :=
  (if loop then 1#8 else 0#8) ||| (if lock then 2#8 else 0#8)

/-- The field `b` of `FADE`: `soc` in bit 16 above `durationTicks` (R95, R96). -/
def fadeWord (durationTicks : BitVec 16) (soc : Bool) : BitVec 32 :=
  (if soc then 1#16 else 0#16) ++ durationTicks

/-- The field `b` of `STOPV`: `releaseTicks` in bits 15:0 (R95, R96). -/
def ticksWord (ticks : BitVec 16) : BitVec 32 := 0#16 ++ ticks

/-- The beats of the cells of an `RBWRITE` (R94). -/
def Cells.beats : Cells → List Beat
  | .comp bytes => bytes.map byteBeat
  | .pcm frames => frames

/-- The command word of an operation (R91, R95, R96). -/
def Instr.word : Instr → CmdWord
  | .reset => cmdWord 0x01 0 0 0
  | .openVoice gainDb trackSize loop lock => cmdWord 0x02 (openFlags loop lock) gainDb trackSize
  | .stopv v releaseTicks => cmdWord 0x03 v 0 (ticksWord releaseTicks)
  | .query => cmdWord 0x05 0 0 0
  | .storerr => cmdWord 0x06 0 0 0
  | .rdreg v reg => cmdWord 0x07 v reg 0
  | .rbspace v sel n => cmdWord 0x10 v (selWord sel) n
  | .rbwrite v cells => cmdWord 0x11 v (selWord cells.sel) (BitVec.ofNat 32 cells.count)
  | .rbread v sel n => cmdWord 0x12 v (selWord sel) n
  | .rbused v sel => cmdWord 0x13 v (selWord sel) 0
  | .rbfree v sel => cmdWord 0x14 v (selWord sel) 0
  | .db2idx db => cmdWord 0x20 0 db 0
  | .idx2lin index => cmdWord 0x21 0 0 index
  | .fade v targetDb durationTicks soc => cmdWord 0x30 v targetDb (fadeWord durationTicks soc)
  | .fstop v => cmdWord 0x31 v 0 0
  | .fsvc v => cmdWord 0x32 v 0 0
  | .hasstor v => cmdWord 0x40 v 0 0
  | .ingest v _ => cmdWord 0x41 v 0 0
  | .fetch v requested => cmdWord 0x42 v 0 requested
  | .hasdec v => cmdWord 0x43 v 0 0
  | .push v frames => cmdWord 0x44 v 0 (BitVec.ofNat 32 frames.length)
  | .decerr v => cmdWord 0x45 v 0 0
  | .mix => cmdWord 0x50 0 0 0

/-- The payload beats of an operation (R94). -/
def Instr.beats : Instr → List Beat
  | .rbwrite _ cells => cells.beats
  | .ingest _ block => block.map byteBeat
  | .push _ frames => frames
  | .reset | .openVoice _ _ _ _ | .stopv _ _ | .query | .storerr | .rdreg _ _ => []
  | .rbspace _ _ _ | .rbread _ _ _ | .rbused _ _ | .rbfree _ _ => []
  | .db2idx _ | .idx2lin _ | .fade _ _ _ _ | .fstop _ | .fsvc _ => []
  | .hasstor _ | .fetch _ _ | .hasdec _ | .decerr _ | .mix => []

/-- The encoder: the command that stands for an operation. -/
def encode (i : Instr) : Command := ⟨i.word, i.beats⟩

/-- The row's operation of an instruction. -/
def Instr.op : Instr → Op
  | .reset => .reset
  | .openVoice _ _ _ _ => .openVoice
  | .stopv _ _ => .stopv
  | .query => .query
  | .storerr => .storerr
  | .rdreg _ _ => .rdreg
  | .rbspace _ _ _ => .rbspace
  | .rbwrite _ _ => .rbwrite
  | .rbread _ _ _ => .rbread
  | .rbused _ _ => .rbused
  | .rbfree _ _ => .rbfree
  | .db2idx _ => .db2idx
  | .idx2lin _ => .idx2lin
  | .fade _ _ _ _ => .fade
  | .fstop _ => .fstop
  | .fsvc _ => .fsvc
  | .hasstor _ => .hasstor
  | .ingest _ _ => .ingest
  | .fetch _ _ => .fetch
  | .hasdec _ => .hasdec
  | .push _ _ => .push
  | .decerr _ => .decerr
  | .mix => .mix

/-- How many payload beats follow a word: 0 for a word that selects no operation (R94). -/
def wordPayloadLength (c : Config) (cw : CmdWord) : Nat :=
  match selectOp cw with
  | some op => payloadLength c op cw
  | none => 0

/-- The command whose bits are the low `nbits` of `w` and zero above: the 64-bit word first, then
the payload beats of 32 bits each, as many as the word asks for (log 2). -/
def commandOfBits (c : Config) (nbits w : Nat) : Command :=
  let bits := w % 2 ^ nbits
  let cw := BitVec.ofNat 64 bits
  ⟨cw, (List.range (wordPayloadLength c cw)).map (fun k => BitVec.ofNat 32 (bits / 2 ^ (64 + 32 * k)))⟩

/-- The instruction the decoder reads from an instruction whose bits are `w` (bit 0 the least
significant of the command word), under the configuration `State.reset` has. -/
def decodeTableWord (nbits w : Nat) : Option Instr :=
  match decode Config.default (commandOfBits Config.default nbits w) with
  | .ok i => some i
  | .error _ => none

end Sys2Proof
end

