-- ==== Sys2Proof/Machine/State.lean ====
section
/-! DEFINITION. The architectural state of the mix core (R20 to R42) as plain data, the reasons a step
can stop, and the state after reset. -/
namespace Sys2Proof.Machine

/-- One memory of `w`-bit cells (R60): the cells that are not zero, by rising cell index. An unlisted
cell reads 0, the reset content of every cell (R42). `Memory 8` is a list of `Host.Cell`. -/
abbrev Memory (w : Nat) := List (Nat × BitVec w)

/-- The register `state` (R22). -/
inductive VoiceState where
  | available
  | playing
  | paused
  | stopped
  deriving DecidableEq, Repr

/-- The register `flags`, five bits (R23). -/
structure VoiceFlags where
  /-- bit 0 -/
  loop : Bool
  /-- bit 1; stored at `OPEN`, read by no rule (R280). -/
  lock : Bool
  /-- bit 2 -/
  stopRequested : Bool
  /-- bit 3 -/
  endOfFile : Bool
  /-- bit 4 -/
  streamError : Bool
  deriving DecidableEq, Repr

/-- The register `faderCtl`, six bits (R28). -/
structure FaderCtl where
  /-- bit 0 -/
  active : Bool
  /-- bit 1 -/
  stopOnComplete : Bool
  /-- bit 2, `direction`: 1 is up. -/
  up : Bool
  /-- bits 4:3 -/
  shortFadeMode : BitVec 2
  /-- bit 5 -/
  shortFadeCompleted : Bool
  deriving DecidableEq, Repr

/-- One voice slot: the register file `V[v]` of R21 in the order of its register numbers, and the two
memories `COMP[v]` and `PCM[v]` (R35). -/
structure Voice where
  /-- # 0 -/
  state : VoiceState
  /-- # 1 -/
  flags : VoiceFlags
  /-- # 2 -/
  compWr : BitVec 32
  /-- # 3 -/
  compRd : BitVec 32
  /-- # 4 -/
  pcmWr : BitVec 32
  /-- # 5 -/
  pcmRd : BitVec 32
  /-- # 6 -/
  bytesRead : BitVec 32
  /-- # 7 -/
  bytesDeliv : BitVec 32
  /-- # 8 -/
  framesPlayed : BitVec 32
  /-- # 9 -/
  gainIdx : BitVec 16
  /-- # 10, UQ1.16 -/
  gainLin : BitVec 32
  /-- # 11 -/
  faderCtl : FaderCtl
  /-- # 12 -/
  target : BitVec 16
  /-- # 13, Q16.16 -/
  rampDelta : BitVec 32
  /-- # 14, Q16.16 -/
  rampAcc : BitVec 32
  /-- # 15 -/
  trackSize : BitVec 32
  /-- # 16; loaded at `OPEN`, read by no rule (R32). -/
  triggerTs : BitVec 32
  /-- `COMP[v]`: C_COMP byte cells. -/
  comp : Memory 8
  /-- `PCM[v]`: C_PCM frame cells. -/
  pcm : Memory 32
  deriving DecidableEq, Repr

/-- The status names of R100. `bufferUnderrun` is the reserved name no response carries (R269). -/
inductive Status where
  | ok
  | badIndex
  | streamError
  | bufferUnderrun
  | storageError
  | noFreeVoice
  | illegalCommand
  deriving DecidableEq, Repr

/-- A response: the two fields of the response word `RW` (R99) and the response payload (R94). -/
structure Response where
  status : Status
  value : BitVec 32
  payload : List Beat
  deriving DecidableEq, Repr

/-- The state tuple of R20, with three fields of the model's own: `cfg`, `pending`, `response`. -/
structure State where
  /-- MODEL: the configuration (R9); no step changes it. `ROM` is `cfg.gainRom`. DESIGN CHOICE (log 1). -/
  cfg : Config
  /-- The voice slots `V[0 .. MAX_VOICES-1]` with their memories. -/
  voices : List Voice
  /-- `G.halted` (R33). -/
  halted : Bool
  /-- `G.quantumCounter` (R33). -/
  quantumCounter : BitVec 32
  /-- `ACC`, the MixAccumulator: Q frame cells (R36). -/
  acc : Memory 32
  /-- `SCR`, the scratch frame buffer: Q frame cells (R37). -/
  scr : Memory 32
  /-- MODEL: the commands waiting on the port, oldest first (R70, R90). DESIGN CHOICE (log 2). -/
  pending : List Command
  /-- MODEL: the response of the last command executed (R90). DESIGN CHOICE (log 2). -/
  response : Option Response
  deriving DecidableEq, Repr

/-- Where a step faults: an access to a place the spec says does not exist. -/
inductive Fault where
  /-- Raised by `OPEN`, `IDX2LIN` and `MIX` where they would read `ROM` above entry N−1 (R147, U5); no
  state that a run reaches does. Safe: the model stops. Log 6. -/
  | gainIndexOutOfRange
  deriving DecidableEq, Repr

/-- Where a step is refused: outside the domain the spec gives a behaviour to. -/
inductive Refusal where
  /-- Raised by an arm of `exec` whose instruction has no meaning yet. Safe. -/
  | notModelled (mnemonic : String)
  /-- Raised by `RBWRITE`, `INGEST` and `PUSH` on a ring-buffer write of `n` cells with `n >= free`:
  U1 asks a model to refuse it. Safe: the model stops. Log 4. -/
  | writeWithoutSpace
  /-- Raised by `step` under a configuration that violates R10 or R141: U2 asks for a refusal. Safe. Log 5. -/
  | illFormedConfiguration
  deriving DecidableEq, Repr

/-- All flags clear. -/
def VoiceFlags.clear : VoiceFlags := ⟨false, false, false, false, false⟩

/-- All fader flags clear: Idle (R30). -/
def FaderCtl.clear : FaderCtl := ⟨false, false, false, 0, false⟩

/-- The all-zero slot, which is `Available` (R22, R42). -/
def Voice.zero : Voice where
  state := .available
  flags := VoiceFlags.clear
  compWr := 0
  compRd := 0
  pcmWr := 0
  pcmRd := 0
  bytesRead := 0
  bytesDeliv := 0
  framesPlayed := 0
  gainIdx := 0
  gainLin := 0
  faderCtl := FaderCtl.clear
  target := 0
  rampDelta := 0
  rampAcc := 0
  trackSize := 0
  triggerTs := 0
  comp := []
  pcm := []

/-- The reset state under a configuration (R42, R242, R290): no command has arrived, no response has
been given. -/
def State.resetOf (c : Config) : State where
  cfg := c
  voices := List.replicate c.maxVoices Voice.zero
  halted := false
  quantumCounter := 0
  acc := []
  scr := []
  pending := []
  response := none

/-- The machine right after reset, under the DEFAULT configuration (R11). DESIGN CHOICE (log 1). -/
def State.reset : State := State.resetOf Config.default

end Sys2Proof.Machine
end

