-- ==== Sys2Proof/Machine/Operands.lean ====
section
/-! DEFINITION. The arithmetic primitives of R13, the lanes of a frame (R61), and the two functions on the gain
table (R145, R147). Everything is computed on unbounded integers and narrowed once, at the end (R219). -/
namespace Sys2Proof.Machine

/-- `fdiv(a, b)`, the floor of the exact quotient for `b > 0` (R13). -/
def fdiv (a b : Int) : Int := a / b

/-- `sat16` (R13). -/
def sat16 (x : Int) : Int := max (-32768) (min 32767 x)

/-- `satadd32` on unsigned operands (R13). -/
def satadd32 (a b : Nat) : Nat := min (a + b) (2 ^ 32 - 1)

/-- `satsub0` on unsigned operands (R13). -/
def satsub0 (a b : Nat) : Nat := if b ≤ a then a - b else 0

/-- `intpart`, the integer part of a Q16.16 value (R13). -/
def intpart (x : Nat) : Nat := x / 65536

/-- The channel `left` of a frame, bits 15:0 as `i16` (R61). -/
def frameLeft (f : Frame) : Int := (f.extractLsb' 0 16).toInt

/-- The channel `right` of a frame, bits 31:16 as `i16` (R61). -/
def frameRight (f : Frame) : Int := (f.extractLsb' 16 16).toInt

/-- The frame of two channel values (R61). -/
def mkFrame (left right : Int) : Frame := BitVec.ofInt 16 right ++ BitVec.ofInt 16 left

/-- `SILENCE_INDEX` (R9). -/
def silenceIndex : BitVec 16 := 0

/-- `db_to_index` (R145), both clamps. -/
def dbToIndex (c : Config) (db : Int) : Nat :=
  let d := max c.minDb (min maxDb db)
  let idx := (d - c.minDb) * 2
  (max 0 (min ((c.n : Int) - 1) idx)).toNat

/-- `index_to_linear` (R147): `MemRead(ROM, i)`; nothing above entry N−1. -/
def indexToLinear (c : Config) (i : Nat) : Option Nat := c.gainRom[i]?

end Sys2Proof.Machine
end

