-- ==== Sys2Proof/Machine/Flags.lean ====
section
/-! DEFINITION. The flag registers as words (R22, R23, R28), the flag updates of R41, the status codes (R100) and
the response word (R99). There are no arithmetic condition codes (R41). -/
namespace Sys2Proof.Machine

/-- The code of `state` (R22). -/
def VoiceState.code : VoiceState → BitVec 32
  | .available => 0
  | .playing => 1
  | .paused => 2
  | .stopped => 3

/-- `flags` as a word (R23). -/
def VoiceFlags.word (f : VoiceFlags) : BitVec 32 :=
  BitVec.ofNat 32 (f.loop.toNat + 2 * f.lock.toNat + 4 * f.stopRequested.toNat
    + 8 * f.endOfFile.toNat + 16 * f.streamError.toNat)

/-- `faderCtl` as a word (R28). -/
def FaderCtl.word (f : FaderCtl) : BitVec 32 :=
  BitVec.ofNat 32 (f.active.toNat + 2 * f.stopOnComplete.toNat + 4 * f.up.toNat
    + 8 * f.shortFadeMode.toNat + 32 * f.shortFadeCompleted.toNat)

/-- The flags `OPEN` leaves (R245): `endOfFile` at once for an empty track. -/
def openedFlags (loop lock : Bool) (trackSize : BitVec 32) : VoiceFlags :=
  { VoiceFlags.clear with loop := loop, lock := lock, endOfFile := decide (trackSize = 0) }

/-- The flags finalize leaves: `streamError` alone survives (R191, R243). -/
def finalizedFlags (f : VoiceFlags) : VoiceFlags :=
  { VoiceFlags.clear with streamError := f.streamError }

/-- The transition to Idle: `active`, `shortFadeMode` and `shortFadeCompleted` are cleared (R160, D11). -/
def FaderCtl.idle (f : FaderCtl) : FaderCtl :=
  { f with active := false, shortFadeMode := 0, shortFadeCompleted := false }

/-- `shortNow`: the quantum that completes a short fade (R213). -/
def FaderCtl.shortNow (f : FaderCtl) : Bool :=
  f.active && decide (f.shortFadeMode ≠ 0) && f.shortFadeCompleted

/-- The status codes (R100). -/
def Status.code : Status → BitVec 8
  | .ok => 0x00
  | .badIndex => 0x01
  | .streamError => 0x02
  | .bufferUnderrun => 0x03
  | .storageError => 0x04
  | .noFreeVoice => 0x05
  | .illegalCommand => 0x07

/-- The response word `RW`: status in 63:56, zero in 55:32, value in 31:0 (R99). -/
def Response.word (r : Response) : BitVec 64 := r.status.code ++ (0#24 ++ r.value)

/-- A truth value as a response value: 1 for true, 0 for false (R101). -/
def boolValue (b : Bool) : BitVec 32 := if b then 1 else 0

/-- The `FETCH` value: bits 30:0 the count, bit 31 `exhausted` (R101, R186). -/
def fetchValue (exhausted : Bool) (k : Nat) : BitVec 32 :=
  (boolValue exhausted <<< 31) ||| BitVec.ofNat 32 k

/-- The `MIX` value: voices mixed, finalized, with a shortfall, eight bits each (R101, R222). -/
def mixValue (mixed fin short : Nat) : BitVec 32 :=
  BitVec.ofNat 32 mixed ||| (BitVec.ofNat 32 fin <<< 8) ||| (BitVec.ofNat 32 short <<< 16)

end Sys2Proof.Machine
end

