-- ==== Sys2Proof/Machine/Ops.lean ====
section
/-! DEFINITION. The named operations every meaning is built from: memory cells, ring-buffer procedures (R120 to
R125), fader procedures (R156 to R162), finalize (R243), responses and the ONE way an error is taken
(R266, R272), the checks of R97, and the port. -/
namespace Sys2Proof.Machine

/-! ### Memories -/

/-- `MemRead`: an unlisted cell reads 0 (R14, R42). -/
def Memory.read {w : Nat} (m : Memory w) (i : Nat) : BitVec w :=
  match m with
  | [] => 0
  | (j, y) :: rest => if i = j then y else Memory.read rest i

/-- A cell in front of a memory, left out when it is zero. -/
def Memory.cons {w : Nat} (i : Nat) (x : BitVec w) (m : Memory w) : Memory w :=
  if x = 0 then m else (i, x) :: m

/-- `MemWrite`: one whole cell (R14, R65), in place in the rising order. -/
def Memory.write {w : Nat} (m : Memory w) (i : Nat) (x : BitVec w) : Memory w :=
  match m with
  | [] => Memory.cons i x []
  | (j, y) :: rest =>
    if i < j then Memory.cons i x ((j, y) :: rest)
    else if i = j then Memory.cons i x rest
    else (j, y) :: Memory.write rest i x

/-- The canonical form: indices strictly rising, no cell equal to what an unlisted cell reads as. -/
def Memory.wf {w : Nat} (m : Memory w) : Bool :=
  match m with
  | [] => true
  | (j, y) :: rest =>
    decide (y ≠ 0) && rest.all (fun p => decide (j < p.1)) && Memory.wf rest

/-- Every listed cell lies below the capacity of the memory (R60). -/
def Memory.within {w : Nat} (cap : Nat) (m : Memory w) : Bool :=
  m.all (fun p => decide (p.1 < cap))

/-- The memory that holds the given cells from index `k` on. -/
def Memory.ofCells {w : Nat} (k : Nat) : List (BitVec w) → Memory w
  | [] => []
  | x :: rest => Memory.cons k x (Memory.ofCells (k + 1) rest)

/-! ### Ring buffers -/

/-- One ring buffer: capacity, array and the two cursors (R120). -/
structure RingBuffer (w : Nat) where
  cap : Nat
  mem : Memory w
  wr : Nat
  rd : Nat
  deriving DecidableEq, Repr

/-- `used(B) = (B.wr - B.rd) mod B.C` (R121). -/
def RingBuffer.used {w : Nat} (b : RingBuffer w) : Nat := (((b.wr : Int) - b.rd) % b.cap).toNat

/-- `free(B) = B.C - used(B)` (R121). -/
def RingBuffer.free {w : Nat} (b : RingBuffer w) : Nat := b.cap - b.used

/-- `has_space(B, n) = free(B) > n` (R122). -/
def RingBuffer.hasSpace {w : Nat} (b : RingBuffer w) (n : Nat) : Bool := decide (b.free > n)

/-- The loop of the write procedure: cells go to `at`, `at + 1`, … modulo the capacity (R124). -/
def writeCells {w : Nat} (cap : Nat) (m : Memory w) (at_ : Nat) : List (BitVec w) → Memory w
  | [] => m
  | x :: rest => writeCells cap (Memory.write m (at_ % cap) x) (at_ + 1) rest

/-- `rb_write` with the list of cells (R124). Its precondition is the callers'. -/
def RingBuffer.write {w : Nat} (b : RingBuffer w) (src : List (BitVec w)) : RingBuffer w :=
  { b with mem := writeCells b.cap b.mem b.wr src, wr := (b.wr + src.length) % b.cap }

/-- The `k` cells from the read cursor on (R125). -/
def RingBuffer.peek {w : Nat} (b : RingBuffer w) (k : Nat) : List (BitVec w) :=
  (List.range k).map (fun i => Memory.read b.mem ((b.rd + i) % b.cap))

/-- `actualN` of a read of `n` cells (R125). -/
def RingBuffer.readCount {w : Nat} (b : RingBuffer w) (n : Nat) : Nat := min n b.used

/-- The cells `rb_read` returns (R125). -/
def RingBuffer.readCells {w : Nat} (b : RingBuffer w) (n : Nat) : List (BitVec w) := b.peek (b.readCount n)

/-- The ring after `rb_read` (R125). -/
def RingBuffer.afterRead {w : Nat} (b : RingBuffer w) (n : Nat) : RingBuffer w :=
  { b with rd := (b.rd + b.readCount n) % b.cap }

/-- `CB(v)`, the compressed buffer of a voice (R120). -/
def Voice.compRing (c : Config) (x : Voice) : RingBuffer 8 :=
  ⟨c.cComp, x.comp, x.compWr.toNat, x.compRd.toNat⟩

/-- `PB(v)`, the decoded buffer of a voice (R120). -/
def Voice.pcmRing (c : Config) (x : Voice) : RingBuffer 32 :=
  ⟨c.cPcm, x.pcm, x.pcmWr.toNat, x.pcmRd.toNat⟩

/-- A voice with the compressed buffer replaced. -/
def Voice.setCompRing (x : Voice) (b : RingBuffer 8) : Voice :=
  { x with comp := b.mem, compWr := BitVec.ofNat 32 b.wr, compRd := BitVec.ofNat 32 b.rd }

/-- A voice with the decoded buffer replaced. -/
def Voice.setPcmRing (x : Voice) (b : RingBuffer 32) : Voice :=
  { x with pcm := b.mem, pcmWr := BitVec.ofNat 32 b.wr, pcmRd := BitVec.ofNat 32 b.rd }

/-- `used(buffer(v, sel))` (R120, R121). -/
def Voice.usedOf (c : Config) (x : Voice) : BufSel → Nat
  | .comp => (x.compRing c).used
  | .pcm => (x.pcmRing c).used

/-- `free(buffer(v, sel))` (R120, R121). -/
def Voice.freeOf (c : Config) (x : Voice) : BufSel → Nat
  | .comp => (x.compRing c).free
  | .pcm => (x.pcmRing c).free

/-- `has_space(buffer(v, sel), n)` (R122). -/
def Voice.hasSpaceOf (c : Config) (x : Voice) : BufSel → Nat → Bool
  | .comp, n => (x.compRing c).hasSpace n
  | .pcm, n => (x.pcmRing c).hasSpace n

/-- `rb_write` of cells into the buffer of their type (R124, R127). -/
def Voice.writeCellsOf (c : Config) (x : Voice) : Cells → Voice
  | .comp bytes => x.setCompRing ((x.compRing c).write bytes)
  | .pcm frames => x.setPcmRing ((x.pcmRing c).write frames)

/-- The voice after `rb_read` of the selected buffer (R125). -/
def Voice.afterReadOf (c : Config) (x : Voice) : BufSel → Nat → Voice
  | .comp, n => x.setCompRing ((x.compRing c).afterRead n)
  | .pcm, n => x.setPcmRing ((x.pcmRing c).afterRead n)

/-- The cells `rb_read` of the selected buffer returns, as payload beats (R94, R125). -/
def Voice.readBeatsOf (c : Config) (x : Voice) : BufSel → Nat → List Beat
  | .comp, n => ((x.compRing c).readCells n).map byteBeat
  | .pcm, n => (x.pcmRing c).readCells n

/-! ### Fader -/

/-- The short case of `fader_start` (R157); `dur` is 1 or 2. -/
def faderStartShort (x : Voice) (t dur : Nat) (soc : Bool) : Voice :=
  { x with
    faderCtl :=
      { x.faderCtl with
        active := true
        stopOnComplete := soc
        shortFadeMode := BitVec.ofNat 2 dur
        shortFadeCompleted := false }
    target := BitVec.ofNat 16 t }

/-- `distance = |target - current|` (R158). -/
def fadeDistance (t g : Nat) : Nat := ((t : Int) - g).natAbs

/-- The normal case of `fader_start` (R158); nothing is written when the target is the current index. -/
def faderStartNormal (x : Voice) (t dur : Nat) (soc : Bool) : Voice :=
  if t = x.gainIdx.toNat then x
  else
    { x with
      faderCtl :=
        { active := true
          stopOnComplete := soc
          up := decide (x.gainIdx.toNat < t)
          shortFadeMode := 0
          shortFadeCompleted := false }
      target := BitVec.ofNat 16 t
      rampDelta := BitVec.ofNat 32 (fadeDistance t x.gainIdx.toNat * 65536 * 3 / dur)
      rampAcc := BitVec.ofNat 32 (x.gainIdx.toNat * 65536) }

/-- A fade duration of 0 becomes 1 (R156, C3). -/
def clampTicks (ticks : Nat) : Nat := if ticks = 0 then 1 else ticks

/-- `fader_start` (R156). -/
def faderStart (c : Config) (x : Voice) (targetDb : Int) (ticks : Nat) (soc : Bool) : Voice :=
  if clampTicks ticks < 3 then faderStartShort x (dbToIndex c targetDb) (clampTicks ticks) soc
  else faderStartNormal x (dbToIndex c targetDb) (clampTicks ticks) soc

/-- `fader_stop` (R160). -/
def faderStop (x : Voice) : Voice := { x with faderCtl := x.faderCtl.idle }

/-- The ShortFading case of the service (R162). -/
def serviceShort (x : Voice) : Voice × Bool :=
  if x.faderCtl.shortFadeCompleted then
    ({ x with faderCtl := x.faderCtl.idle }, x.faderCtl.stopOnComplete)
  else
    ({ x with gainIdx := x.target, faderCtl := { x.faderCtl with shortFadeCompleted := true } }, false)

/-- The case Ramping up of the service (R162). -/
def serviceUp (x : Voice) : Voice × Bool :=
  if x.target.toNat ≤ x.gainIdx.toNat then
    ({ x with faderCtl := { x.faderCtl with active := false } }, x.faderCtl.stopOnComplete)
  else
    let a := satadd32 x.rampAcc.toNat x.rampDelta.toNat
    ({ x with
        rampAcc := BitVec.ofNat 32 a
        gainIdx := BitVec.ofNat 16 (min (intpart a) x.target.toNat) }, false)

/-- The case Ramping down of the service (R162). -/
def serviceDown (x : Voice) : Voice × Bool :=
  if x.gainIdx.toNat ≤ x.target.toNat then
    ({ x with faderCtl := { x.faderCtl with active := false } }, x.faderCtl.stopOnComplete)
  else
    let a := satsub0 x.rampAcc.toNat x.rampDelta.toNat
    ({ x with
        rampAcc := BitVec.ofNat 32 a
        gainIdx := BitVec.ofNat 16 (max (intpart a) x.target.toNat) }, false)

/-- `fader_service`: the voice after it and the value it returns (R162, R165). -/
def faderService (x : Voice) : Voice × Bool :=
  if x.faderCtl.active then
    if x.faderCtl.shortFadeMode ≠ 0 then serviceShort x
    else if x.faderCtl.up then serviceUp x
    else serviceDown x
  else (x, false)

/-! ### Voice pool -/

/-- `finalize` (R243): everything of the slot is zero but `streamError`. -/
def Voice.finalize (x : Voice) : Voice := { Voice.zero with flags := finalizedFlags x.flags }

/-- The slot of an index `v < MAX_VOICES` (R240). -/
def State.slot? (s : State) (v : Nat) : Option Voice :=
  if v < s.cfg.maxVoices then s.voices[v]? else none

/-- The voice of a handle: in range and not `Available` (R267). -/
def State.handle? (s : State) (v : Nat) : Option Voice :=
  match s.slot? v with
  | some x => if x.state = .available then none else some x
  | none => none

/-- `is_handle` (R267). -/
def State.isHandle (s : State) (v : Nat) : Bool := (s.handle? v).isSome

/-- The state with one slot replaced. -/
def State.setVoice (s : State) (v : Nat) (x : Voice) : State := { s with voices := s.voices.set v x }

/-- The lowest index whose slot is `Available` (R244). -/
def State.lowestFree (s : State) : Option Nat :=
  s.voices.findIdx? (fun x => decide (x.state = .available))

/-- How many slots are Playing or Paused (R255). -/
def State.activeCount (s : State) : Nat :=
  s.voices.countP (fun x => decide (x.state = .playing ∨ x.state = .paused))

/-! ### Responses and errors -/

/-- `respond(status, value, payload)` (R14, R99). -/
def State.respond (s : State) (st : Status) (value : BitVec 32) (payload : List Beat) : State :=
  { s with response := some ⟨st, value, payload⟩ }

/-- A performed operation: status `OK` (R101). -/
def State.ok (s : State) (value : BitVec 32) (payload : List Beat) : State :=
  s.respond .ok value payload

/-- TAKING AN ERROR, the one operation for it: the status, value 0, no payload, and no state written
(R265, R266). -/
def State.error (s : State) (st : Status) : State := s.respond st 0 []

/-- Entering the halted condition (R258, R272). -/
def State.halt (s : State) : State := { s with halted := true }

/-- The effect of `RESET`, which alone leaves the halted condition (R241, R272): the reset state of the
configuration; the commands still waiting on the port are not the core's state and stay. -/
def State.performReset (s : State) : State := { State.resetOf s.cfg with pending := s.pending }

/-- Step (2) of R97: every operation but `RESET` and `RDREG` is refused while halted (R272). -/
def State.whenRunning (s : State) (k : Host.Outcome State Fault Refusal) :
    Host.Outcome State Fault Refusal :=
  if s.halted then .next (s.error .storageError) else k

/-- Steps (2) and (3) of R97 for a format-V operation: `k` runs on the voice of the handle (R267). -/
def State.onHandle (s : State) (v : Nat) (k : Voice → Host.Outcome State Fault Refusal) :
    Host.Outcome State Fault Refusal :=
  s.whenRunning
    (match s.handle? v with
    | some x => k x
    | none => .next (s.error .badIndex))

/-- A write is performed only with space for it; without, the spec gives no behaviour (R124, U1). -/
def withSpace (space : Bool) (k : Host.Outcome State Fault Refusal) :
    Host.Outcome State Fault Refusal :=
  if space then k else .refused .writeWithoutSpace

/-! ### The port -/

/-- The next command on the port and the state without it (R70, R90). -/
def State.fetch (s : State) : Option (Command × State) :=
  match s.pending with
  | [] => none
  | cmd :: rest => some (cmd, { s with pending := rest })

/-- The effect of an illegal command (R97 step 1, R98). -/
def State.illegal (s : State) : State := s.error .illegalCommand

/-- A command put in front of those waiting. -/
def State.offer (s : State) (cmd : Command) : State := { s with pending := cmd :: s.pending }

end Sys2Proof.Machine
end

