-- ==== Sys2Proof/Machine/ControlPlane.lean ====
section
/-! DEFINITION. The control-plane operations RESET, OPEN, STOPV, QUERY, STORERR, RDREG (45_control_plane.md). -/
namespace Sys2Proof.Machine

/-- `RESET` (R241): accepted while halted. -/
def execReset (s : State) : Host.Outcome State Fault Refusal := .next (s.performReset.ok 0 [])

/-- The slot `OPEN` allocates, at gain index `idx` with amplitude `lin` (R245). -/
def openedVoice (idx lin : Nat) (trackSize : BitVec 32) (loop lock : Bool) (ts : BitVec 32) : Voice :=
  { Voice.zero with
    state := .playing
    flags := openedFlags loop lock trackSize
    trackSize := trackSize
    gainIdx := BitVec.ofNat 16 idx
    gainLin := BitVec.ofNat 32 lin
    triggerTs := ts }

/-- `OPEN` with the slot `v` found free (R245). -/
def openSlot (gainDb : BitVec 16) (trackSize : BitVec 32) (loop lock : Bool) (v : Nat) (s : State) :
    Host.Outcome State Fault Refusal :=
  let idx := dbToIndex s.cfg gainDb.toInt
  match indexToLinear s.cfg idx with
  | some lin =>
    .next ((s.setVoice v (openedVoice idx lin trackSize loop lock s.quantumCounter)).ok (BitVec.ofNat 32 v) [])
  | none => .fault .gainIndexOutOfRange

/-- `OPEN` (R244, R245): the lowest free slot, or `NoFreeVoice`. -/
def execOpen (gainDb : BitVec 16) (trackSize : BitVec 32) (loop lock : Bool) (s : State) :
    Host.Outcome State Fault Refusal :=
  s.whenRunning
    (match s.lowestFree with
    | some v => openSlot gainDb trackSize loop lock v s
    | none => .next (s.error .noFreeVoice))

/-- What `STOPV` does to its voice (R251). -/
def stopVoice (c : Config) (releaseTicks : Nat) (x : Voice) : Voice :=
  if releaseTicks = 0 ∨ x.gainIdx = silenceIndex then
    { x with flags := { x.flags with stopRequested := true } }
  else faderStart c x c.minDb releaseTicks true

/-- `STOPV` (R250, R251). -/
def execStopv (v : BitVec 8) (releaseTicks : BitVec 16) (s : State) : Host.Outcome State Fault Refusal :=
  s.onHandle v.toNat fun x =>
    .next ((s.setVoice v.toNat (stopVoice s.cfg releaseTicks.toNat x)).ok 0 [])

/-- `QUERY` (R255). -/
def execQuery (s : State) : Host.Outcome State Fault Refusal :=
  s.whenRunning (.next (s.ok (BitVec.ofNat 32 s.activeCount) []))

/-- `STORERR` (R258): performed, and reported by its status; refused while halted (R273). -/
def execStorerr (s : State) : Host.Outcome State Fault Refusal :=
  s.whenRunning (.next (s.halt.error .storageError))

/-- The voice registers of R21 in the order of their numbers 0 to 16, zero-extended. -/
def voiceRegisters (x : Voice) : List (BitVec 32) :=
  [x.state.code, x.flags.word, x.compWr, x.compRd, x.pcmWr, x.pcmRd, x.bytesRead, x.bytesDeliv,
   x.framesPlayed, x.gainIdx.setWidth 32, x.gainLin, x.faderCtl.word, x.target.setWidth 32,
   x.rampDelta, x.rampAcc, x.trackSize, x.triggerTs]

/-- The global registers of R33 and the identification registers of R34. -/
def globalRegister (s : State) (reg : Nat) : Option (BitVec 32) :=
  if reg = 0x80 then some (boolValue s.halted)
  else if reg = 0x81 then some s.quantumCounter
  else if reg = 0x90 then some (BitVec.ofNat 32 s.cfg.maxVoices)
  else if reg = 0x91 then some (BitVec.ofNat 32 s.cfg.q)
  else if reg = 0x92 then some (BitVec.ofNat 32 s.cfg.n)
  else if reg = 0x93 then some (BitVec.ofNat 32 s.cfg.cComp)
  else if reg = 0x94 then some (BitVec.ofNat 32 s.cfg.cPcm)
  else if reg = 0x95 then some (BitVec.ofNat 32 s.cfg.blockBytes)
  else if reg = 0x96 then some (BitVec.ofNat 32 s.cfg.decodeFrame)
  else if reg = 0x97 then some (BitVec.ofInt 32 s.cfg.minDb)
  else if reg = 0x98 then some (BitVec.ofNat 32 s.cfg.z)
  else if reg = 0x99 then some (boolValue s.cfg.hardMuteCancelsFader)
  else none

/-- `RDREG` (R262): accepted while halted; a voice register needs the range, not a handle. -/
def execRdreg (v : BitVec 8) (reg : BitVec 16) (s : State) : Host.Outcome State Fault Refusal :=
  if reg.toNat ≤ 16 then
    match s.slot? v.toNat with
    | some x => .next (s.ok ((voiceRegisters x).getD reg.toNat 0) [])
    | none => .next (s.error .badIndex)
  else
    match globalRegister s reg.toNat with
    | some w => .next (s.ok w [])
    | none => .next s.illegal

end Sys2Proof.Machine
end

