-- ==== Sys2Proof/Machine/Fader.lean ====
section
/-! DEFINITION. The fader operations FADE, FSTOP, FSVC (42_fader.md). -/
namespace Sys2Proof.Machine

/-- `FADE` (R159). -/
def execFade (v : BitVec 8) (targetDb durationTicks : BitVec 16) (soc : Bool) (s : State) :
    Host.Outcome State Fault Refusal :=
  s.onHandle v.toNat fun x =>
    .next ((s.setVoice v.toNat (faderStart s.cfg x targetDb.toInt durationTicks.toNat soc)).ok 0 [])

/-- `FSTOP` (R161). -/
def execFstop (v : BitVec 8) (s : State) : Host.Outcome State Fault Refusal :=
  s.onHandle v.toNat fun x => .next ((s.setVoice v.toNat (faderStop x)).ok 0 [])

/-- `FSVC` (R163): the voice is not finalized, whatever the service returns. -/
def execFsvc (v : BitVec 8) (s : State) : Host.Outcome State Fault Refusal :=
  s.onHandle v.toNat fun x =>
    .next ((s.setVoice v.toNat (faderService x).1).ok (boolValue (faderService x).2) [])

end Sys2Proof.Machine
end

