-- ==== Sys2Proof/Machine/GainTable.lean ====
section
/-! DEFINITION. The gain-table operations DB2IDX, IDX2LIN (41_gain_table.md). -/
namespace Sys2Proof.Machine

/-- `DB2IDX` (R146). -/
def execDb2idx (db : BitVec 16) (s : State) : Host.Outcome State Fault Refusal :=
  s.whenRunning (.next (s.ok (BitVec.ofNat 32 (dbToIndex s.cfg db.toInt)) []))

/-- `IDX2LIN` (R148): an index above N−1 is clamped to N−1. -/
def execIdx2lin (index : BitVec 32) (s : State) : Host.Outcome State Fault Refusal :=
  s.whenRunning
    (match indexToLinear s.cfg (min index.toNat (s.cfg.n - 1)) with
    | some lin => .next (s.ok (BitVec.ofNat 32 lin) [])
    | none => .fault .gainIndexOutOfRange)

end Sys2Proof.Machine
end

