-- ==== Sys2Proof/Machine/Mixer.lean ====
section
/-! DEFINITION. The mix step MIX (44_mixer.md): ramp generator, gain multiplier, saturating accumulator. -/
namespace Sys2Proof.Machine

/-- What `MIX` carries from voice to voice: the accumulator as its Q cells, the scratch buffer, and the
three counts of the response value (R207, R222). -/
structure MixRun where
  acc : List Frame
  scr : Memory 32
  mixed : Nat
  fin : Nat
  short : Nat
  deriving DecidableEq, Repr

/-- `shortCount` (R207). -/
def MixRun.countShort (r : MixRun) : MixRun := { r with short := r.short + 1 }

/-- `finCount` (R208, R209, R221). -/
def MixRun.countFinalized (r : MixRun) : MixRun := { r with fin := r.fin + 1 }

/-- Step 1: the decoded frames of this quantum (R207). -/
def mixAvail (c : Config) (x : Voice) : Nat := min c.q (x.pcmRing c).used

/-- Step 2 finds an immediate stop of a silent voice (R208). -/
def silentStop (x : Voice) : Bool := x.flags.stopRequested && decide (x.gainIdx = silenceIndex)

/-- Step 2 on a voice that is not silent: the index is forced to silence, and the fader to Idle where the
configuration says so (R208, U6). -/
def hardMute (c : Config) (x : Voice) : Voice :=
  if x.flags.stopRequested then
    if c.hardMuteCancelsFader then faderStop { x with gainIdx := silenceIndex }
    else { x with gainIdx := silenceIndex }
  else x

/-- The ramp length `L` of the quantum (R213). -/
def rampLength (c : Config) (f : FaderCtl) : Nat :=
  if f.shortNow then c.q * f.shortFadeMode.toNat / 3 else c.q

/-- The per-frame gain `g[k]` (R212). -/
def frameGain (g0 g1 len k : Nat) : Int :=
  if k < len then (g0 : Int) + fdiv (((g1 : Int) - g0) * (k + 1)) len else g1

/-- The gain multiplier on one channel (R214). -/
def scaleSample (sample gain : Int) : Int := fdiv (sample * gain) 65536

/-- Steps 5 and 6 on one frame: scale both channels by the frame's gain and add them to the accumulator
cell with 16-bit saturation (R214, R216, R217). -/
def mixFrame (gain : Int) (f a : Frame) : Frame :=
  mkFrame (sat16 (frameLeft a + scaleSample (frameLeft f) gain))
    (sat16 (frameRight a + scaleSample (frameRight f) gain))

/-- Steps 5 and 6 over the quantum, from frame `k` on (R212, R217). -/
def mixFrames (g0 g1 len k : Nat) : List Frame → List Frame → List Frame
  | f :: fs, a :: as => mixFrame (frameGain g0 g1 len k) f a :: mixFrames g0 g1 len (k + 1) fs as
  | _, _ => []

/-- Step 4: the drained frames padded with silence to the quantum length (R210). -/
def scratchFrames (c : Config) (x : Voice) (avail : Nat) : List Frame :=
  (x.pcmRing c).readCells avail ++ List.replicate (c.q - avail) 0

/-- The voice after steps 4 to 7: decoded buffer drained, `gainLin` at the end amplitude, `framesPlayed`
advanced by the frames drained (R210, R215, R220). -/
def drainedVoice (c : Config) (x : Voice) (avail lin : Nat) : Voice :=
  { x.setPcmRing ((x.pcmRing c).afterRead avail) with
    gainLin := BitVec.ofNat 32 lin
    framesPlayed := BitVec.ofNat 32 (satadd32 x.framesPlayed.toNat avail) }

/-- The end-of-stream policy finds the voice at its end (R221). -/
def endOfStream (avail : Nat) (x : Voice) : Bool :=
  decide (avail = 0) && x.flags.endOfFile && !x.flags.loop

/-- Steps 4 to 7 and the end-of-stream policy on a serviced voice whose end amplitude is `lin`
(R210 to R221). -/
def mixStage (c : Config) (x : Voice) (avail lin : Nat) (r : MixRun) : Voice × MixRun :=
  let scratch := scratchFrames c x avail
  let r' : MixRun :=
    { r with
      acc := mixFrames x.gainLin.toNat lin (rampLength c x.faderCtl) 0 scratch r.acc
      scr := Memory.ofCells 0 scratch
      mixed := r.mixed + 1 }
  if endOfStream avail x then ((drainedVoice c x avail lin).finalize, r'.countFinalized)
  else (drainedVoice c x avail lin, r')

/-- Step 3 and what follows it, for a voice that steps 1 and 2 have passed (R209). -/
def mixServiced (c : Config) (x : Voice) (avail : Nat) (r : MixRun) : Option (Voice × MixRun) :=
  match faderService x with
  | (y, true) => some (y.finalize, r.countFinalized)
  | (y, false) =>
    match indexToLinear c y.gainIdx.toNat with
    | some lin => some (mixStage c y avail lin r)
    | none => none

/-- Steps 1 to 7 on a Playing voice (R207 to R221); none where its gain index lies outside `ROM`. -/
def mixPlaying (c : Config) (x : Voice) (r : MixRun) : Option (Voice × MixRun) :=
  let avail := mixAvail c x
  let r' := if avail < c.q then r.countShort else r
  if silentStop x then some (x.finalize, r'.countFinalized)
  else mixServiced c (hardMute c x) avail r'

/-- One slot: skipped entirely unless it is Playing (R206). -/
def mixVoice (c : Config) (x : Voice) (r : MixRun) : Option (Voice × MixRun) :=
  if x.state = .playing then mixPlaying c x r else some (x, r)

/-- The slots in ascending index order (R206, R218). -/
def mixVoices (c : Config) : List Voice → MixRun → Option (List Voice × MixRun)
  | [], r => some ([], r)
  | x :: xs, r =>
    match mixVoice c x r with
    | none => none
    | some (y, r') =>
      match mixVoices c xs r' with
      | none => none
      | some (ys, r'') => some (y :: ys, r'')

/-- The start of the quantum: the accumulator cleared, the counts 0 (R206). -/
def mixStart (s : State) : MixRun := ⟨List.replicate s.cfg.q 0, s.scr, 0, 0, 0⟩

/-- The end of the quantum: the voices and memories written back, `quantumCounter` incremented, `ACC`
handed out (R206, R222). -/
def mixFinish (s : State) (voices : List Voice) (r : MixRun) : State :=
  { s with
    voices := voices
    acc := Memory.ofCells 0 r.acc
    scr := r.scr
    quantumCounter := s.quantumCounter + 1 }.ok (mixValue r.mixed r.fin r.short) r.acc

/-- `MIX` (R222, R223). -/
def execMix (s : State) : Host.Outcome State Fault Refusal :=
  s.whenRunning
    (match mixVoices s.cfg s.voices (mixStart s) with
    | some (voices, r) => .next (mixFinish s voices r)
    | none => .fault .gainIndexOutOfRange)

end Sys2Proof.Machine
end

