-- ==== Sys2Proof/Machine/RingBuffer.lean ====
section
/-! DEFINITION. The primitive ring-buffer operations RBSPACE, RBWRITE, RBREAD, RBUSED, RBFREE (40_ring_buffer.md). -/
namespace Sys2Proof.Machine

/-- `RBSPACE` (R126). -/
def execRbspace (v : BitVec 8) (sel : BufSel) (n : BitVec 32) (s : State) : Host.Outcome State Fault Refusal :=
  s.onHandle v.toNat fun x => .next (s.ok (boolValue (x.hasSpaceOf s.cfg sel n.toNat)) [])

/-- `RBWRITE` (R127). No voice counter is touched. -/
def execRbwrite (v : BitVec 8) (cells : Cells) (s : State) : Host.Outcome State Fault Refusal :=
  s.onHandle v.toNat fun x =>
    withSpace (x.hasSpaceOf s.cfg cells.sel cells.count)
      (.next ((s.setVoice v.toNat (x.writeCellsOf s.cfg cells)).ok (BitVec.ofNat 32 cells.count) []))

/-- `RBREAD` (R128). -/
def execRbread (v : BitVec 8) (sel : BufSel) (n : BitVec 32) (s : State) : Host.Outcome State Fault Refusal :=
  s.onHandle v.toNat fun x =>
    .next ((s.setVoice v.toNat (x.afterReadOf s.cfg sel n.toNat)).ok
      (BitVec.ofNat 32 (min n.toNat (x.usedOf s.cfg sel))) (x.readBeatsOf s.cfg sel n.toNat))

/-- `RBUSED` (R129). -/
def execRbused (v : BitVec 8) (sel : BufSel) (s : State) : Host.Outcome State Fault Refusal :=
  s.onHandle v.toNat fun x => .next (s.ok (BitVec.ofNat 32 (x.usedOf s.cfg sel)) [])

/-- `RBFREE` (R130). -/
def execRbfree (v : BitVec 8) (sel : BufSel) (s : State) : Host.Outcome State Fault Refusal :=
  s.onHandle v.toNat fun x => .next (s.ok (BitVec.ofNat 32 (x.freeOf s.cfg sel)) [])

end Sys2Proof.Machine
end

