-- ==== Sys2Proof/Machine/VoicePipeline.lean ====
section
/-! DEFINITION. The pipeline operations HASSTOR, INGEST, FETCH, HASDEC, PUSH, DECERR (43_voice_pipeline.md). -/
namespace Sys2Proof.Machine

/-- `HASSTOR` (R181). -/
def execHasstor (v : BitVec 8) (s : State) : Host.Outcome State Fault Refusal :=
  s.onHandle v.toNat fun x => .next (s.ok (boolValue ((x.compRing s.cfg).hasSpace s.cfg.blockBytes)) [])

/-- `rem`, the track bytes not yet read from storage (R183). -/
def Voice.unread (x : Voice) : Nat := x.trackSize.toNat - x.bytesRead.toNat

/-- `valid`, the bytes of a block that belong to the track (R183). -/
def Voice.validBytes (c : Config) (x : Voice) : Nat := min c.blockBytes x.unread

/-- The voice after a block is ingested before end of file: the whole block is written (R182), the
valid bytes are counted (R183). -/
def ingestBlock (c : Config) (x : Voice) (block : List Byte) : Voice :=
  let read := x.bytesRead + BitVec.ofNat 32 (x.validBytes c)
  { x.setCompRing ((x.compRing c).write block) with
    bytesRead := read
    flags := { x.flags with endOfFile := x.flags.endOfFile || decide (read = x.trackSize) } }

/-- `INGEST` (R183): after end of file nothing is written and the value is 0. -/
def execIngest (v : BitVec 8) (block : List Byte) (s : State) : Host.Outcome State Fault Refusal :=
  s.onHandle v.toNat fun x =>
    if x.unread = 0 then .next (s.ok 0 [])
    else
      withSpace ((x.compRing s.cfg).hasSpace block.length)
        (.next ((s.setVoice v.toNat (ingestBlock s.cfg x block)).ok
          (BitVec.ofNat 32 (x.validBytes s.cfg)) []))

/-- `remaining`, the track bytes not yet delivered (R186). -/
def Voice.undelivered (x : Voice) : Nat := x.trackSize.toNat - x.bytesDeliv.toNat

/-- `k`, how many bytes a `FETCH` delivers (R186). -/
def fetchCount (c : Config) (x : Voice) (requested : Nat) : Nat :=
  min requested (min x.undelivered (x.compRing c).used)

/-- The voice after `k` bytes are delivered (R186). -/
def fetchBytes (c : Config) (x : Voice) (k : Nat) : Voice :=
  { x.setCompRing ((x.compRing c).afterRead k) with bytesDeliv := x.bytesDeliv + BitVec.ofNat 32 k }

/-- `exhausted`: all bytes of the track are delivered (R186). -/
def Voice.exhausted (x : Voice) : Bool := decide (x.bytesDeliv = x.trackSize)

/-- `FETCH` (R186). -/
def execFetch (v : BitVec 8) (requested : BitVec 32) (s : State) : Host.Outcome State Fault Refusal :=
  s.onHandle v.toNat fun x =>
    let k := fetchCount s.cfg x requested.toNat
    .next ((s.setVoice v.toNat (fetchBytes s.cfg x k)).ok
      (fetchValue (fetchBytes s.cfg x k).exhausted k)
      (((x.compRing s.cfg).readCells k).map byteBeat))

/-- `HASDEC` (R188). -/
def execHasdec (v : BitVec 8) (s : State) : Host.Outcome State Fault Refusal :=
  s.onHandle v.toNat fun x => .next (s.ok (boolValue ((x.pcmRing s.cfg).hasSpace s.cfg.decodeFrame)) [])

/-- `PUSH` (R189). -/
def execPush (v : BitVec 8) (frames : List Frame) (s : State) : Host.Outcome State Fault Refusal :=
  s.onHandle v.toNat fun x =>
    withSpace ((x.pcmRing s.cfg).hasSpace frames.length)
      (.next ((s.setVoice v.toNat (x.setPcmRing ((x.pcmRing s.cfg).write frames))).ok
        (BitVec.ofNat 32 frames.length) []))

/-- The slot after a stream error: finalized, with the sticky flag set (R190, R192). -/
def streamFailed (x : Voice) : Voice :=
  { x.finalize with flags := { x.finalize.flags with streamError := true } }

/-- `DECERR` (R192): performed, and reported by its status. -/
def execDecerr (v : BitVec 8) (s : State) : Host.Outcome State Fault Refusal :=
  s.onHandle v.toNat fun x => .next ((s.setVoice v.toNat (streamFailed x)).error .streamError)

end Sys2Proof.Machine
end

