-- ==== Sys2Proof/Machine/Dispatch.lean ====
section
/-! DEFINITION. One arm per constructor of `Instr`, each one call of the instruction's meaning. -/
namespace Sys2Proof.Machine

def exec (i : Instr) (s : State) : Host.Outcome State Fault Refusal :=
  match i with
  | .reset => Sys2Proof.Machine.execReset s
  | .openVoice gainDb trackSize loop lock => Sys2Proof.Machine.execOpen gainDb trackSize loop lock s
  | .stopv v releaseTicks => Sys2Proof.Machine.execStopv v releaseTicks s
  | .query => Sys2Proof.Machine.execQuery s
  | .storerr => Sys2Proof.Machine.execStorerr s
  | .rdreg v reg => Sys2Proof.Machine.execRdreg v reg s
  | .rbspace v sel n => Sys2Proof.Machine.execRbspace v sel n s
  | .rbwrite v cells => Sys2Proof.Machine.execRbwrite v cells s
  | .rbread v sel n => Sys2Proof.Machine.execRbread v sel n s
  | .rbused v sel => Sys2Proof.Machine.execRbused v sel s
  | .rbfree v sel => Sys2Proof.Machine.execRbfree v sel s
  | .db2idx db => Sys2Proof.Machine.execDb2idx db s
  | .idx2lin index => Sys2Proof.Machine.execIdx2lin index s
  | .fade v targetDb durationTicks soc => Sys2Proof.Machine.execFade v targetDb durationTicks soc s
  | .fstop v => Sys2Proof.Machine.execFstop v s
  | .fsvc v => Sys2Proof.Machine.execFsvc v s
  | .hasstor v => Sys2Proof.Machine.execHasstor v s
  | .ingest v block => Sys2Proof.Machine.execIngest v block s
  | .fetch v requested => Sys2Proof.Machine.execFetch v requested s
  | .hasdec v => Sys2Proof.Machine.execHasdec v s
  | .push v frames => Sys2Proof.Machine.execPush v frames s
  | .decerr v => Sys2Proof.Machine.execDecerr v s
  | .mix => Sys2Proof.Machine.execMix s

end Sys2Proof.Machine
end

