-- ==== Sys2Proof/Machine/Step.lean ====
section
/-! DEFINITION. One step: take the oldest command of the port, decode it, execute it (R70, R90, R97). -/
namespace Sys2Proof.Machine

/-- A command taken off the port is executed, or answered `IllegalCommand` (R97 step 1). -/
def runCommand (cmd : Command) (s : State) : Host.Outcome State Fault Refusal :=
  match decode s.cfg cmd with
  | .ok i => exec i s
  | .error _ => .next s.illegal

/-- One step. An ill-formed configuration has no behaviour (U2, log 5); with no command waiting the
core waits as it is (R290, log 3). -/
def step (s : State) : Host.Outcome State Fault Refusal :=
  if s.cfg.wf then
    match s.fetch with
    | some (cmd, s') => runCommand cmd s'
    | none => .next s
  else .refused .illFormedConfiguration

/-- The state with the command of those bits put in front of the port's queue: the next step runs it. It
stands for an outside agent that issues the command (log 2). -/
def State.withFetchWord (s : State) (nbits w : Nat) : State := s.offer (commandOfBits s.cfg nbits w)

end Sys2Proof.Machine
end

