-- ==== Sys2Proof/WellFormed.lean ====
section
/-! DEFINITION. Which terms of `Instr` stand for a command: the payload lengths of R94. -/
namespace Sys2Proof

/-- The payload length of a command is the one its word gives (R94): the cell counts of `RBWRITE` and
`PUSH` fit the 32-bit operand `b`, an `INGEST` block has exactly BLOCK_BYTES bytes. -/
def Instr.wf (c : Config) : Instr → Bool
  | .rbwrite _ cells => decide (cells.count < 2 ^ 32)
  | .ingest _ block => decide (block.length = c.blockBytes)
  | .push _ frames => decide (frames.length < 2 ^ 32)
  | .reset | .openVoice _ _ _ _ | .stopv _ _ | .query | .storerr | .rdreg _ _ => true
  | .rbspace _ _ _ | .rbread _ _ _ | .rbused _ _ | .rbfree _ _ => true
  | .db2idx _ | .idx2lin _ | .fade _ _ _ _ | .fstop _ | .fsvc _ => true
  | .hasstor _ | .fetch _ _ | .hasdec _ | .decerr _ | .mix => true

end Sys2Proof
end

