-- ==== Sys2Proof/Safety.lean ====
section
/-! DEFINITION. What a safe state and a safe step are, in the terms the statements use: the invariants of R22, R30
and R43, the space-check discipline of R301, and the shapes of an answer. -/
namespace Sys2Proof.Machine

/-! ### Invariants -/

/-- The ranges of R21, R25, R43 for one voice. The last clause keeps a down ramp inside the table
(R166): its accumulator never exceeds the top index. -/
abbrev Voice.InRange (c : Config) (x : Voice) : Prop :=
  (x.compWr.toNat < c.cComp ∧ x.compRd.toNat < c.cComp) ∧
  (x.pcmWr.toNat < c.cPcm ∧ x.pcmRd.toNat < c.cPcm) ∧
  (x.gainIdx.toNat < c.n ∧ x.target.toNat < c.n ∧ x.gainLin.toNat ≤ unity) ∧
  (x.bytesRead.toNat ≤ x.trackSize.toNat ∧ x.bytesDeliv.toNat ≤ x.trackSize.toNat) ∧
  (x.faderCtl.active = true → x.faderCtl.shortFadeMode = 0 → x.faderCtl.up = false →
    x.rampAcc.toNat ≤ (c.n - 1) * 65536)

/-- The lifecycle facts between operations: `state` is 0 or 1 (R22), and an `Available` slot is zero but
for `streamError` (R43), which is what finalize leaves. -/
abbrev Voice.Lifecycle (x : Voice) : Prop :=
  (x.state = .available ∨ x.state = .playing) ∧ (x.state = .available → x = x.finalize)

/-- `shortFadeMode` is never 3 (R28); both short-fade fields are 0 in an Idle fader (R30), the second
one whenever the first is. -/
abbrev Voice.FaderLegal (x : Voice) : Prop :=
  x.faderCtl.shortFadeMode ≠ 3 ∧
  (x.faderCtl.active = false → x.faderCtl.shortFadeMode = 0) ∧
  (x.faderCtl.shortFadeMode = 0 → x.faderCtl.shortFadeCompleted = false)

/-- The two memories of a voice are canonical and lie inside their capacities (R60). -/
abbrev Voice.MemoryOk (c : Config) (x : Voice) : Prop :=
  (Memory.wf x.comp = true ∧ Memory.within c.cComp x.comp = true) ∧
  (Memory.wf x.pcm = true ∧ Memory.within c.cPcm x.pcm = true)

/-- Every memory of the machine is canonical and lies inside its capacity. -/
abbrev State.MemoryOk (s : State) : Prop :=
  (∀ x ∈ s.voices, x.MemoryOk s.cfg) ∧
  (Memory.wf s.acc = true ∧ Memory.within s.cfg.q s.acc = true) ∧
  (Memory.wf s.scr = true ∧ Memory.within s.cfg.q s.scr = true)

/-- The state is one the spec gives a behaviour to: a well-formed configuration (U2), one slot per voice
index (R240), every number in its range (U5, R43). -/
abbrev State.Legal (s : State) : Prop :=
  s.cfg.wf = true ∧ s.voices.length = s.cfg.maxVoices ∧ ∀ x ∈ s.voices, x.InRange s.cfg

/-! ### What a command may rely on -/

/-- Checks (2) and (3) of R97 pass for voice `v`, whose slot is `x`: not halted, `v` a handle (R267). -/
abbrev State.Serves (s : State) (v : BitVec 8) (x : Voice) : Prop :=
  s.halted = false ∧ v.toNat < s.cfg.maxVoices ∧ s.voices[v.toNat]? = some x ∧ x.state ≠ .available

/-- Check (3) of R97 fails: `v` is out of range, or its slot is `Available` (R267). -/
abbrev State.NoHandle (s : State) (v : BitVec 8) : Prop :=
  s.cfg.maxVoices ≤ v.toNat ∨
    ∃ x, s.voices[v.toNat]? = some x ∧ x.state = .available

/-- The voice field of a format-V operation that needs a handle: all of format V but `RDREG` (R92, R267). -/
def handleField : Instr → Option (BitVec 8)
  | .stopv v _ | .rbspace v _ _ | .rbwrite v _ | .rbread v _ _ | .rbused v _ | .rbfree v _ => some v
  | .fade v _ _ _ | .fstop v | .fsvc v | .hasstor v | .ingest v _ | .fetch v _ => some v
  | .hasdec v | .push v _ | .decerr v => some v
  | .reset | .openVoice _ _ _ _ | .query | .storerr | .rdreg _ _ | .db2idx _ | .idx2lin _ | .mix => none

/-- The space-check discipline of R301 for one operation: a write of `n` cells has `n < free`. -/
def SpaceChecked (i : Instr) (s : State) : Prop :=
  match i with
  | .rbwrite v cells => ∀ x, s.voices[v.toNat]? = some x → cells.count < x.freeOf s.cfg cells.sel
  | .ingest v block =>
    ∀ x, s.voices[v.toNat]? = some x → x.unread = 0 ∨ block.length < x.freeOf s.cfg .comp
  | .push v frames => ∀ x, s.voices[v.toNat]? = some x → frames.length < x.freeOf s.cfg .pcm
  | .reset | .openVoice _ _ _ _ | .stopv _ _ | .query | .storerr | .rdreg _ _ | .rbspace _ _ _
  | .rbread _ _ _ | .rbused _ _ | .rbfree _ _ | .db2idx _ | .idx2lin _ | .fade _ _ _ _ | .fstop _
  | .fsvc _ | .hasstor _ | .fetch _ _ | .hasdec _ | .decerr _ | .mix => True

/-- The command about to be taken from the port keeps the discipline of R301. -/
def State.Disciplined (s : State) : Prop :=
  ∀ cmd rest i, s.pending = cmd :: rest → decode s.cfg cmd = .ok i → SpaceChecked i s

/-! ### Answers -/

/-- `s` with only the response replaced: what an operation without a state write leaves (R266). -/
def State.answered (s : State) (st : Status) (value : BitVec 32) (payload : List Beat) : State :=
  { s with response := some ⟨st, value, payload⟩ }

/-- `s` with one slot replaced and the response given. -/
def State.updated (s : State) (v : BitVec 8) (x : Voice) (st : Status) (value : BitVec 32)
    (payload : List Beat) : State :=
  { s with voices := s.voices.set v.toNat x, response := some ⟨st, value, payload⟩ }

/-- What finalize leaves of a slot, written out (R243): zero but for `streamError`. -/
def finalizedSlot (x : Voice) : Voice :=
  { Voice.zero with flags := ⟨false, false, false, false, x.flags.streamError⟩ }

/-- `used(CB(v))` by the formula of R121, on integers. -/
def usedComp (c : Config) (x : Voice) : Int := ((x.compWr.toNat : Int) - x.compRd.toNat) % c.cComp

/-- `used(PB(v))` by the formula of R121, on integers. -/
def usedPcm (c : Config) (x : Voice) : Int := ((x.pcmWr.toNat : Int) - x.pcmRd.toNat) % c.cPcm

/-- The end-of-stream condition of R221: nothing decoded, end of file, no loop. -/
abbrev Voice.AtEnd (c : Config) (x : Voice) : Prop :=
  usedPcm c x = 0 ∧ x.flags.endOfFile = true ∧ x.flags.loop = false

/-- What a mixed voice leaves in its slot: finalized exactly at the end of its stream (R221), and still
Playing, with its flags as they were and `P`, otherwise. -/
def KeptUnlessAtEnd (c : Config) (x : Voice) (slot : Option Voice) (P : Voice → Prop) : Prop :=
  (x.AtEnd c → slot = some (finalizedSlot x)) ∧
  (¬ x.AtEnd c → ∃ y, slot = some y ∧ y.state = .playing ∧ y.flags = x.flags ∧ P y)

/-- Step 2 of `MIX` on a voice that it does not finalize, written out (R208): with a stop pending the gain
index is 0, and the fader Idle where HARD_MUTE_CANCELS_FADER is set. -/
def mutedSlot (c : Config) (x : Voice) : Voice :=
  if x.flags.stopRequested then
    { x with
      gainIdx := 0
      faderCtl :=
        if c.hardMuteCancelsFader then ⟨false, x.faderCtl.stopOnComplete, x.faderCtl.up, 0, false⟩
        else x.faderCtl }
  else x

/-- Frame `k` of the scratch buffer of a voice: its decoded frame, or silence past the frames in use
(R207, R210). -/
def decodedFrame (c : Config) (x : Voice) (k : Nat) : Frame :=
  if (k : Int) < usedPcm c x then Memory.read x.pcm ((x.pcmRd.toNat + k) % c.cPcm) else 0

/-- The memory `m'` is `m` with the cells `src` stored from index `wr` on modulo the capacity, and every
other cell as before (R124). -/
def StoredAt {w : Nat} (cap wr : Nat) (src : List (BitVec w)) (m m' : Memory w) : Prop :=
  (∀ i x, src[i]? = some x → Memory.read m' ((wr + i) % cap) = x) ∧
  (∀ a, (∀ i, i < src.length → a ≠ (wr + i) % cap) → Memory.read m' a = Memory.read m a)

/-! ### Sequences -/

/-- The voice after `k` fader services (R167). -/
def serviceTimes : Nat → Voice → Voice
  | 0, x => x
  | k + 1, x => serviceTimes k (faderService x).1

/-- One use of a ring buffer (R131). -/
inductive RingUse (w : Nat) where
  | write (cells : List (BitVec w))
  | read (n : Nat)
  deriving DecidableEq, Repr

/-- Uses of a ring buffer one after another, each write respecting `n < free` (none otherwise): the ring,
all cells written, all cells returned by the reads (R131). -/
def runRing {w : Nat} :
    List (RingUse w) → RingBuffer w → Option (RingBuffer w × List (BitVec w) × List (BitVec w))
  | [], b => some (b, [], [])
  | .write cells :: rest, b =>
    if cells.length < b.free then
      (runRing rest (b.write cells)).map (fun p => (p.1, cells ++ p.2.1, p.2.2))
    else none
  | .read n :: rest, b =>
    (runRing rest (b.afterRead n)).map (fun p => (p.1, p.2.1, b.readCells n ++ p.2.2))

/-- One use of a voice's compressed stream: a storage block or a decoder request (R187). -/
inductive StreamUse where
  | ingest (block : List Byte)
  | fetch (requested : Nat)
  deriving DecidableEq, Repr

/-- Uses of a voice's compressed stream one after another, as `INGEST` and `FETCH` perform them, each
block of BLOCK_BYTES bytes and within the discipline of R301 (none otherwise): the voice, the bytes of
the blocks written, the bytes delivered (R187). -/
def runStream (c : Config) : List StreamUse → Voice → Option (Voice × List Byte × List Byte)
  | [], x => some (x, [], [])
  | .ingest block :: rest, x =>
    if x.unread = 0 then runStream c rest x
    else if block.length = c.blockBytes ∧ block.length < (x.compRing c).free then
      (runStream c rest (ingestBlock c x block)).map (fun p => (p.1, block ++ p.2.1, p.2.2))
    else none
  | .fetch requested :: rest, x =>
    let k := fetchCount c x requested
    (runStream c rest (fetchBytes c x k)).map
      (fun p => (p.1, p.2.1, (x.compRing c).readCells k ++ p.2.2))

/-! ### Mixing one voice alone, and views that drop a field -/

/-- What one voice gives the quantum when it is mixed alone into a cleared accumulator (R75, R206). -/
def mixAlone (c : Config) (x : Voice) : Option (Voice × MixRun) :=
  mixVoice c x ⟨List.replicate c.q 0, [], 0, 0, 0⟩

/-- The voices alone, none where one of them faults. -/
def mixAllAlone (c : Config) : List Voice → Option (List (Voice × MixRun))
  | [] => some []
  | x :: xs =>
    match mixAlone c x, mixAllAlone c xs with
    | some p, some ps => some (p :: ps)
    | _, _ => none

/-- The saturating chain of one channel over the voices in ascending index (R217, R218). -/
def saturatingChain (samples : List Int) : Int := samples.foldl (fun a x => sat16 (a + x)) 0

/-- A voice with its `lock` flag cleared. -/
def Voice.dropLock (x : Voice) : Voice := { x with flags := { x.flags with lock := false } }

/-- A state with every `lock` flag cleared. -/
def State.dropLock (s : State) : State := { s with voices := s.voices.map Voice.dropLock }

/-- An outcome with every `lock` flag cleared. -/
def dropLockOutcome : Host.Outcome State Fault Refusal → Host.Outcome State Fault Refusal
  | .next s => .next s.dropLock
  | .fault f => .fault f
  | .refused r => .refused r

end Sys2Proof.Machine
end

