-- ==== Sys2Proof/Certificates/Slice0/Obligations.lean ====
section
/-! DEFINITION. The statements about the mix core, family by family; OBLIGATIONS.json lists them. -/

open Sys2Proof Sys2Proof.Machine

/-! ### Commands, encodings, responses -/

/-- Decode and encode agree (R91, R94, R95, R96): the command the encoder writes for a well-formed
instruction decodes to that instruction, every operand and payload cell at every value. -/
def Obligations.DecodeOfEncodeIsTheInstruction : Prop :=
  ∀ (c : Config) (i : Instr), i.wf c = true → decode c (encode i) = .ok i

/-- The other direction: a command that decodes is the encoding of what it decodes to, so every word has
one meaning and no accepted bit is dropped (R92, R95, R98). For the byte payloads of `RBWRITE` and `INGEST`
this holds by THE MODEL'S CHOICE of log 7 (DEDUCED, unsafe): a byte beat with a nonzero bit in 31:8 is made
illegal, which R98 does not list. -/
def Obligations.EncodeOfDecodeIsTheCommand : Prop :=
  ∀ (c : Config) (cmd : Command) (i : Instr),
    decode c cmd = .ok i → encode i = cmd ∧ i.wf c = true

/-- "No two rows match the same word" (R95). -/
def Obligations.NoTwoRowsMatchTheSameWord : Prop :=
  ∀ (cw : CmdWord) (r r' : Row), r ∈ opcodeTable → r' ∈ opcodeTable →
    cw &&& r.mask = r.pattern → cw &&& r'.mask = r'.pattern → r = r'

/-- The worked encoding examples of R105: the four commands decode to the operations written there, and
the two responses have the words written there. -/
def Obligations.WorkedEncodingExamples : Prop :=
  decode Config.tiny ⟨0x0201FFFA000003E8, []⟩ = .ok (.openVoice (-6) 1000 true false) ∧
  decode Config.tiny ⟨0x3003FFB000010064, []⟩ = .ok (.fade 3 (-80) 100 true) ∧
  decode Config.tiny ⟨0x1100000100000002, [0xFFFF0001, 0xFFFE0002]⟩
    = .ok (.rbwrite 0 (.pcm [mkFrame 1 (-1), mkFrame 2 (-2)])) ∧
  decode Config.tiny ⟨0x5000000000000000, []⟩ = .ok .mix ∧
  Response.word ⟨.ok, 5, []⟩ = 0x0000000000000005 ∧
  Response.word ⟨.badIndex, 0, []⟩ = 0x0100000000000000

/-- The response word (R99) with the codes of R100: status in 63:56, zero in 55:32, value in 31:0. -/
def Obligations.ResponseWordLayout : Prop :=
  (∀ r : Response, r.word.extractLsb' 56 8 = r.status.code ∧ r.word.extractLsb' 32 24 = 0 ∧
    r.word.extractLsb' 0 32 = r.value) ∧
  Status.code .ok = 0x00 ∧ Status.code .badIndex = 0x01 ∧ Status.code .streamError = 0x02 ∧
  Status.code .bufferUnderrun = 0x03 ∧ Status.code .storageError = 0x04 ∧
  Status.code .noFreeVoice = 0x05 ∧ Status.code .illegalCommand = 0x07

/-- A step takes the oldest command off the port and executes the instruction it decodes to (R70, R90,
R97); what the step adds around `exec` is that the command is gone from the port. -/
def Obligations.StepRunsTheDecodedInstruction : Prop :=
  ∀ (s : State) (cmd : Command) (rest : List Command) (i : Instr),
    s.cfg.wf = true → s.pending = cmd :: rest → decode s.cfg cmd = .ok i →
      step s = exec i { s with pending := rest }

/-- R98: a word that matches no row, a payload of the wrong length, and an unassigned `RDREG` register number
answer `IllegalCommand`, value 0, no payload, and change no state (the command is gone from the port). -/
def Obligations.IllegalCommandsChangeNoState : Prop :=
  (∀ (s : State) (cmd : Command) (rest : List Command),
    s.cfg.wf = true → s.pending = cmd :: rest →
    (∀ r ∈ opcodeTable, cmd.cw &&& r.mask ≠ r.pattern) →
      step s = .next (({ s with pending := rest } : State).answered .illegalCommand 0 [])) ∧
  (∀ (s : State) (cmd : Command) (rest : List Command) (r : Row),
    s.cfg.wf = true → s.pending = cmd :: rest →
    r ∈ opcodeTable → cmd.cw &&& r.mask = r.pattern →
    cmd.payload.length ≠ payloadLength s.cfg r.op cmd.cw →
      step s = .next (({ s with pending := rest } : State).answered .illegalCommand 0 [])) ∧
  (∀ (s : State) (v : BitVec 8) (reg : BitVec 16),
    16 < reg.toNat → reg ≠ 0x80 → reg ≠ 0x81 → (reg.toNat < 0x90 ∨ 0x99 < reg.toNat) →
      exec (.rdreg v reg) s = .next (s.answered .illegalCommand 0 []))

/-! ### Reset and invariants -/

/-- R241, R42 and R242: `RESET`, halted or not, leaves the reset state of the configuration and answers `OK`; in it
every register of every slot is 0, every slot `Available`, every memory cell 0, and `ROM` is the
configured table; hardware reset leaves the same. That the commands waiting on the port stay is THE
MODEL'S CHOICE (log 2, unsafe for a claim across a `RESET`); no rule says it. -/
def Obligations.ResetLeavesTheResetState : Prop :=
  (∀ s : State, exec .reset s =
    .next { State.resetOf s.cfg with pending := s.pending, response := some ⟨.ok, 0, []⟩ }) ∧
  (∀ c : Config, (State.resetOf c).cfg.gainRom = c.gainRom ∧
    (State.resetOf c).voices.length = c.maxVoices ∧
    (State.resetOf c).halted = false ∧ (State.resetOf c).quantumCounter = 0 ∧
    (∀ k, Memory.read (State.resetOf c).acc k = 0 ∧ Memory.read (State.resetOf c).scr k = 0) ∧
    ∀ x ∈ (State.resetOf c).voices, x.state = .available ∧
      (∀ reg, reg ≤ 16 → (voiceRegisters x)[reg]? = some 0) ∧
      ∀ k, Memory.read x.comp k = 0 ∧ Memory.read x.pcm k = 0) ∧
  State.reset = State.resetOf State.reset.cfg

/-- The invariants hold in the reset state of every well-formed configuration, and in `State.reset`, whose
DEFAULT configuration (THE MODEL'S CHOICE, log 1) is well formed. -/
def Obligations.ResetMeetsTheInvariants : Prop :=
  (∀ c : Config, c.wf = true → (State.resetOf c).Legal ∧ (State.resetOf c).MemoryOk ∧
    ∀ x ∈ (State.resetOf c).voices, x.Lifecycle ∧ x.FaderLegal) ∧
  State.reset.cfg.wf = true

/-- R43, R25, R21: every number of a voice stays in its range, and there stays one slot per index. -/
def Obligations.StepKeepsEveryRegisterInRange : Prop :=
  ∀ s t : State, s.Legal → step s = .next t → t.Legal

/-- Every memory stays inside its capacity (R60, R64) and in its canonical form. The canonical form, rising
indices and no zero cell, is THE MODEL'S CHOICE of a representation (log 8, DEDUCED); no rule says it. -/
def Obligations.StepKeepsMemoriesCanonical : Prop :=
  ∀ s t : State, s.MemoryOk → step s = .next t → t.MemoryOk

/-- R22 and R43: between operations `state` is `Available` or `Playing`, and an `Available` slot is zero but for
`streamError`. -/
def Obligations.StepKeepsTheVoiceLifecycle : Prop :=
  ∀ s t : State, (∀ x ∈ s.voices, x.Lifecycle) → step s = .next t → ∀ x ∈ t.voices, x.Lifecycle

/-- R30: `shortFadeMode` and `shortFadeCompleted` stay 0 in an Idle fader, and mode 3 never appears (R28). -/
def Obligations.StepKeepsFadersLegal : Prop :=
  ∀ s t : State, (∀ x ∈ s.voices, x.FaderLegal) → step s = .next t → ∀ x ∈ t.voices, x.FaderLegal

/-- R74, R291: no step changes the configuration, so `ROM` is immutable. -/
def Obligations.NoStepChangesTheGainTable : Prop :=
  ∀ s t : State, step s = .next t → t.cfg = s.cfg

/-- From every legal state, a command that keeps the space-check discipline (R301) completes: no other
discipline can stop the machine (R271, R300). -/
def Obligations.DisciplinedStepsComplete : Prop :=
  ∀ s : State, s.Legal → s.Disciplined → ∃ t, step s = .next t

/-! ### Errors and the halted condition -/

/-- R266: an operation that answers `BadIndex`, `NoFreeVoice`, `IllegalCommand`, or `StorageError` because the
core is halted writes no state; the two statuses that come with a state change are the reports
`DECERR` and `STORERR`. -/
def Obligations.ErrorAnswersWriteNoState : Prop :=
  ∀ (i : Instr) (s t : State) (r : Response), exec i s = .next t → t.response = some r →
    ((r.status = .badIndex ∨ r.status = .noFreeVoice ∨ r.status = .illegalCommand ∨
      (r.status = .storageError ∧ s.halted = true)) → t = s.answered r.status 0 []) ∧
    (r.status = .streamError → ∃ v, i = .decerr v) ∧
    (r.status = .storageError → s.halted = false → i = .storerr)

/-- R272, R273, R258: `STORERR` enters the halted condition and changes nothing else; while halted every
operation but `RESET` and `RDREG` answers `StorageError` and changes no state; `RESET` alone leaves it;
no other operation enters it. -/
def Obligations.HaltedUntilReset : Prop :=
  (∀ s : State, s.halted = false →
    exec .storerr s = .next { s with halted := true, response := some ⟨.storageError, 0, []⟩ }) ∧
  (∀ (i : Instr) (s : State), s.halted = true → i ≠ .reset → (∀ v reg, i ≠ .rdreg v reg) →
    exec i s = .next (s.answered .storageError 0 [])) ∧
  (∀ (i : Instr) (s t : State), s.halted = true → exec i s = .next t → t.halted = false → i = .reset) ∧
  (∀ (i : Instr) (s t : State), s.halted = false → exec i s = .next t → t.halted = true → i = .storerr)

/-- R268, R269: which operations can answer which status; `BufferUnderrun` is answered by none. -/
def Obligations.StatusesBelongToTheirOperations : Prop :=
  ∀ (i : Instr) (s t : State), exec i s = .next t → ∃ r, t.response = some r ∧
    r.status ≠ .bufferUnderrun ∧
    (r.status = .badIndex →
      (handleField i).isSome = true ∨ ∃ v reg, i = .rdreg v reg ∧ reg.toNat ≤ 16) ∧
    (r.status = .noFreeVoice → ∃ db size loop lock, i = .openVoice db size loop lock) ∧
    (r.status = .streamError → ∃ v, i = .decerr v) ∧
    (r.status = .storageError → i ≠ .reset ∧ ∀ v reg, i ≠ .rdreg v reg) ∧
    (r.status = .illegalCommand → ∃ v reg, i = .rdreg v reg)

/-- R267: every format-V operation but `RDREG` answers `BadIndex` and changes nothing when `v` is no handle. -/
def Obligations.NonHandlesAreBadIndex : Prop :=
  ∀ (i : Instr) (v : BitVec 8) (s : State), s.halted = false → handleField i = some v →
    s.NoHandle v → exec i s = .next (s.answered .badIndex 0 [])

/-- U1, R124: a ring-buffer write of `n` cells with `n >= free` has no defined result and is refused; so
are a `PUSH` and an `INGEST` before end of file. -/
def Obligations.WritesWithoutSpaceAreRefused : Prop :=
  ∀ (s : State) (v : BitVec 8) (x : Voice), s.Serves v x →
    (∀ cells : Cells, x.freeOf s.cfg cells.sel ≤ cells.count →
      exec (.rbwrite v cells) s = .refused .writeWithoutSpace) ∧
    (∀ frames : List Frame, x.freeOf s.cfg .pcm ≤ frames.length →
      exec (.push v frames) s = .refused .writeWithoutSpace) ∧
    (∀ block : List Byte, x.bytesRead.toNat < x.trackSize.toNat →
      x.freeOf s.cfg .comp ≤ block.length →
      exec (.ingest v block) s = .refused .writeWithoutSpace)

/-! ### Frames over the whole machine -/

/-- R75, R283: an operation that names voice `v` leaves every other slot, `ACC`, `SCR`, `halted`, the quantum
counter, the configuration and the commands waiting as they were. -/
def Obligations.VoiceOperationsTouchOneVoice : Prop :=
  ∀ (i : Instr) (v : BitVec 8) (s t : State), handleField i = some v → exec i s = .next t →
    (∀ w, w ≠ v.toNat → t.voices[w]? = s.voices[w]?) ∧ t.voices.length = s.voices.length ∧
    t.acc = s.acc ∧ t.scr = s.scr ∧ t.halted = s.halted ∧ t.quantumCounter = s.quantumCounter ∧
    t.cfg = s.cfg ∧ t.pending = s.pending

/-- R33, R36, R60: the quantum counter counts the `MIX` operations performed, modulo 2^32, and `RESET` clears
it; `ACC` and `SCR` are written by `MIX` and `RESET` alone. -/
def Obligations.QuantumCounterCountsMixes : Prop :=
  ∀ (i : Instr) (s t : State), exec i s = .next t →
    (i = .mix → s.halted = false → t.quantumCounter = s.quantumCounter + 1) ∧
    (i = .reset → t.quantumCounter = 0) ∧
    (i ≠ .mix → i ≠ .reset →
      t.quantumCounter = s.quantumCounter ∧ t.acc = s.acc ∧ t.scr = s.scr)

/-- R25, R276: while a slot stays allocated, its byte counters never decrease and stay bounded by the
track size, `bytesRead` is advanced by `INGEST` only and `bytesDeliv` by `FETCH` only; the frame counter
never decreases; a pending stop and the end of file are not withdrawn; the fields of `OPEN` stay. -/
def Obligations.VoiceCountersOnlyIncrease : Prop :=
  ∀ (i : Instr) (s t : State) (v : Nat) (x y : Voice), s.Legal → exec i s = .next t → i ≠ .reset →
    s.voices[v]? = some x → t.voices[v]? = some y → x.state ≠ .available → y.state ≠ .available →
    (x.bytesRead.toNat ≤ y.bytesRead.toNat ∧ y.bytesRead.toNat ≤ y.trackSize.toNat) ∧
    (x.bytesDeliv.toNat ≤ y.bytesDeliv.toNat ∧ y.bytesDeliv.toNat ≤ y.trackSize.toNat) ∧
    ((∀ w block, i ≠ .ingest w block) → y.bytesRead = x.bytesRead) ∧
    ((∀ w n, i ≠ .fetch w n) → y.bytesDeliv = x.bytesDeliv) ∧
    x.framesPlayed.toNat ≤ y.framesPlayed.toNat ∧
    (x.flags.stopRequested = true → y.flags.stopRequested = true) ∧
    (x.flags.endOfFile = true → y.flags.endOfFile = true) ∧
    y.flags.loop = x.flags.loop ∧ y.flags.lock = x.flags.lock ∧
    y.trackSize = x.trackSize ∧ y.triggerTs = x.triggerTs

/-- R280: `lock` has no effect: two states that differ only in `lock` flags give, under every operation but
an `RDREG` of the flags register itself, outcomes that differ only in `lock` flags, the same response among them; and the
operand `lock` of `OPEN` changes nothing but that flag. -/
def Obligations.LockHasNoEffect : Prop :=
  (∀ (i : Instr) (s s' : State), (∀ v, i ≠ .rdreg v 1) → s.dropLock = s'.dropLock →
    dropLockOutcome (exec i s) = dropLockOutcome (exec i s')) ∧
  (∀ (s : State) (db : BitVec 16) (size : BitVec 32) (loop lock lock' : Bool),
    dropLockOutcome (exec (.openVoice db size loop lock) s) =
      dropLockOutcome (exec (.openVoice db size loop lock') s))

/-! ### Control plane -/

/-- R244, R245: `OPEN` takes the lowest-numbered `Available` slot and writes exactly the slot R245 gives; with
no such slot it answers `NoFreeVoice` and changes nothing. -/
def Obligations.OpenTakesTheLowestFreeSlot : Prop :=
  ∀ (s : State) (db : BitVec 16) (size : BitVec 32) (loop lock : Bool),
    s.cfg.wf = true → s.halted = false →
    (∀ (v : Nat) (x : Voice), s.voices[v]? = some x → x.state = .available →
      (∀ w y, w < v → s.voices[w]? = some y → y.state ≠ .available) →
      ∃ lin, s.cfg.gainRom[dbToIndex s.cfg db.toInt]? = some lin ∧
        exec (.openVoice db size loop lock) s = .next
          { s with
            voices := s.voices.set v
              { Voice.zero with
                state := .playing
                flags := ⟨loop, lock, false, decide (size = 0), false⟩
                trackSize := size
                gainIdx := BitVec.ofNat 16 (dbToIndex s.cfg db.toInt)
                gainLin := BitVec.ofNat 32 lin
                triggerTs := s.quantumCounter }
            response := some ⟨.ok, BitVec.ofNat 32 v, []⟩ }) ∧
    ((∀ x ∈ s.voices, x.state ≠ .available) →
      exec (.openVoice db size loop lock) s = .next (s.answered .noFreeVoice 0 []))

/-- R251, R104: `STOPV` with release 0, or on a voice at the silence index, sets `stopRequested` and nothing
else; otherwise it is performed as `FADE v, MIN_DB, releaseTicks, 1`. -/
def Obligations.StopvArmsTheStop : Prop :=
  ∀ (s : State) (v : BitVec 8) (x : Voice) (ticks : BitVec 16), s.cfg.wf = true → s.Serves v x →
    ((ticks = 0 ∨ x.gainIdx = 0) →
      exec (.stopv v ticks) s = .next
        (s.updated v { x with flags := { x.flags with stopRequested := true } } .ok 0 [])) ∧
    (ticks ≠ 0 → x.gainIdx ≠ 0 →
      ∃ t, exec (.stopv v ticks) s = .next t ∧
        exec (.fade v (BitVec.ofInt 16 s.cfg.minDb) ticks true) s = .next t)

/-- R255: `QUERY` answers how many slots are Playing or Paused, or `StorageError` when halted, and changes
nothing. -/
def Obligations.QueryCountsAllocatedVoices : Prop :=
  ∀ s : State,
    (s.halted = false → exec .query s = .next (s.answered .ok
      (BitVec.ofNat 32 (s.voices.filter
        (fun x => decide (x.state = .playing ∨ x.state = .paused))).length) [])) ∧
    (s.halted = true → exec .query s = .next (s.answered .storageError 0 []))

/-- R262 with the register numbers of R21, R33 and R34: `RDREG` reads each register without side effect, a
voice register of any slot in range, halted or not; a voice register of a voice out of range answers
`BadIndex`, any other register number `IllegalCommand`. The last three
clauses say how `state`, `flags` and `faderCtl` are numbered (R22, R23, R28). -/
def Obligations.RdregReadsTheRegisterMap : Prop :=
  (∀ (s : State) (v : BitVec 8) (x : Voice), v.toNat < s.cfg.maxVoices →
    s.voices[v.toNat]? = some x →
    exec (.rdreg v 0) s = .next (s.answered .ok x.state.code []) ∧
    exec (.rdreg v 1) s = .next (s.answered .ok x.flags.word []) ∧
    exec (.rdreg v 2) s = .next (s.answered .ok x.compWr []) ∧
    exec (.rdreg v 3) s = .next (s.answered .ok x.compRd []) ∧
    exec (.rdreg v 4) s = .next (s.answered .ok x.pcmWr []) ∧
    exec (.rdreg v 5) s = .next (s.answered .ok x.pcmRd []) ∧
    exec (.rdreg v 6) s = .next (s.answered .ok x.bytesRead []) ∧
    exec (.rdreg v 7) s = .next (s.answered .ok x.bytesDeliv []) ∧
    exec (.rdreg v 8) s = .next (s.answered .ok x.framesPlayed []) ∧
    exec (.rdreg v 9) s = .next (s.answered .ok (x.gainIdx.setWidth 32) []) ∧
    exec (.rdreg v 10) s = .next (s.answered .ok x.gainLin []) ∧
    exec (.rdreg v 11) s = .next (s.answered .ok x.faderCtl.word []) ∧
    exec (.rdreg v 12) s = .next (s.answered .ok (x.target.setWidth 32) []) ∧
    exec (.rdreg v 13) s = .next (s.answered .ok x.rampDelta []) ∧
    exec (.rdreg v 14) s = .next (s.answered .ok x.rampAcc []) ∧
    exec (.rdreg v 15) s = .next (s.answered .ok x.trackSize []) ∧
    exec (.rdreg v 16) s = .next (s.answered .ok x.triggerTs [])) ∧
  (∀ (s : State) (v : BitVec 8) (reg : BitVec 16), reg.toNat ≤ 16 → s.cfg.maxVoices ≤ v.toNat →
    exec (.rdreg v reg) s = .next (s.answered .badIndex 0 [])) ∧
  (∀ (s : State) (v : BitVec 8),
    exec (.rdreg v 0x80) s = .next (s.answered .ok (if s.halted then 1 else 0) []) ∧
    exec (.rdreg v 0x81) s = .next (s.answered .ok s.quantumCounter []) ∧
    exec (.rdreg v 0x90) s = .next (s.answered .ok (BitVec.ofNat 32 s.cfg.maxVoices) []) ∧
    exec (.rdreg v 0x91) s = .next (s.answered .ok (BitVec.ofNat 32 s.cfg.q) []) ∧
    exec (.rdreg v 0x92) s = .next (s.answered .ok (BitVec.ofNat 32 s.cfg.n) []) ∧
    exec (.rdreg v 0x93) s = .next (s.answered .ok (BitVec.ofNat 32 s.cfg.cComp) []) ∧
    exec (.rdreg v 0x94) s = .next (s.answered .ok (BitVec.ofNat 32 s.cfg.cPcm) []) ∧
    exec (.rdreg v 0x95) s = .next (s.answered .ok (BitVec.ofNat 32 s.cfg.blockBytes) []) ∧
    exec (.rdreg v 0x96) s = .next (s.answered .ok (BitVec.ofNat 32 s.cfg.decodeFrame) []) ∧
    exec (.rdreg v 0x97) s = .next (s.answered .ok (BitVec.ofInt 32 s.cfg.minDb) []) ∧
    exec (.rdreg v 0x98) s = .next (s.answered .ok (BitVec.ofNat 32 s.cfg.z) []) ∧
    exec (.rdreg v 0x99) s =
      .next (s.answered .ok (if s.cfg.hardMuteCancelsFader then 1 else 0) [])) ∧
  (∀ (s : State) (v : BitVec 8) (reg : BitVec 16),
    16 < reg.toNat → reg ≠ 0x80 → reg ≠ 0x81 → (reg.toNat < 0x90 ∨ 0x99 < reg.toNat) →
      exec (.rdreg v reg) s = .next (s.answered .illegalCommand 0 [])) ∧
  (VoiceState.code .available = 0 ∧ VoiceState.code .playing = 1 ∧ VoiceState.code .paused = 2 ∧
    VoiceState.code .stopped = 3) ∧
  (∀ f : VoiceFlags, f.word.getLsbD 0 = f.loop ∧ f.word.getLsbD 1 = f.lock ∧
    f.word.getLsbD 2 = f.stopRequested ∧ f.word.getLsbD 3 = f.endOfFile ∧
    f.word.getLsbD 4 = f.streamError ∧ f.word.toNat < 2 ^ 5) ∧
  (∀ f : FaderCtl, f.word.getLsbD 0 = f.active ∧ f.word.getLsbD 1 = f.stopOnComplete ∧
    f.word.getLsbD 2 = f.up ∧ f.word.extractLsb' 3 2 = f.shortFadeMode ∧
    f.word.getLsbD 5 = f.shortFadeCompleted ∧ f.word.toNat < 2 ^ 6)

/-! ### Ring buffers -/

/-- R126, R129, R130, R181, R188 with the formulas of R121 and R122: the queries answer the used space
`(wr - rd) mod C`, the free space `C - used`, and whether the free space exceeds a count; they write
no state. -/
def Obligations.SpaceQueriesAnswerTheCursorDifference : Prop :=
  ∀ (s : State) (v : BitVec 8) (x : Voice) (n : BitVec 32), s.cfg.wf = true → s.Serves v x →
    exec (.rbused v .comp) s = .next (s.answered .ok (BitVec.ofInt 32 (usedComp s.cfg x)) []) ∧
    exec (.rbused v .pcm) s = .next (s.answered .ok (BitVec.ofInt 32 (usedPcm s.cfg x)) []) ∧
    exec (.rbfree v .comp) s =
      .next (s.answered .ok (BitVec.ofInt 32 (s.cfg.cComp - usedComp s.cfg x)) []) ∧
    exec (.rbfree v .pcm) s =
      .next (s.answered .ok (BitVec.ofInt 32 (s.cfg.cPcm - usedPcm s.cfg x)) []) ∧
    exec (.rbspace v .comp n) s =
      .next (s.answered .ok (if (s.cfg.cComp : Int) - usedComp s.cfg x > n.toNat then 1 else 0) []) ∧
    exec (.rbspace v .pcm n) s =
      .next (s.answered .ok (if (s.cfg.cPcm : Int) - usedPcm s.cfg x > n.toNat then 1 else 0) []) ∧
    exec (.hasstor v) s =
      .next (s.answered .ok
        (if (s.cfg.cComp : Int) - usedComp s.cfg x > s.cfg.blockBytes then 1 else 0) []) ∧
    exec (.hasdec v) s =
      .next (s.answered .ok
        (if (s.cfg.cPcm : Int) - usedPcm s.cfg x > s.cfg.decodeFrame then 1 else 0) [])

/-- R124, R127: `RBWRITE` of `n < free` cells stores the cells from the write cursor on, modulo the capacity,
advances the write cursor by `n`, answers `n`, and changes no other cell and no other register. -/
def Obligations.RbwriteStoresTheCells : Prop :=
  ∀ (s : State) (v : BitVec 8) (x : Voice), s.cfg.wf = true → s.MemoryOk → s.Serves v x →
    (∀ bytes : List Byte, (bytes.length : Int) < s.cfg.cComp - usedComp s.cfg x →
      ∃ m, StoredAt s.cfg.cComp x.compWr.toNat bytes x.comp m ∧
        exec (.rbwrite v (.comp bytes)) s = .next (s.updated v
          { x with
            comp := m
            compWr := BitVec.ofNat 32 ((x.compWr.toNat + bytes.length) % s.cfg.cComp) }
          .ok (BitVec.ofNat 32 bytes.length) [])) ∧
    (∀ frames : List Frame, (frames.length : Int) < s.cfg.cPcm - usedPcm s.cfg x →
      ∃ m, StoredAt s.cfg.cPcm x.pcmWr.toNat frames x.pcm m ∧
        exec (.rbwrite v (.pcm frames)) s = .next (s.updated v
          { x with
            pcm := m
            pcmWr := BitVec.ofNat 32 ((x.pcmWr.toNat + frames.length) % s.cfg.cPcm) }
          .ok (BitVec.ofNat 32 frames.length) []))

/-- R125, R128: `RBREAD` returns the `min(n, used)` oldest cells in order, advances the read cursor past them,
and changes no cell and no other register. -/
def Obligations.RbreadReturnsTheOldestCells : Prop :=
  ∀ (s : State) (v : BitVec 8) (x : Voice) (n : BitVec 32), s.cfg.wf = true → s.Serves v x →
    (∀ k : Nat, (k : Int) = min (n.toNat : Int) (usedComp s.cfg x) →
      exec (.rbread v .comp n) s = .next (s.updated v
        { x with compRd := BitVec.ofNat 32 ((x.compRd.toNat + k) % s.cfg.cComp) }
        .ok (BitVec.ofNat 32 k)
        ((List.range k).map (fun i =>
          (Memory.read x.comp ((x.compRd.toNat + i) % s.cfg.cComp)).setWidth 32)))) ∧
    (∀ k : Nat, (k : Int) = min (n.toNat : Int) (usedPcm s.cfg x) →
      exec (.rbread v .pcm n) s = .next (s.updated v
        { x with pcmRd := BitVec.ofNat 32 ((x.pcmRd.toNat + k) % s.cfg.cPcm) }
        .ok (BitVec.ofNat 32 k)
        ((List.range k).map (fun i =>
          Memory.read x.pcm ((x.pcmRd.toNat + i) % s.cfg.cPcm)))))

/-- R123: a write made when the space check holds leaves at most `C - 1` cells used, exactly `n` more than
before, so the write cursor does not reach the read cursor; and the unread cells are still there, in order. -/
def Obligations.CheckedWritesNeverFillTheRing : Prop :=
  ∀ (w : Nat) (b : RingBuffer w) (src : List (BitVec w)), Memory.wf b.mem = true → b.rd < b.cap →
    b.wr < b.cap → b.hasSpace src.length = true →
    b.used + src.length ≤ b.cap - 1 ∧ (b.write src).used = b.used + src.length ∧
    (b.write src).rd = b.rd ∧ (src ≠ [] → (b.write src).wr ≠ b.rd) ∧
    (b.write src).peek b.used = b.peek b.used

/-- R131: from an empty ring, under the space-check discipline, what the reads return is a prefix of what was
written, the used space is the rest, and it never reaches the capacity. -/
def Obligations.RingIsAFifo : Prop :=
  ∀ (w : Nat) (b b' : RingBuffer w) (uses : List (RingUse w)) (written returned : List (BitVec w)),
    Memory.wf b.mem = true → b.wr = b.rd → b.rd < b.cap → runRing uses b = some (b', written, returned) →
    returned <+: written ∧ b'.used = written.length - returned.length ∧ b'.used ≤ b.cap - 1 ∧
    b'.readCells b'.used = written.drop returned.length

/-! ### Gain table -/

/-- R145, R146: the index of a decibel value is `(db - MIN_DB) * 2` of the value clamped to [MIN_DB, MAX_DB];
it is even and in [0, N-1], 0 for MIN_DB and N-1 for MAX_DB; `DB2IDX` answers it and writes no state. -/
def Obligations.Db2idxAnswersTheClampedIndex : Prop :=
  ∀ s : State, s.cfg.wf = true →
    (∀ db : Int,
      (dbToIndex s.cfg db : Int) = (max s.cfg.minDb (min maxDb db) - s.cfg.minDb) * 2 ∧
      dbToIndex s.cfg db ≤ s.cfg.n - 1 ∧ dbToIndex s.cfg db % 2 = 0) ∧
    dbToIndex s.cfg s.cfg.minDb = 0 ∧ dbToIndex s.cfg maxDb = s.cfg.n - 1 ∧
    (∀ db : BitVec 16, s.halted = false →
      exec (.db2idx db) s = .next (s.answered .ok (BitVec.ofNat 32 (dbToIndex s.cfg db.toInt)) []))

/-- R147, R148: `IDX2LIN` answers the table entry of the index, an index above N-1 clamped to N-1; an amplitude
is at most unity (R141 b); no state is written. -/
def Obligations.Idx2linReadsTheTable : Prop :=
  ∀ (s : State) (index : BitVec 32), s.cfg.wf = true → s.halted = false →
    ∃ lin, s.cfg.gainRom[min index.toNat (s.cfg.n - 1)]? = some lin ∧ lin ≤ unity ∧
      exec (.idx2lin index) s = .next (s.answered .ok (BitVec.ofNat 32 lin) [])

/-- R149 (R141 c and e, R145): the table lookup never decreases with the index over the whole table, `dbToIndex`
maps MIN_DB to 0 and MAX_DB to N-1, the indices below the floor Z map to exact zero, and so the amplitude
never decreases with the decibel value. -/
def Obligations.GainIsMonotoneInDecibels : Prop :=
  ∀ c : Config, c.wf = true →
    (∀ i j : Nat, i ≤ j → j < c.n → ∃ gi gj, indexToLinear c i = some gi ∧ indexToLinear c j = some gj ∧
      gi ≤ gj) ∧
    dbToIndex c c.minDb = 0 ∧ dbToIndex c maxDb = c.n - 1 ∧
    (∀ i : Nat, i < c.z → indexToLinear c i = some 0) ∧
    (∀ x y : Int, x ≤ y → ∃ gx gy, indexToLinear c (dbToIndex c x) = some gx ∧
      indexToLinear c (dbToIndex c y) = some gy ∧ gx ≤ gy)

/-! ### Fader -/

/-- R156 to R159: `FADE` clamps a duration of 0 to 1; a duration below 3 enters ShortFading; a longer one to
the current index writes nothing; any other enters Ramping with the `rampDelta` and `rampAcc` of R158.
Nothing else changes. -/
def Obligations.FadeEntersTheFadeItNames : Prop :=
  ∀ (s : State) (v : BitVec 8) (x : Voice) (db ticks : BitVec 16) (soc : Bool) (dur t : Nat),
    s.Serves v x → dur = max 1 ticks.toNat → t = dbToIndex s.cfg db.toInt →
    (dur < 3 →
      exec (.fade v db ticks soc) s = .next (s.updated v
        { x with
          faderCtl := ⟨true, soc, x.faderCtl.up, BitVec.ofNat 2 dur, false⟩
          target := BitVec.ofNat 16 t } .ok 0 [])) ∧
    (3 ≤ dur → t = x.gainIdx.toNat →
      exec (.fade v db ticks soc) s = .next (s.updated v x .ok 0 [])) ∧
    (3 ≤ dur → t ≠ x.gainIdx.toNat →
      exec (.fade v db ticks soc) s = .next (s.updated v
        { x with
          faderCtl := ⟨true, soc, decide (x.gainIdx.toNat < t), 0, false⟩
          target := BitVec.ofNat 16 t
          rampDelta := BitVec.ofInt 32 ((|(t : Int) - x.gainIdx.toNat| * 65536 * 3) / dur)
          rampAcc := BitVec.ofNat 32 (x.gainIdx.toNat * 65536) } .ok 0 []))

/-- R160, R161: `FSTOP` clears `active`, `shortFadeMode` and `shortFadeCompleted`, and nothing else changes. -/
def Obligations.FstopForcesIdle : Prop :=
  ∀ (s : State) (v : BitVec 8) (x : Voice), s.Serves v x →
    exec (.fstop v) s = .next (s.updated v
      { x with faderCtl := ⟨false, x.faderCtl.stopOnComplete, x.faderCtl.up, 0, false⟩ } .ok 0 [])

/-- R162, R163: `FSVC` case by case: Idle, the two calls of a short fade, the target reached, and a ramp step
up or down with the saturating accumulator; the value is `stopOnComplete` where a fade ends, else 0. The
voice is never finalized. -/
def Obligations.FsvcServicesOneQuantum : Prop :=
  ∀ (s : State) (v : BitVec 8) (x : Voice), s.Serves v x →
    (x.faderCtl.active = false → exec (.fsvc v) s = .next (s.updated v x .ok 0 [])) ∧
    (x.faderCtl.active = true → x.faderCtl.shortFadeMode ≠ 0 →
      x.faderCtl.shortFadeCompleted = false →
      exec (.fsvc v) s = .next (s.updated v
        { x with gainIdx := x.target, faderCtl := { x.faderCtl with shortFadeCompleted := true } }
        .ok 0 [])) ∧
    (x.faderCtl.active = true → x.faderCtl.shortFadeMode ≠ 0 →
      x.faderCtl.shortFadeCompleted = true →
      exec (.fsvc v) s = .next (s.updated v
        { x with faderCtl := ⟨false, x.faderCtl.stopOnComplete, x.faderCtl.up, 0, false⟩ }
        .ok (if x.faderCtl.stopOnComplete then 1 else 0) [])) ∧
    (x.faderCtl.active = true → x.faderCtl.shortFadeMode = 0 →
      ((x.faderCtl.up = true ∧ x.target.toNat ≤ x.gainIdx.toNat) ∨
        (x.faderCtl.up = false ∧ x.gainIdx.toNat ≤ x.target.toNat)) →
      exec (.fsvc v) s = .next (s.updated v { x with faderCtl := { x.faderCtl with active := false } }
        .ok (if x.faderCtl.stopOnComplete then 1 else 0) [])) ∧
    (x.faderCtl.active = true → x.faderCtl.shortFadeMode = 0 → x.faderCtl.up = true →
      x.gainIdx.toNat < x.target.toNat →
      ∀ a, a = min (x.rampAcc.toNat + x.rampDelta.toNat) (2 ^ 32 - 1) →
      exec (.fsvc v) s = .next (s.updated v
        { x with
          rampAcc := BitVec.ofNat 32 a
          gainIdx := BitVec.ofNat 16 (min (a / 65536) x.target.toNat) } .ok 0 [])) ∧
    (x.faderCtl.active = true → x.faderCtl.shortFadeMode = 0 → x.faderCtl.up = false →
      x.target.toNat < x.gainIdx.toNat →
      ∀ a, a = x.rampAcc.toNat - x.rampDelta.toNat →
      exec (.fsvc v) s = .next (s.updated v
        { x with
          rampAcc := BitVec.ofNat 32 a
          gainIdx := BitVec.ofNat 16 (max (a / 65536) x.target.toNat) } .ok 0 []))

/-- R166: a normal fade to another index starts with `3 <= rampDelta <= distance << 16` and the accumulator
seeded from the current index. -/
def Obligations.FadeRampDeltaBounds : Prop :=
  ∀ (c : Config) (x : Voice) (db : Int) (ticks : Nat) (soc : Bool), c.wf = true →
    x.gainIdx.toNat < c.n → 3 ≤ ticks → ticks ≤ 65535 → dbToIndex c db ≠ x.gainIdx.toNat →
    3 ≤ (faderStart c x db ticks soc).rampDelta.toNat ∧
    (faderStart c x db ticks soc).rampDelta.toNat ≤
      fadeDistance (dbToIndex c db) x.gainIdx.toNat * 65536 ∧
    (faderStart c x db ticks soc).rampAcc.toNat = x.gainIdx.toNat * 65536 ∧
    (faderStart c x db ticks soc).target.toNat = dbToIndex c db

/-- R168: a fade of 1 or 2 ticks reaches its target in the first service call, which returns false; the
second makes the fader Idle and returns `stopOnComplete`. -/
def Obligations.ShortFadesTakeTwoServices : Prop :=
  ∀ (c : Config) (x y z : Voice) (r r' : Bool) (db : Int) (ticks : Nat) (soc : Bool), c.wf = true →
    ticks < 3 → faderService (faderStart c x db ticks soc) = (y, r) → faderService y = (z, r') →
    y.gainIdx.toNat = dbToIndex c db ∧ r = false ∧ y.faderCtl.active = true ∧
    z.gainIdx = y.gainIdx ∧ z.faderCtl.active = false ∧ r' = soc

/-- R167, up: after `k` advancing calls the index is `min(intpart((s << 16) + k·d), target)`; the target is
reached at call `ceil((D << 16) / d)`, every call up to it returns false, and the next one makes the
fader Idle and returns `stopOnComplete`. -/
def Obligations.UpRampsConverge : Prop :=
  ∀ (x : Voice) (s t d kUp : Nat), x.faderCtl.active = true → x.faderCtl.shortFadeMode = 0 →
    x.faderCtl.up = true → x.gainIdx.toNat = s → x.target.toNat = t → x.rampDelta.toNat = d →
    x.rampAcc.toNat = s * 65536 → s < t → t ≤ 2000 → 0 < d → d ≤ (t - s) * 65536 →
    kUp = ((t - s) * 65536 + (d - 1)) / d →
    (∀ k, 1 ≤ k → k ≤ kUp → (serviceTimes k x).gainIdx.toNat = min ((s * 65536 + k * d) / 65536) t) ∧
    (∀ k, k < kUp → (serviceTimes k x).gainIdx.toNat < t ∧ (faderService (serviceTimes k x)).2 = false) ∧
    (serviceTimes kUp x).gainIdx.toNat = t ∧
    (faderService (serviceTimes kUp x)).2 = x.faderCtl.stopOnComplete ∧
    (serviceTimes (kUp + 1) x).faderCtl.active = false ∧ (serviceTimes (kUp + 1) x).gainIdx.toNat = t

/-- R167, down: after `k` advancing calls the index is `max(intpart(max((s << 16) - k·d, 0)), target)`; the
target is reached at call `fdiv((D - 1) << 16, d) + 1`, and the next call ends the fade. -/
def Obligations.DownRampsConverge : Prop :=
  ∀ (x : Voice) (s t d kDown : Nat), x.faderCtl.active = true → x.faderCtl.shortFadeMode = 0 →
    x.faderCtl.up = false → x.gainIdx.toNat = s → x.target.toNat = t → x.rampDelta.toNat = d →
    x.rampAcc.toNat = s * 65536 → t < s → 0 < d →
    kDown = (s - t - 1) * 65536 / d + 1 →
    (∀ k, 1 ≤ k → k ≤ kDown →
      (serviceTimes k x).gainIdx.toNat = max ((s * 65536 - k * d) / 65536) t) ∧
    (∀ k, k < kDown → t < (serviceTimes k x).gainIdx.toNat ∧ (faderService (serviceTimes k x)).2 = false) ∧
    (serviceTimes kDown x).gainIdx.toNat = t ∧
    (faderService (serviceTimes kDown x)).2 = x.faderCtl.stopOnComplete ∧
    (serviceTimes (kDown + 1) x).faderCtl.active = false ∧
    (serviceTimes (kDown + 1) x).gainIdx.toNat = t

/-! ### Voice pipeline -/

/-- R183, R182: before end of file `INGEST` writes the whole block, counts the valid bytes, sets `endOfFile` when
`bytesRead` reaches the track size, and answers the valid count; after it nothing is written and the
value is 0. -/
def Obligations.IngestWritesTheBlock : Prop :=
  ∀ (s : State) (v : BitVec 8) (x : Voice) (block : List Byte) (valid : Nat),
    s.cfg.wf = true → s.MemoryOk → s.Serves v x → block.length = s.cfg.blockBytes →
    (x.bytesRead = x.trackSize → exec (.ingest v block) s = .next (s.answered .ok 0 [])) ∧
    (x.bytesRead.toNat < x.trackSize.toNat →
      (s.cfg.blockBytes : Int) < s.cfg.cComp - usedComp s.cfg x →
      valid = min s.cfg.blockBytes (x.trackSize.toNat - x.bytesRead.toNat) →
      ∃ m, StoredAt s.cfg.cComp x.compWr.toNat block x.comp m ∧
        exec (.ingest v block) s = .next (s.updated v
          { x with
            comp := m
            compWr := BitVec.ofNat 32 ((x.compWr.toNat + s.cfg.blockBytes) % s.cfg.cComp)
            bytesRead := BitVec.ofNat 32 (x.bytesRead.toNat + valid)
            flags := { x.flags with
              endOfFile := x.flags.endOfFile ||
                decide (x.bytesRead.toNat + valid = x.trackSize.toNat) } }
          .ok (BitVec.ofNat 32 valid) []))

/-- R186: `FETCH` delivers the `min(requested, remaining, used)` oldest bytes, advances `compRd` and
`bytesDeliv` by that count, and answers the count with the `exhausted` bit; nothing else changes. -/
def Obligations.FetchDeliversTheOldestBytes : Prop :=
  ∀ (s : State) (v : BitVec 8) (x : Voice) (requested : BitVec 32) (k : Nat),
    s.cfg.wf = true → s.Serves v x → x.bytesDeliv.toNat ≤ x.trackSize.toNat →
    (k : Int) = min (requested.toNat : Int)
      (min ((x.trackSize.toNat : Int) - x.bytesDeliv.toNat) (usedComp s.cfg x)) →
    exec (.fetch v requested) s = .next (s.updated v
      { x with
        compRd := BitVec.ofNat 32 ((x.compRd.toNat + k) % s.cfg.cComp)
        bytesDeliv := BitVec.ofNat 32 (x.bytesDeliv.toNat + k) }
      .ok
      (if x.bytesDeliv.toNat + k = x.trackSize.toNat then 0x80000000 ||| BitVec.ofNat 32 k
        else BitVec.ofNat 32 k)
      ((List.range k).map (fun i =>
        (Memory.read x.comp ((x.compRd.toNat + i) % s.cfg.cComp)).setWidth 32)))

/-- R189: `PUSH` of fewer frames than are free stores them from the write cursor on, advances it, answers the
count, and changes nothing else. -/
def Obligations.PushStoresTheFrames : Prop :=
  ∀ (s : State) (v : BitVec 8) (x : Voice) (frames : List Frame),
    s.cfg.wf = true → s.MemoryOk → s.Serves v x →
    (frames.length : Int) < s.cfg.cPcm - usedPcm s.cfg x →
    ∃ m, StoredAt s.cfg.cPcm x.pcmWr.toNat frames x.pcm m ∧
      exec (.push v frames) s = .next (s.updated v
        { x with
          pcm := m
          pcmWr := BitVec.ofNat 32 ((x.pcmWr.toNat + frames.length) % s.cfg.cPcm) }
        .ok (BitVec.ofNat 32 frames.length) [])

/-- R192, R243: `DECERR` finalizes the voice, leaves `streamError` set and everything else of the slot zero, and
answers `StreamError`. -/
def Obligations.DecerrFinalizesTheVoice : Prop :=
  ∀ (s : State) (v : BitVec 8) (x : Voice), s.Serves v x →
    exec (.decerr v) s = .next (s.updated v
      { Voice.zero with flags := ⟨false, false, false, false, true⟩ } .streamError 0 [])

/-- R187: from an empty compressed buffer with both counters 0, the bytes delivered are the first ones
ingested, in order; when the track is exhausted they are exactly its first `trackSize` bytes and both
counters equal it; and once all is read from storage a request is capped by the remaining track alone. -/
def Obligations.DeliveredBytesAreTheTrack : Prop :=
  ∀ (c : Config) (x y : Voice) (uses : List StreamUse) (stored delivered : List Byte), c.wf = true →
    Memory.wf x.comp = true → x.compWr = x.compRd → x.compRd.toNat < c.cComp → x.bytesRead = 0 → x.bytesDeliv = 0 →
    runStream c uses x = some (y, stored, delivered) →
    y.bytesDeliv.toNat = delivered.length ∧ delivered <+: stored ∧
    (y.bytesDeliv = x.trackSize →
      delivered = stored.take x.trackSize.toNat ∧ y.bytesRead = x.trackSize) ∧
    (y.bytesRead = x.trackSize →
      ∀ n, fetchCount c y n = min n (x.trackSize.toNat - y.bytesDeliv.toNat))

/-! ### Mixer -/

/-- R206, R223: in a legal state that is not halted `MIX` completes: the quantum counter advances, the payload
is `ACC`, Q frames, frame 0 first; a slot that is not Playing is unchanged; nothing but the voices, `ACC`,
`SCR`, the quantum counter and the response changes. -/
def Obligations.MixCompletesWithOneQuantum : Prop :=
  ∀ s : State, s.Legal → s.halted = false → ∃ t value frames, exec .mix s = .next t ∧
    t = { s with
          voices := t.voices
          acc := t.acc
          scr := t.scr
          quantumCounter := s.quantumCounter + 1
          response := some ⟨.ok, value, frames⟩ } ∧
    t.voices.length = s.voices.length ∧ frames.length = s.cfg.q ∧
    (∀ k f, frames[k]? = some f → Memory.read t.acc k = f) ∧
    (∀ k, s.cfg.q ≤ k → Memory.read t.acc k = 0) ∧
    (∀ (v : Nat) (x : Voice), s.voices[v]? = some x → x.state ≠ .playing → t.voices[v]? = some x)

/-- R75, R206, R217, R218, R277: `MIX` is the voices mixed each alone, with every channel of `ACC` the sequential
chain of 16-bit saturating additions of their contributions in ascending voice index, and the three
counts added up. -/
def Obligations.MixIsTheSaturatingChainOfVoices : Prop :=
  ∀ s : State, s.Legal → s.halted = false → ∃ alone t, mixAllAlone s.cfg s.voices = some alone ∧
    exec .mix s = .next t ∧ t.voices = alone.map (fun p => p.1) ∧
    (∀ k, k < s.cfg.q →
      frameLeft (Memory.read t.acc k) =
        saturatingChain (alone.map (fun p => frameLeft (p.2.acc.getD k 0))) ∧
      frameRight (Memory.read t.acc k) =
        saturatingChain (alone.map (fun p => frameRight (p.2.acc.getD k 0)))) ∧
    ∃ frames, t.response = some ⟨.ok,
      mixValue ((alone.map (fun p => p.2.mixed)).sum) ((alone.map (fun p => p.2.fin)).sum)
        ((alone.map (fun p => p.2.short)).sum), frames⟩

/-- R208, R162, R221: the immediate stop. A silent voice is finalized. A voice that is not silent is muted
now; only the end of its stream (or, with the parameter clear, a completed fade with `stopOnComplete`)
finalizes it in the same `MIX`. With HARD_MUTE_CANCELS_FADER its fader is Idle and its index 0; with the
parameter clear the fader is serviced from the muted index: an Idle one leaves it 0, an up ramp and a
pending short fade overwrite it, and any other fade ends. -/
def Obligations.ImmediateStopMutesThenFinalizes : Prop :=
  ∀ (s : State) (v : Nat) (x : Voice), s.Legal → s.halted = false → s.voices[v]? = some x →
    x.state = .playing → x.flags.stopRequested = true → ∃ t, exec .mix s = .next t ∧
    (x.gainIdx = 0 → t.voices[v]? = some (finalizedSlot x)) ∧
    (x.gainIdx ≠ 0 → s.cfg.hardMuteCancelsFader = true →
      KeptUnlessAtEnd s.cfg x t.voices[v]? (fun y => y.gainIdx = 0 ∧ y.gainLin = 0 ∧
        y.faderCtl = ⟨false, x.faderCtl.stopOnComplete, x.faderCtl.up, 0, false⟩)) ∧
    (x.gainIdx ≠ 0 → s.cfg.hardMuteCancelsFader = false →
      (x.faderCtl.active = false →
        KeptUnlessAtEnd s.cfg x t.voices[v]? (fun y => y.gainIdx = 0 ∧ y.gainLin = 0 ∧
          y.faderCtl = x.faderCtl)) ∧
      (x.faderCtl.active = true → x.faderCtl.shortFadeMode = 0 → x.faderCtl.up = true →
        0 < x.target.toNat →
        KeptUnlessAtEnd s.cfg x t.voices[v]? (fun y => y.faderCtl = x.faderCtl ∧ y.gainIdx.toNat =
          min (min (x.rampAcc.toNat + x.rampDelta.toNat) (2 ^ 32 - 1) / 65536) x.target.toNat)) ∧
      (x.faderCtl.active = true → x.faderCtl.shortFadeMode ≠ 0 → x.faderCtl.shortFadeCompleted = false →
        KeptUnlessAtEnd s.cfg x t.voices[v]? (fun y => y.gainIdx = x.target ∧
          y.faderCtl = { x.faderCtl with shortFadeCompleted := true })) ∧
      (x.faderCtl.active = true →
        ((x.faderCtl.shortFadeMode ≠ 0 ∧ x.faderCtl.shortFadeCompleted = true) ∨
          (x.faderCtl.shortFadeMode = 0 ∧ (x.faderCtl.up = false ∨ x.target = 0))) →
        (x.faderCtl.stopOnComplete = true → t.voices[v]? = some (finalizedSlot x)) ∧
        (x.faderCtl.stopOnComplete = false →
          KeptUnlessAtEnd s.cfg x t.voices[v]? (fun y => y.gainIdx = 0 ∧ y.gainLin = 0 ∧
            y.faderCtl.active = false))))

/-- R209, R165: a voice without a pending stop whose fader service returns true is finalized by that `MIX`. -/
def Obligations.CompletedStopFadeFinalizes : Prop :=
  ∀ (s : State) (v : Nat) (x : Voice), s.Legal → s.halted = false → s.voices[v]? = some x →
    x.state = .playing → x.flags.stopRequested = false → (faderService x).2 = true →
    ∃ t, exec .mix s = .next t ∧ t.voices[v]? = some (finalizedSlot x)

/-- R208, R209, R210, R215, R220: a Playing voice that is neither finalized by an immediate stop, nor by a
completed fade, nor at its end, has after `MIX` the gain index, the fader control and the ramp accumulator
its fader service left (of the muted voice, where a stop is pending), `min(Q, used)` frames drained, `gainLin`
at the amplitude of the serviced index, and `framesPlayed` advanced by the frames drained with saturation;
every other register and both memories are as they were. -/
def Obligations.MixDrainsAPlayingVoice : Prop :=
  ∀ (s : State) (v : Nat) (x y : Voice) (avail : Nat), s.Legal → s.halted = false →
    s.voices[v]? = some x → x.state = .playing →
    ¬ (x.flags.stopRequested = true ∧ x.gainIdx = 0) → faderService (mutedSlot s.cfg x) = (y, false) →
    ¬ x.AtEnd s.cfg → (avail : Int) = min (s.cfg.q : Int) (usedPcm s.cfg x) →
    ∃ t lin, exec .mix s = .next t ∧ s.cfg.gainRom[y.gainIdx.toNat]? = some lin ∧
      t.voices[v]? = some { x with
        gainIdx := y.gainIdx
        faderCtl := y.faderCtl
        rampAcc := y.rampAcc
        pcmRd := BitVec.ofNat 32 ((x.pcmRd.toNat + avail) % s.cfg.cPcm)
        gainLin := BitVec.ofNat 32 lin
        framesPlayed := BitVec.ofNat 32 (min (x.framesPlayed.toNat + avail) (2 ^ 32 - 1)) }

/-- R221: the end-of-stream policy. A Playing voice with an empty decoded buffer, `endOfFile` set and `loop`
clear is finalized by the `MIX`; without one of the three, a voice with no stop pending and an Idle
fader stays Playing. -/
def Obligations.EndOfStreamFinalizes : Prop :=
  ∀ (s : State) (v : Nat) (x : Voice), s.Legal → s.halted = false → s.voices[v]? = some x →
    x.state = .playing → ∃ t, exec .mix s = .next t ∧
    (usedPcm s.cfg x = 0 → x.flags.endOfFile = true → x.flags.loop = false →
      t.voices[v]? = some (finalizedSlot x)) ∧
    (x.flags.stopRequested = false → x.faderCtl.active = false →
      (usedPcm s.cfg x ≠ 0 ∨ x.flags.endOfFile = false ∨ x.flags.loop = true) →
      ∃ y, t.voices[v]? = some y ∧ y.state = .playing)

/-- R212: during the ramp the per-frame gain is the constant-slope interpolation, the start amplitude plus the
floor of `(g1 - g0)·(k + 1) / L`, said by the two inequalities that fix a floor; it stays between the start
and the end amplitude, inclusive, is the end amplitude exactly at the last frame of the ramp and after
it, and is flat when the two are equal. -/
def Obligations.FrameGainRampsBetweenTheEnds : Prop :=
  ∀ g0 g1 len k : Nat, 0 < len →
    (k < len →
      (len : Int) * (frameGain g0 g1 len k - g0) ≤ ((g1 : Int) - g0) * (k + 1) ∧
      ((g1 : Int) - g0) * (k + 1) < (len : Int) * (frameGain g0 g1 len k - g0) + len) ∧
    ((min g0 g1 : Nat) : Int) ≤ frameGain g0 g1 len k ∧ frameGain g0 g1 len k ≤ ((max g0 g1 : Nat) : Int) ∧
    frameGain g0 g1 len (len - 1) = g1 ∧ (len ≤ k → frameGain g0 g1 len k = g1) ∧
    (g0 = g1 → frameGain g0 g1 len k = g0)

/-- R213: the ramp length is at least one frame; it is a third or two thirds of the quantum in the quantum
that completes a short fade of mode 1 or 2, and the whole quantum otherwise. -/
def Obligations.RampLengthOfTheQuantum : Prop :=
  ∀ (c : Config) (f : FaderCtl), c.wf = true →
    1 ≤ rampLength c f ∧ rampLength c f ≤ c.q ∧
    (f.active = true → f.shortFadeCompleted = true → f.shortFadeMode = 1 → rampLength c f = c.q / 3) ∧
    (f.active = true → f.shortFadeCompleted = true → f.shortFadeMode = 2 →
      rampLength c f = 2 * c.q / 3) ∧
    ((f.active = false ∨ f.shortFadeCompleted = false ∨ f.shortFadeMode = 0) → rampLength c f = c.q)

/-- R214: the product fits a 16-bit sample for every gain in [0, 65536]; unity returns the sample, gain 0
returns 0, and the rounding is toward minus infinity. -/
def Obligations.GainMultiplierFitsASample : Prop :=
  ∀ a g : Int, -32768 ≤ a → a ≤ 32767 → 0 ≤ g → g ≤ 65536 →
    -32768 ≤ scaleSample a g ∧ scaleSample a g ≤ 32767 ∧ scaleSample a 65536 = a ∧ scaleSample a 0 = 0 ∧
    65536 * scaleSample a g ≤ a * g ∧ a * g < 65536 * scaleSample a g + 65536

/-- R224: a voice whose gain is 0 at both ends of the quantum, or whose frames are all zero, leaves the
accumulator unchanged; one voice alone at unity gain at both ends reproduces its decoded samples exactly,
padded with silence. -/
def Obligations.MixAdditivity : Prop :=
  (∀ (c : Config) (x y : Voice) (r r' : MixRun), c.wf = true → r.acc.length = c.q →
    mixVoice c x r = some (y, r') →
    ((x.gainLin = 0 ∧ y.gainLin = 0) ∨ ∀ k, Memory.read x.pcm k = 0) → r'.acc = r.acc) ∧
  (∀ (s : State) (v : Nat) (x z : Voice), s.Legal → s.halted = false → s.voices[v]? = some x →
    x.state = .playing → (∀ w u, w ≠ v → s.voices[w]? = some u → u.state ≠ .playing) →
    x.flags.stopRequested = false → faderService x = (z, false) →
    x.gainLin.toNat = unity → s.cfg.gainRom[z.gainIdx.toNat]? = some unity →
    ∃ t, exec .mix s = .next t ∧ ∀ k, k < s.cfg.q → Memory.read t.acc k =
      if (k : Int) < usedPcm s.cfg x then Memory.read x.pcm ((x.pcmRd.toNat + k) % s.cfg.cPcm) else 0)

/-- R312, R309 (a): with HARD_MUTE_CANCELS_FADER a voice with an immediate stop pending is finalized by its second
`MIX` at the latest, whatever its gain, its fader and its buffers hold. Of R309 (a) this is the case of no
`FADE` between the two. -/
def Obligations.ImmediateStopEndsWithinTwoMixes : Prop :=
  ∀ (s : State) (v : Nat) (x : Voice), s.Legal → s.halted = false →
    s.cfg.hardMuteCancelsFader = true → s.voices[v]? = some x → x.state = .playing →
    x.flags.stopRequested = true →
    ∃ t u, exec .mix s = .next t ∧ exec .mix t = .next u ∧ u.voices[v]? = some (finalizedSlot x)

/-- R207 to R217, R221, R222: what one voice gives a quantum, mixed alone. It counts as short exactly where
fewer than Q frames are in use, also where step 2 or 3 finalizes it. A voice finalized in step 2 or 3 is
not mixed, counts as finalized and contributes silence. Any other Playing voice counts as mixed, and as
finalized exactly at the end of its stream; channel by channel, frame `k` of its contribution is its
decoded frame (silence past the frames in use) scaled by the frame's gain, from `gainLin` to the amplitude
of its serviced index over the ramp length of its serviced fader. A slot that is not Playing gives and
counts nothing. The `MIX` value has the three counts in bits 7:0, 15:8 and 23:16 and zeros above. -/
def Obligations.VoiceContributesItsScaledFrames : Prop :=
  (∀ (s : State) (v : Nat) (x z : Voice) (done : Bool), s.Legal → s.voices[v]? = some x →
    x.state = .playing → faderService (mutedSlot s.cfg x) = (z, done) →
    ∃ y r, mixAlone s.cfg x = some (y, r) ∧
      r.short = (if usedPcm s.cfg x < s.cfg.q then 1 else 0) ∧
      (((x.flags.stopRequested = true ∧ x.gainIdx = 0) ∨ done = true) →
        y = finalizedSlot x ∧ r.mixed = 0 ∧ r.fin = 1 ∧
        ∀ k, k < s.cfg.q → r.acc[k]? = some 0) ∧
      (¬ (x.flags.stopRequested = true ∧ x.gainIdx = 0) → done = false →
        r.mixed = 1 ∧ (x.AtEnd s.cfg → r.fin = 1) ∧ (¬ x.AtEnd s.cfg → r.fin = 0) ∧
        ∃ lin, s.cfg.gainRom[z.gainIdx.toNat]? = some lin ∧
        ∀ k, k < s.cfg.q → ∃ a, r.acc[k]? = some a ∧
          frameLeft a = scaleSample (frameLeft (decodedFrame s.cfg x k))
            (frameGain x.gainLin.toNat lin (rampLength s.cfg z.faderCtl) k) ∧
          frameRight a = scaleSample (frameRight (decodedFrame s.cfg x k))
            (frameGain x.gainLin.toNat lin (rampLength s.cfg z.faderCtl) k))) ∧
  (∀ (c : Config) (x : Voice), x.state ≠ .playing → ∃ r, mixAlone c x = some (x, r) ∧
    r.mixed = 0 ∧ r.fin = 0 ∧ r.short = 0 ∧ ∀ k, k < c.q → r.acc[k]? = some 0) ∧
  (∀ mixed fin short : Nat, mixed < 256 → fin < 256 → short < 256 →
    mixValue mixed fin short = BitVec.ofNat 32 (mixed + 256 * fin + 65536 * short))
end

