-- ==== Sys2Proof/Laws/Bits.lean ====
section
/-! SUPPORT. The two halves of a bit string put together from two. -/
namespace Sys2Proof

theorem append_low {m n : Nat} (y : BitVec m) (x : BitVec n) : (y ++ x).extractLsb' 0 n = x := by
  ext i hi
  simp [BitVec.getLsbD_append, hi]

theorem append_high {m n : Nat} (y : BitVec m) (x : BitVec n) : (y ++ x).extractLsb' n m = y := by
  ext i hi
  simp [BitVec.getLsbD_append, BitVec.getLsbD_eq_getElem hi]

/-- A bit string is its two halves. -/
theorem append_halves {m n : Nat} (z : BitVec (m + n)) : z.extractLsb' n m ++ z.extractLsb' 0 n = z := by
  ext i hi
  simp only [BitVec.getElem_append, BitVec.getElem_extractLsb', Nat.zero_add]
  split
  · exact BitVec.getLsbD_eq_getElem hi
  · rename_i h
    rw [show n + (i - n) = i by omega]
    exact BitVec.getLsbD_eq_getElem hi

/-- The logical and of two pairs of halves. -/
theorem append_and {m n : Nat} (y y' : BitVec m) (x x' : BitVec n) :
    (y ++ x) &&& (y' ++ x') = (y &&& y') ++ (x &&& x') := by
  ext i hi
  simp only [BitVec.getElem_and, BitVec.getElem_append]
  split <;> simp

/-- Zeros in front are a zero extension. -/
theorem zero_append_eq {n : Nat} (m : Nat) (x : BitVec n) : 0#m ++ x = x.setWidth (m + n) := by
  ext i hi
  simp only [BitVec.getElem_append, BitVec.getElem_setWidth]
  split
  · rename_i h
    exact (BitVec.getLsbD_eq_getElem h).symm
  · rename_i h
    rw [BitVec.getLsbD_of_ge _ _ (by omega)]
    simp

/-- A bit of the high half. -/
theorem append_getLsbD_high {m n : Nat} (y : BitVec m) (x : BitVec n) (i : Nat) :
    (y ++ x).getLsbD (n + i) = y.getLsbD i := by
  simp [BitVec.getLsbD_append]

/-- Equal strings have equal halves. -/
theorem append_inj_iff {m n : Nat} (y y' : BitVec m) (x x' : BitVec n) :
    y ++ x = y' ++ x' ↔ y = y' ∧ x = x' := by
  constructor
  · intro h
    refine ⟨?_, ?_⟩
    · rw [← append_high y x, h, append_high]
    · rw [← append_low y x, h, append_low]
  · rintro ⟨rfl, rfl⟩
    rfl

end Sys2Proof
end

