-- ==== Sys2Proof/Laws/Decode.lean ====
section
/-! SUPPORT. The laws of the decoder and the encoder: the fields of a command word, the word as its fields, byte
cells and beats, and the row a word selects. -/
namespace Sys2Proof

/-! ### The fields of a command word -/

theorem extract_extract {n : Nat} (x : BitVec n) (a b k d : Nat) (h : a + b ≤ d) :
    (x.extractLsb' k d).extractLsb' a b = x.extractLsb' (k + a) b := by
  ext i hi
  simp [Nat.add_assoc]
  omega

theorem cmdWord_low56 (op v : BitVec 8) (a : BitVec 16) (b : BitVec 32) :
    (cmdWord op v a b).extractLsb' 0 56 = v ++ (a ++ b) := append_low _ _

theorem cmdWord_low48 (op v : BitVec 8) (a : BitVec 16) (b : BitVec 32) :
    (cmdWord op v a b).extractLsb' 0 48 = a ++ b := by
  have h := append_low v (a ++ b)
  rw [← cmdWord_low56 op v a b, extract_extract _ _ _ _ _ (by omega)] at h
  exact h

@[simp] theorem opField_cmdWord (op v : BitVec 8) (a : BitVec 16) (b : BitVec 32) :
    opField (cmdWord op v a b) = op := append_high _ _

@[simp] theorem vField_cmdWord (op v : BitVec 8) (a : BitVec 16) (b : BitVec 32) :
    vField (cmdWord op v a b) = v := by
  have h := append_high v (a ++ b)
  rw [← cmdWord_low56 op v a b, extract_extract _ _ _ _ _ (by omega)] at h
  exact h

@[simp] theorem aField_cmdWord (op v : BitVec 8) (a : BitVec 16) (b : BitVec 32) :
    aField (cmdWord op v a b) = a := by
  have h := append_high a b
  rw [← cmdWord_low48 op v a b, extract_extract _ _ _ _ _ (by omega)] at h
  exact h

@[simp] theorem bField_cmdWord (op v : BitVec 8) (a : BitVec 16) (b : BitVec 32) :
    bField (cmdWord op v a b) = b := by
  have h := append_low a b
  rw [← cmdWord_low48 op v a b, extract_extract _ _ _ _ _ (by omega)] at h
  exact h

/-- A command word is its four fields (R91). -/
theorem cmdWord_fields (cw : CmdWord) : cmdWord (opField cw) (vField cw) (aField cw) (bField cw) = cw := by
  unfold cmdWord opField vField aField bField
  have h1 := append_halves (m := 8) (n := 56) cw
  have h2 := append_halves (m := 8) (n := 48) (cw.extractLsb' 0 56)
  have h3 := append_halves (m := 16) (n := 32) ((cw.extractLsb' 0 56).extractLsb' 0 48)
  simp only [extract_extract _ _ _ _ _ (show 48 + 8 ≤ 56 by omega),
    extract_extract _ _ _ _ _ (show 0 + 48 ≤ 56 by omega),
    extract_extract _ _ _ _ _ (show 32 + 16 ≤ 48 by omega),
    extract_extract _ _ _ _ _ (show 0 + 32 ≤ 48 by omega), Nat.zero_add] at h2 h3
  rw [h3, h2, h1]

theorem cmdWord_and (op v op' v' : BitVec 8) (a a' : BitVec 16) (b b' : BitVec 32) :
    cmdWord op v a b &&& cmdWord op' v' a' b' =
      cmdWord (op &&& op') (v &&& v') (a &&& a') (b &&& b') := by
  unfold cmdWord
  rw [append_and, append_and, append_and]

theorem cmdWord_inj (op v op' v' : BitVec 8) (a a' : BitVec 16) (b b' : BitVec 32) :
    cmdWord op v a b = cmdWord op' v' a' b' ↔ op = op' ∧ v = v' ∧ a = a' ∧ b = b' := by
  unfold cmdWord
  rw [append_inj_iff, append_inj_iff, append_inj_iff]

/-! ### Rows -/

/-- A row's condition, field by field. -/
theorem row_fields (r : Row) (cw : CmdWord) :
    cw &&& r.mask = r.pattern ↔
      opField cw &&& opField r.mask = opField r.pattern ∧
      vField cw &&& vField r.mask = vField r.pattern ∧
      aField cw &&& aField r.mask = aField r.pattern ∧
      bField cw &&& bField r.mask = bField r.pattern := by
  conv_lhs =>
    rw [← cmdWord_fields cw, ← cmdWord_fields r.mask, ← cmdWord_fields r.pattern, cmdWord_and, cmdWord_inj]

/-- Every row fixes the whole `op` field. -/
theorem opcodeTable_opMask : ∀ r ∈ opcodeTable, opField r.mask = 0xFF#8 := by decide

/-- Every row has an `op` value of its own. -/
theorem opcodeTable_opValue :
    ∀ r ∈ opcodeTable, ∀ r' ∈ opcodeTable, opField r.pattern = opField r'.pattern → r = r' := by decide

/-- The `op` value of a word a row selects. -/
theorem row_opField {r : Row} (hr : r ∈ opcodeTable) {cw : CmdWord} (h : cw &&& r.mask = r.pattern) :
    opField cw = opField r.pattern := by
  have h1 := ((row_fields r cw).1 h).1
  rw [opcodeTable_opMask r hr, show (0xFF#8) = BitVec.allOnes 8 by decide, BitVec.and_allOnes] at h1
  exact h1

/-- The operation of a word that a row selects is the row's. -/
theorem selectOp_of_row {r : Row} (hr : r ∈ opcodeTable) {cw : CmdWord} (h : cw &&& r.mask = r.pattern) :
    selectOp cw = some r.op := by
  unfold selectOp
  cases hf : opcodeTable.find? (fun r => r.selects cw) with
  | none =>
    have := List.find?_eq_none.1 hf r hr
    simp [Row.selects, h] at this
  | some r' =>
    have h1 : cw &&& r'.mask = r'.pattern := by simpa [Row.selects] using List.find?_some hf
    have h2 := List.mem_of_find?_eq_some hf
    rw [opcodeTable_opValue r' h2 r hr ((row_opField h2 h1).symm.trans (row_opField hr h))]
    rfl

/-- A word that selects an operation is selected by a row of the table. -/
theorem selectOp_some {cw : CmdWord} {op : Op} (h : selectOp cw = some op) :
    ∃ r ∈ opcodeTable, r.op = op ∧ cw &&& r.mask = r.pattern := by
  unfold selectOp at h
  obtain ⟨r, hf, hop⟩ := Option.map_eq_some_iff.1 h
  exact ⟨r, List.mem_of_find?_eq_some hf, hop, by simpa [Row.selects] using List.find?_some hf⟩

/-- A word that selects no operation is selected by no row. -/
theorem selectOp_none {cw : CmdWord} : selectOp cw = none ↔ ∀ r ∈ opcodeTable, cw &&& r.mask ≠ r.pattern := by
  simp [selectOp, Row.selects]

/-! ### Byte cells -/

theorem beatByte_byteBeat (y : Byte) : beatByte (byteBeat y) = some y := by
  have h1 : (byteBeat y).extractLsb' 8 24 = 0#24 := by
    ext i hi
    simp [byteBeat, BitVec.getLsbD_setWidth]
  have h2 : (byteBeat y).extractLsb' 0 8 = y := by
    ext i hi
    simp [byteBeat, BitVec.getLsbD_setWidth, BitVec.getLsbD_eq_getElem hi]
    omega
  rw [beatByte, if_pos h1, h2]

/-- A beat that is a byte cell is the beat of that byte. -/
theorem byteBeat_beatByte {x : Beat} {y : Byte} (h : beatByte x = some y) : byteBeat y = x := by
  unfold beatByte at h
  split at h
  · rename_i h0
    injection h with h
    subst h
    conv_rhs => rw [← append_halves (m := 24) (n := 8) x, h0]
    exact (zero_append_eq 24 _).symm
  · exact nomatch h

@[simp] theorem beatBytes_map (l : List Byte) : beatBytes (l.map byteBeat) = some l := by
  induction l with
  | nil => rfl
  | cons y l ih => simp [beatBytes, beatByte_byteBeat, ih]

theorem map_beatBytes {xs : List Beat} {ys : List Byte} (h : beatBytes xs = some ys) : ys.map byteBeat = xs := by
  induction xs generalizing ys with
  | nil =>
    injection h with h
    subst h
    rfl
  | cons x xs ih =>
    simp only [beatBytes] at h
    split at h
    · rename_i y ys' hy hys
      injection h with h
      subst h
      rw [List.map_cons, byteBeat_beatByte hy, ih hys]
    · exact nomatch h

/-! ### Small fields -/

@[simp] theorem selWord_bit0 (sel : BufSel) : (selWord sel).getLsbD 0 = (match sel with | .comp => false | .pcm => true) := by
  cases sel <;> rfl

@[simp] theorem ticksWord_low (t : BitVec 16) : (ticksWord t).extractLsb' 0 16 = t := append_low _ _
@[simp] theorem fadeWord_low (t : BitVec 16) (soc : Bool) : (fadeWord t soc).extractLsb' 0 16 = t := append_low _ _

@[simp] theorem fadeWord_soc (t : BitVec 16) (soc : Bool) : (fadeWord t soc).getLsbD 16 = soc := by
  cases soc <;> exact (append_getLsbD_high _ t 0).trans rfl

theorem ticksWord_and (t : BitVec 16) : ticksWord t &&& 0xFFFF0000#32 = 0#32 := by
  rw [ticksWord, show (0xFFFF0000#32) = 0xFFFF#16 ++ 0#16 by decide, append_and]
  simp

theorem fadeWord_and (t : BitVec 16) (soc : Bool) : fadeWord t soc &&& 0xFFFE0000#32 = 0#32 := by
  rw [fadeWord, show (0xFFFE0000#32) = 0xFFFE#16 ++ 0#16 by decide, append_and]
  cases soc <;> simp

end Sys2Proof
end

