-- ==== Sys2Proof/Laws/State.lean ====
section
/-! SUPPORT. One lemma per field per update of the state and of a voice, true by unfolding once; later proofs
rewrite with these and unfold no update. -/
namespace Sys2Proof.Machine

/-! ### Updates of the state -/

@[simp] theorem respond_cfg (s : State) (st : Status) (w : BitVec 32) (p : List Beat) :
    (s.respond st w p).cfg = s.cfg := rfl

@[simp] theorem respond_voices (s : State) (st : Status) (w : BitVec 32) (p : List Beat) :
    (s.respond st w p).voices = s.voices := rfl

@[simp] theorem respond_halted (s : State) (st : Status) (w : BitVec 32) (p : List Beat) :
    (s.respond st w p).halted = s.halted := rfl

@[simp] theorem respond_quantumCounter (s : State) (st : Status) (w : BitVec 32) (p : List Beat) :
    (s.respond st w p).quantumCounter = s.quantumCounter := rfl

@[simp] theorem respond_acc (s : State) (st : Status) (w : BitVec 32) (p : List Beat) :
    (s.respond st w p).acc = s.acc := rfl

@[simp] theorem respond_scr (s : State) (st : Status) (w : BitVec 32) (p : List Beat) :
    (s.respond st w p).scr = s.scr := rfl

@[simp] theorem respond_pending (s : State) (st : Status) (w : BitVec 32) (p : List Beat) :
    (s.respond st w p).pending = s.pending := rfl

@[simp] theorem respond_response (s : State) (st : Status) (w : BitVec 32) (p : List Beat) :
    (s.respond st w p).response = some ⟨st, w, p⟩ := rfl

@[simp] theorem ok_cfg (s : State) (w : BitVec 32) (p : List Beat) :
    (s.ok w p).cfg = s.cfg := rfl

@[simp] theorem ok_voices (s : State) (w : BitVec 32) (p : List Beat) :
    (s.ok w p).voices = s.voices := rfl

@[simp] theorem ok_halted (s : State) (w : BitVec 32) (p : List Beat) :
    (s.ok w p).halted = s.halted := rfl

@[simp] theorem ok_quantumCounter (s : State) (w : BitVec 32) (p : List Beat) :
    (s.ok w p).quantumCounter = s.quantumCounter := rfl

@[simp] theorem ok_acc (s : State) (w : BitVec 32) (p : List Beat) :
    (s.ok w p).acc = s.acc := rfl

@[simp] theorem ok_scr (s : State) (w : BitVec 32) (p : List Beat) :
    (s.ok w p).scr = s.scr := rfl

@[simp] theorem ok_pending (s : State) (w : BitVec 32) (p : List Beat) :
    (s.ok w p).pending = s.pending := rfl

@[simp] theorem ok_response (s : State) (w : BitVec 32) (p : List Beat) :
    (s.ok w p).response = some ⟨.ok, w, p⟩ := rfl

@[simp] theorem error_cfg (s : State) (st : Status) :
    (s.error st).cfg = s.cfg := rfl

@[simp] theorem error_voices (s : State) (st : Status) :
    (s.error st).voices = s.voices := rfl

@[simp] theorem error_halted (s : State) (st : Status) :
    (s.error st).halted = s.halted := rfl

@[simp] theorem error_quantumCounter (s : State) (st : Status) :
    (s.error st).quantumCounter = s.quantumCounter := rfl

@[simp] theorem error_acc (s : State) (st : Status) :
    (s.error st).acc = s.acc := rfl

@[simp] theorem error_scr (s : State) (st : Status) :
    (s.error st).scr = s.scr := rfl

@[simp] theorem error_pending (s : State) (st : Status) :
    (s.error st).pending = s.pending := rfl

@[simp] theorem error_response (s : State) (st : Status) :
    (s.error st).response = some ⟨st, 0, []⟩ := rfl

@[simp] theorem setVoice_cfg (s : State) (v : Nat) (x : Voice) :
    (s.setVoice v x).cfg = s.cfg := rfl

@[simp] theorem setVoice_voices (s : State) (v : Nat) (x : Voice) :
    (s.setVoice v x).voices = s.voices.set v x := rfl

@[simp] theorem setVoice_halted (s : State) (v : Nat) (x : Voice) :
    (s.setVoice v x).halted = s.halted := rfl

@[simp] theorem setVoice_quantumCounter (s : State) (v : Nat) (x : Voice) :
    (s.setVoice v x).quantumCounter = s.quantumCounter := rfl

@[simp] theorem setVoice_acc (s : State) (v : Nat) (x : Voice) :
    (s.setVoice v x).acc = s.acc := rfl

@[simp] theorem setVoice_scr (s : State) (v : Nat) (x : Voice) :
    (s.setVoice v x).scr = s.scr := rfl

@[simp] theorem setVoice_pending (s : State) (v : Nat) (x : Voice) :
    (s.setVoice v x).pending = s.pending := rfl

@[simp] theorem setVoice_response (s : State) (v : Nat) (x : Voice) :
    (s.setVoice v x).response = s.response := rfl

@[simp] theorem halt_cfg (s : State) :
    s.halt.cfg = s.cfg := rfl

@[simp] theorem halt_voices (s : State) :
    s.halt.voices = s.voices := rfl

@[simp] theorem halt_halted (s : State) :
    s.halt.halted = true := rfl

@[simp] theorem halt_quantumCounter (s : State) :
    s.halt.quantumCounter = s.quantumCounter := rfl

@[simp] theorem halt_acc (s : State) :
    s.halt.acc = s.acc := rfl

@[simp] theorem halt_scr (s : State) :
    s.halt.scr = s.scr := rfl

@[simp] theorem halt_pending (s : State) :
    s.halt.pending = s.pending := rfl

@[simp] theorem halt_response (s : State) :
    s.halt.response = s.response := rfl

@[simp] theorem performReset_cfg (s : State) :
    s.performReset.cfg = s.cfg := rfl

@[simp] theorem performReset_voices (s : State) :
    s.performReset.voices = List.replicate s.cfg.maxVoices Voice.zero := rfl

@[simp] theorem performReset_halted (s : State) :
    s.performReset.halted = false := rfl

@[simp] theorem performReset_quantumCounter (s : State) :
    s.performReset.quantumCounter = 0 := rfl

@[simp] theorem performReset_acc (s : State) :
    s.performReset.acc = [] := rfl

@[simp] theorem performReset_scr (s : State) :
    s.performReset.scr = [] := rfl

@[simp] theorem performReset_pending (s : State) :
    s.performReset.pending = s.pending := rfl

@[simp] theorem performReset_response (s : State) :
    s.performReset.response = none := rfl

@[simp] theorem offer_cfg (s : State) (cmd : Command) :
    (s.offer cmd).cfg = s.cfg := rfl

@[simp] theorem offer_voices (s : State) (cmd : Command) :
    (s.offer cmd).voices = s.voices := rfl

@[simp] theorem offer_halted (s : State) (cmd : Command) :
    (s.offer cmd).halted = s.halted := rfl

@[simp] theorem offer_quantumCounter (s : State) (cmd : Command) :
    (s.offer cmd).quantumCounter = s.quantumCounter := rfl

@[simp] theorem offer_acc (s : State) (cmd : Command) :
    (s.offer cmd).acc = s.acc := rfl

@[simp] theorem offer_scr (s : State) (cmd : Command) :
    (s.offer cmd).scr = s.scr := rfl

@[simp] theorem offer_pending (s : State) (cmd : Command) :
    (s.offer cmd).pending = cmd :: s.pending := rfl

@[simp] theorem offer_response (s : State) (cmd : Command) :
    (s.offer cmd).response = s.response := rfl

@[simp] theorem mixFinish_cfg (s : State) (vs : List Voice) (r : MixRun) :
    (mixFinish s vs r).cfg = s.cfg := rfl

@[simp] theorem mixFinish_voices (s : State) (vs : List Voice) (r : MixRun) :
    (mixFinish s vs r).voices = vs := rfl

@[simp] theorem mixFinish_halted (s : State) (vs : List Voice) (r : MixRun) :
    (mixFinish s vs r).halted = s.halted := rfl

@[simp] theorem mixFinish_quantumCounter (s : State) (vs : List Voice) (r : MixRun) :
    (mixFinish s vs r).quantumCounter = s.quantumCounter + 1 := rfl

@[simp] theorem mixFinish_acc (s : State) (vs : List Voice) (r : MixRun) :
    (mixFinish s vs r).acc = Memory.ofCells 0 r.acc := rfl

@[simp] theorem mixFinish_scr (s : State) (vs : List Voice) (r : MixRun) :
    (mixFinish s vs r).scr = r.scr := rfl

@[simp] theorem mixFinish_pending (s : State) (vs : List Voice) (r : MixRun) :
    (mixFinish s vs r).pending = s.pending := rfl

@[simp] theorem mixFinish_response (s : State) (vs : List Voice) (r : MixRun) :
    (mixFinish s vs r).response = some ⟨.ok, mixValue r.mixed r.fin r.short, r.acc⟩ := rfl

/-! ### Updates of a voice -/

@[simp] theorem setCompRing_state (x : Voice) (b : RingBuffer 8) :
    (x.setCompRing b).state = x.state := rfl

@[simp] theorem setCompRing_flags (x : Voice) (b : RingBuffer 8) :
    (x.setCompRing b).flags = x.flags := rfl

@[simp] theorem setCompRing_compWr (x : Voice) (b : RingBuffer 8) :
    (x.setCompRing b).compWr = BitVec.ofNat 32 b.wr := rfl

@[simp] theorem setCompRing_compRd (x : Voice) (b : RingBuffer 8) :
    (x.setCompRing b).compRd = BitVec.ofNat 32 b.rd := rfl

@[simp] theorem setCompRing_pcmWr (x : Voice) (b : RingBuffer 8) :
    (x.setCompRing b).pcmWr = x.pcmWr := rfl

@[simp] theorem setCompRing_pcmRd (x : Voice) (b : RingBuffer 8) :
    (x.setCompRing b).pcmRd = x.pcmRd := rfl

@[simp] theorem setCompRing_bytesRead (x : Voice) (b : RingBuffer 8) :
    (x.setCompRing b).bytesRead = x.bytesRead := rfl

@[simp] theorem setCompRing_bytesDeliv (x : Voice) (b : RingBuffer 8) :
    (x.setCompRing b).bytesDeliv = x.bytesDeliv := rfl

@[simp] theorem setCompRing_framesPlayed (x : Voice) (b : RingBuffer 8) :
    (x.setCompRing b).framesPlayed = x.framesPlayed := rfl

@[simp] theorem setCompRing_gainIdx (x : Voice) (b : RingBuffer 8) :
    (x.setCompRing b).gainIdx = x.gainIdx := rfl

@[simp] theorem setCompRing_gainLin (x : Voice) (b : RingBuffer 8) :
    (x.setCompRing b).gainLin = x.gainLin := rfl

@[simp] theorem setCompRing_faderCtl (x : Voice) (b : RingBuffer 8) :
    (x.setCompRing b).faderCtl = x.faderCtl := rfl

@[simp] theorem setCompRing_target (x : Voice) (b : RingBuffer 8) :
    (x.setCompRing b).target = x.target := rfl

@[simp] theorem setCompRing_rampDelta (x : Voice) (b : RingBuffer 8) :
    (x.setCompRing b).rampDelta = x.rampDelta := rfl

@[simp] theorem setCompRing_rampAcc (x : Voice) (b : RingBuffer 8) :
    (x.setCompRing b).rampAcc = x.rampAcc := rfl

@[simp] theorem setCompRing_trackSize (x : Voice) (b : RingBuffer 8) :
    (x.setCompRing b).trackSize = x.trackSize := rfl

@[simp] theorem setCompRing_triggerTs (x : Voice) (b : RingBuffer 8) :
    (x.setCompRing b).triggerTs = x.triggerTs := rfl

@[simp] theorem setCompRing_comp (x : Voice) (b : RingBuffer 8) :
    (x.setCompRing b).comp = b.mem := rfl

@[simp] theorem setCompRing_pcm (x : Voice) (b : RingBuffer 8) :
    (x.setCompRing b).pcm = x.pcm := rfl

@[simp] theorem setPcmRing_state (x : Voice) (b : RingBuffer 32) :
    (x.setPcmRing b).state = x.state := rfl

@[simp] theorem setPcmRing_flags (x : Voice) (b : RingBuffer 32) :
    (x.setPcmRing b).flags = x.flags := rfl

@[simp] theorem setPcmRing_compWr (x : Voice) (b : RingBuffer 32) :
    (x.setPcmRing b).compWr = x.compWr := rfl

@[simp] theorem setPcmRing_compRd (x : Voice) (b : RingBuffer 32) :
    (x.setPcmRing b).compRd = x.compRd := rfl

@[simp] theorem setPcmRing_pcmWr (x : Voice) (b : RingBuffer 32) :
    (x.setPcmRing b).pcmWr = BitVec.ofNat 32 b.wr := rfl

@[simp] theorem setPcmRing_pcmRd (x : Voice) (b : RingBuffer 32) :
    (x.setPcmRing b).pcmRd = BitVec.ofNat 32 b.rd := rfl

@[simp] theorem setPcmRing_bytesRead (x : Voice) (b : RingBuffer 32) :
    (x.setPcmRing b).bytesRead = x.bytesRead := rfl

@[simp] theorem setPcmRing_bytesDeliv (x : Voice) (b : RingBuffer 32) :
    (x.setPcmRing b).bytesDeliv = x.bytesDeliv := rfl

@[simp] theorem setPcmRing_framesPlayed (x : Voice) (b : RingBuffer 32) :
    (x.setPcmRing b).framesPlayed = x.framesPlayed := rfl

@[simp] theorem setPcmRing_gainIdx (x : Voice) (b : RingBuffer 32) :
    (x.setPcmRing b).gainIdx = x.gainIdx := rfl

@[simp] theorem setPcmRing_gainLin (x : Voice) (b : RingBuffer 32) :
    (x.setPcmRing b).gainLin = x.gainLin := rfl

@[simp] theorem setPcmRing_faderCtl (x : Voice) (b : RingBuffer 32) :
    (x.setPcmRing b).faderCtl = x.faderCtl := rfl

@[simp] theorem setPcmRing_target (x : Voice) (b : RingBuffer 32) :
    (x.setPcmRing b).target = x.target := rfl

@[simp] theorem setPcmRing_rampDelta (x : Voice) (b : RingBuffer 32) :
    (x.setPcmRing b).rampDelta = x.rampDelta := rfl

@[simp] theorem setPcmRing_rampAcc (x : Voice) (b : RingBuffer 32) :
    (x.setPcmRing b).rampAcc = x.rampAcc := rfl

@[simp] theorem setPcmRing_trackSize (x : Voice) (b : RingBuffer 32) :
    (x.setPcmRing b).trackSize = x.trackSize := rfl

@[simp] theorem setPcmRing_triggerTs (x : Voice) (b : RingBuffer 32) :
    (x.setPcmRing b).triggerTs = x.triggerTs := rfl

@[simp] theorem setPcmRing_comp (x : Voice) (b : RingBuffer 32) :
    (x.setPcmRing b).comp = x.comp := rfl

@[simp] theorem setPcmRing_pcm (x : Voice) (b : RingBuffer 32) :
    (x.setPcmRing b).pcm = b.mem := rfl

@[simp] theorem faderStop_state (x : Voice) :
    (faderStop x).state = x.state := rfl

@[simp] theorem faderStop_flags (x : Voice) :
    (faderStop x).flags = x.flags := rfl

@[simp] theorem faderStop_compWr (x : Voice) :
    (faderStop x).compWr = x.compWr := rfl

@[simp] theorem faderStop_compRd (x : Voice) :
    (faderStop x).compRd = x.compRd := rfl

@[simp] theorem faderStop_pcmWr (x : Voice) :
    (faderStop x).pcmWr = x.pcmWr := rfl

@[simp] theorem faderStop_pcmRd (x : Voice) :
    (faderStop x).pcmRd = x.pcmRd := rfl

@[simp] theorem faderStop_bytesRead (x : Voice) :
    (faderStop x).bytesRead = x.bytesRead := rfl

@[simp] theorem faderStop_bytesDeliv (x : Voice) :
    (faderStop x).bytesDeliv = x.bytesDeliv := rfl

@[simp] theorem faderStop_framesPlayed (x : Voice) :
    (faderStop x).framesPlayed = x.framesPlayed := rfl

@[simp] theorem faderStop_gainIdx (x : Voice) :
    (faderStop x).gainIdx = x.gainIdx := rfl

@[simp] theorem faderStop_gainLin (x : Voice) :
    (faderStop x).gainLin = x.gainLin := rfl

@[simp] theorem faderStop_faderCtl (x : Voice) :
    (faderStop x).faderCtl = x.faderCtl.idle := rfl

@[simp] theorem faderStop_target (x : Voice) :
    (faderStop x).target = x.target := rfl

@[simp] theorem faderStop_rampDelta (x : Voice) :
    (faderStop x).rampDelta = x.rampDelta := rfl

@[simp] theorem faderStop_rampAcc (x : Voice) :
    (faderStop x).rampAcc = x.rampAcc := rfl

@[simp] theorem faderStop_trackSize (x : Voice) :
    (faderStop x).trackSize = x.trackSize := rfl

@[simp] theorem faderStop_triggerTs (x : Voice) :
    (faderStop x).triggerTs = x.triggerTs := rfl

@[simp] theorem faderStop_comp (x : Voice) :
    (faderStop x).comp = x.comp := rfl

@[simp] theorem faderStop_pcm (x : Voice) :
    (faderStop x).pcm = x.pcm := rfl

@[simp] theorem finalize_state (x : Voice) :
    x.finalize.state = .available := rfl

@[simp] theorem finalize_flags (x : Voice) :
    x.finalize.flags = finalizedFlags x.flags := rfl

@[simp] theorem finalize_compWr (x : Voice) :
    x.finalize.compWr = 0 := rfl

@[simp] theorem finalize_compRd (x : Voice) :
    x.finalize.compRd = 0 := rfl

@[simp] theorem finalize_pcmWr (x : Voice) :
    x.finalize.pcmWr = 0 := rfl

@[simp] theorem finalize_pcmRd (x : Voice) :
    x.finalize.pcmRd = 0 := rfl

@[simp] theorem finalize_bytesRead (x : Voice) :
    x.finalize.bytesRead = 0 := rfl

@[simp] theorem finalize_bytesDeliv (x : Voice) :
    x.finalize.bytesDeliv = 0 := rfl

@[simp] theorem finalize_framesPlayed (x : Voice) :
    x.finalize.framesPlayed = 0 := rfl

@[simp] theorem finalize_gainIdx (x : Voice) :
    x.finalize.gainIdx = 0 := rfl

@[simp] theorem finalize_gainLin (x : Voice) :
    x.finalize.gainLin = 0 := rfl

@[simp] theorem finalize_faderCtl (x : Voice) :
    x.finalize.faderCtl = FaderCtl.clear := rfl

@[simp] theorem finalize_target (x : Voice) :
    x.finalize.target = 0 := rfl

@[simp] theorem finalize_rampDelta (x : Voice) :
    x.finalize.rampDelta = 0 := rfl

@[simp] theorem finalize_rampAcc (x : Voice) :
    x.finalize.rampAcc = 0 := rfl

@[simp] theorem finalize_trackSize (x : Voice) :
    x.finalize.trackSize = 0 := rfl

@[simp] theorem finalize_triggerTs (x : Voice) :
    x.finalize.triggerTs = 0 := rfl

@[simp] theorem finalize_comp (x : Voice) :
    x.finalize.comp = [] := rfl

@[simp] theorem finalize_pcm (x : Voice) :
    x.finalize.pcm = [] := rfl

@[simp] theorem drainedVoice_state (c : Config) (x : Voice) (avail lin : Nat) :
    (drainedVoice c x avail lin).state = x.state := rfl

@[simp] theorem drainedVoice_flags (c : Config) (x : Voice) (avail lin : Nat) :
    (drainedVoice c x avail lin).flags = x.flags := rfl

@[simp] theorem drainedVoice_compWr (c : Config) (x : Voice) (avail lin : Nat) :
    (drainedVoice c x avail lin).compWr = x.compWr := rfl

@[simp] theorem drainedVoice_compRd (c : Config) (x : Voice) (avail lin : Nat) :
    (drainedVoice c x avail lin).compRd = x.compRd := rfl

@[simp] theorem drainedVoice_pcmWr (c : Config) (x : Voice) (avail lin : Nat) :
    (drainedVoice c x avail lin).pcmWr = BitVec.ofNat 32 x.pcmWr.toNat := rfl

@[simp] theorem drainedVoice_pcmRd (c : Config) (x : Voice) (avail lin : Nat) :
    (drainedVoice c x avail lin).pcmRd = BitVec.ofNat 32 ((x.pcmRd.toNat + (x.pcmRing c).readCount avail) % c.cPcm) := rfl

@[simp] theorem drainedVoice_bytesRead (c : Config) (x : Voice) (avail lin : Nat) :
    (drainedVoice c x avail lin).bytesRead = x.bytesRead := rfl

@[simp] theorem drainedVoice_bytesDeliv (c : Config) (x : Voice) (avail lin : Nat) :
    (drainedVoice c x avail lin).bytesDeliv = x.bytesDeliv := rfl

@[simp] theorem drainedVoice_framesPlayed (c : Config) (x : Voice) (avail lin : Nat) :
    (drainedVoice c x avail lin).framesPlayed = BitVec.ofNat 32 (satadd32 x.framesPlayed.toNat avail) := rfl

@[simp] theorem drainedVoice_gainIdx (c : Config) (x : Voice) (avail lin : Nat) :
    (drainedVoice c x avail lin).gainIdx = x.gainIdx := rfl

@[simp] theorem drainedVoice_gainLin (c : Config) (x : Voice) (avail lin : Nat) :
    (drainedVoice c x avail lin).gainLin = BitVec.ofNat 32 lin := rfl

@[simp] theorem drainedVoice_faderCtl (c : Config) (x : Voice) (avail lin : Nat) :
    (drainedVoice c x avail lin).faderCtl = x.faderCtl := rfl

@[simp] theorem drainedVoice_target (c : Config) (x : Voice) (avail lin : Nat) :
    (drainedVoice c x avail lin).target = x.target := rfl

@[simp] theorem drainedVoice_rampDelta (c : Config) (x : Voice) (avail lin : Nat) :
    (drainedVoice c x avail lin).rampDelta = x.rampDelta := rfl

@[simp] theorem drainedVoice_rampAcc (c : Config) (x : Voice) (avail lin : Nat) :
    (drainedVoice c x avail lin).rampAcc = x.rampAcc := rfl

@[simp] theorem drainedVoice_trackSize (c : Config) (x : Voice) (avail lin : Nat) :
    (drainedVoice c x avail lin).trackSize = x.trackSize := rfl

@[simp] theorem drainedVoice_triggerTs (c : Config) (x : Voice) (avail lin : Nat) :
    (drainedVoice c x avail lin).triggerTs = x.triggerTs := rfl

@[simp] theorem drainedVoice_comp (c : Config) (x : Voice) (avail lin : Nat) :
    (drainedVoice c x avail lin).comp = x.comp := rfl

@[simp] theorem drainedVoice_pcm (c : Config) (x : Voice) (avail lin : Nat) :
    (drainedVoice c x avail lin).pcm = x.pcm := rfl

@[simp] theorem ingestBlock_state (c : Config) (x : Voice) (block : List Byte) :
    (ingestBlock c x block).state = x.state := rfl

@[simp] theorem ingestBlock_flags (c : Config) (x : Voice) (block : List Byte) :
    (ingestBlock c x block).flags = { x.flags with endOfFile := x.flags.endOfFile || decide (x.bytesRead + BitVec.ofNat 32 (x.validBytes c) = x.trackSize) } := rfl

@[simp] theorem ingestBlock_compWr (c : Config) (x : Voice) (block : List Byte) :
    (ingestBlock c x block).compWr = BitVec.ofNat 32 ((x.compWr.toNat + block.length) % c.cComp) := rfl

@[simp] theorem ingestBlock_compRd (c : Config) (x : Voice) (block : List Byte) :
    (ingestBlock c x block).compRd = BitVec.ofNat 32 x.compRd.toNat := rfl

@[simp] theorem ingestBlock_pcmWr (c : Config) (x : Voice) (block : List Byte) :
    (ingestBlock c x block).pcmWr = x.pcmWr := rfl

@[simp] theorem ingestBlock_pcmRd (c : Config) (x : Voice) (block : List Byte) :
    (ingestBlock c x block).pcmRd = x.pcmRd := rfl

@[simp] theorem ingestBlock_bytesRead (c : Config) (x : Voice) (block : List Byte) :
    (ingestBlock c x block).bytesRead = x.bytesRead + BitVec.ofNat 32 (x.validBytes c) := rfl

@[simp] theorem ingestBlock_bytesDeliv (c : Config) (x : Voice) (block : List Byte) :
    (ingestBlock c x block).bytesDeliv = x.bytesDeliv := rfl

@[simp] theorem ingestBlock_framesPlayed (c : Config) (x : Voice) (block : List Byte) :
    (ingestBlock c x block).framesPlayed = x.framesPlayed := rfl

@[simp] theorem ingestBlock_gainIdx (c : Config) (x : Voice) (block : List Byte) :
    (ingestBlock c x block).gainIdx = x.gainIdx := rfl

@[simp] theorem ingestBlock_gainLin (c : Config) (x : Voice) (block : List Byte) :
    (ingestBlock c x block).gainLin = x.gainLin := rfl

@[simp] theorem ingestBlock_faderCtl (c : Config) (x : Voice) (block : List Byte) :
    (ingestBlock c x block).faderCtl = x.faderCtl := rfl

@[simp] theorem ingestBlock_target (c : Config) (x : Voice) (block : List Byte) :
    (ingestBlock c x block).target = x.target := rfl

@[simp] theorem ingestBlock_rampDelta (c : Config) (x : Voice) (block : List Byte) :
    (ingestBlock c x block).rampDelta = x.rampDelta := rfl

@[simp] theorem ingestBlock_rampAcc (c : Config) (x : Voice) (block : List Byte) :
    (ingestBlock c x block).rampAcc = x.rampAcc := rfl

@[simp] theorem ingestBlock_trackSize (c : Config) (x : Voice) (block : List Byte) :
    (ingestBlock c x block).trackSize = x.trackSize := rfl

@[simp] theorem ingestBlock_triggerTs (c : Config) (x : Voice) (block : List Byte) :
    (ingestBlock c x block).triggerTs = x.triggerTs := rfl

@[simp] theorem ingestBlock_comp (c : Config) (x : Voice) (block : List Byte) :
    (ingestBlock c x block).comp = writeCells c.cComp x.comp x.compWr.toNat block := rfl

@[simp] theorem ingestBlock_pcm (c : Config) (x : Voice) (block : List Byte) :
    (ingestBlock c x block).pcm = x.pcm := rfl

@[simp] theorem fetchBytes_state (c : Config) (x : Voice) (k : Nat) :
    (fetchBytes c x k).state = x.state := rfl

@[simp] theorem fetchBytes_flags (c : Config) (x : Voice) (k : Nat) :
    (fetchBytes c x k).flags = x.flags := rfl

@[simp] theorem fetchBytes_compWr (c : Config) (x : Voice) (k : Nat) :
    (fetchBytes c x k).compWr = BitVec.ofNat 32 x.compWr.toNat := rfl

@[simp] theorem fetchBytes_compRd (c : Config) (x : Voice) (k : Nat) :
    (fetchBytes c x k).compRd = BitVec.ofNat 32 ((x.compRd.toNat + (x.compRing c).readCount k) % c.cComp) := rfl

@[simp] theorem fetchBytes_pcmWr (c : Config) (x : Voice) (k : Nat) :
    (fetchBytes c x k).pcmWr = x.pcmWr := rfl

@[simp] theorem fetchBytes_pcmRd (c : Config) (x : Voice) (k : Nat) :
    (fetchBytes c x k).pcmRd = x.pcmRd := rfl

@[simp] theorem fetchBytes_bytesRead (c : Config) (x : Voice) (k : Nat) :
    (fetchBytes c x k).bytesRead = x.bytesRead := rfl

@[simp] theorem fetchBytes_bytesDeliv (c : Config) (x : Voice) (k : Nat) :
    (fetchBytes c x k).bytesDeliv = x.bytesDeliv + BitVec.ofNat 32 k := rfl

@[simp] theorem fetchBytes_framesPlayed (c : Config) (x : Voice) (k : Nat) :
    (fetchBytes c x k).framesPlayed = x.framesPlayed := rfl

@[simp] theorem fetchBytes_gainIdx (c : Config) (x : Voice) (k : Nat) :
    (fetchBytes c x k).gainIdx = x.gainIdx := rfl

@[simp] theorem fetchBytes_gainLin (c : Config) (x : Voice) (k : Nat) :
    (fetchBytes c x k).gainLin = x.gainLin := rfl

@[simp] theorem fetchBytes_faderCtl (c : Config) (x : Voice) (k : Nat) :
    (fetchBytes c x k).faderCtl = x.faderCtl := rfl

@[simp] theorem fetchBytes_target (c : Config) (x : Voice) (k : Nat) :
    (fetchBytes c x k).target = x.target := rfl

@[simp] theorem fetchBytes_rampDelta (c : Config) (x : Voice) (k : Nat) :
    (fetchBytes c x k).rampDelta = x.rampDelta := rfl

@[simp] theorem fetchBytes_rampAcc (c : Config) (x : Voice) (k : Nat) :
    (fetchBytes c x k).rampAcc = x.rampAcc := rfl

@[simp] theorem fetchBytes_trackSize (c : Config) (x : Voice) (k : Nat) :
    (fetchBytes c x k).trackSize = x.trackSize := rfl

@[simp] theorem fetchBytes_triggerTs (c : Config) (x : Voice) (k : Nat) :
    (fetchBytes c x k).triggerTs = x.triggerTs := rfl

@[simp] theorem fetchBytes_comp (c : Config) (x : Voice) (k : Nat) :
    (fetchBytes c x k).comp = x.comp := rfl

@[simp] theorem fetchBytes_pcm (c : Config) (x : Voice) (k : Nat) :
    (fetchBytes c x k).pcm = x.pcm := rfl

/-! ### The parts of a ring -/

@[simp] theorem compRing_cap (c : Config) (x : Voice) :
    (x.compRing c).cap = c.cComp := rfl

@[simp] theorem compRing_mem (c : Config) (x : Voice) :
    (x.compRing c).mem = x.comp := rfl

@[simp] theorem compRing_wr (c : Config) (x : Voice) :
    (x.compRing c).wr = x.compWr.toNat := rfl

@[simp] theorem compRing_rd (c : Config) (x : Voice) :
    (x.compRing c).rd = x.compRd.toNat := rfl

@[simp] theorem pcmRing_cap (c : Config) (x : Voice) :
    (x.pcmRing c).cap = c.cPcm := rfl

@[simp] theorem pcmRing_mem (c : Config) (x : Voice) :
    (x.pcmRing c).mem = x.pcm := rfl

@[simp] theorem pcmRing_wr (c : Config) (x : Voice) :
    (x.pcmRing c).wr = x.pcmWr.toNat := rfl

@[simp] theorem pcmRing_rd (c : Config) (x : Voice) :
    (x.pcmRing c).rd = x.pcmRd.toNat := rfl

@[simp] theorem write_cap {w : Nat} (b : RingBuffer w) (src : List (BitVec w)) :
    (b.write src).cap = b.cap := rfl

@[simp] theorem write_mem {w : Nat} (b : RingBuffer w) (src : List (BitVec w)) :
    (b.write src).mem = writeCells b.cap b.mem b.wr src := rfl

@[simp] theorem write_wr {w : Nat} (b : RingBuffer w) (src : List (BitVec w)) :
    (b.write src).wr = (b.wr + src.length) % b.cap := rfl

@[simp] theorem write_rd {w : Nat} (b : RingBuffer w) (src : List (BitVec w)) :
    (b.write src).rd = b.rd := rfl

@[simp] theorem afterRead_cap {w : Nat} (b : RingBuffer w) (n : Nat) :
    (b.afterRead n).cap = b.cap := rfl

@[simp] theorem afterRead_mem {w : Nat} (b : RingBuffer w) (n : Nat) :
    (b.afterRead n).mem = b.mem := rfl

@[simp] theorem afterRead_wr {w : Nat} (b : RingBuffer w) (n : Nat) :
    (b.afterRead n).wr = b.wr := rfl

@[simp] theorem afterRead_rd {w : Nat} (b : RingBuffer w) (n : Nat) :
    (b.afterRead n).rd = (b.rd + b.readCount n) % b.cap := rfl

/-! ### The flag updates -/

@[simp] theorem idle_active (f : FaderCtl) :
    f.idle.active = false := rfl

@[simp] theorem idle_stopOnComplete (f : FaderCtl) :
    f.idle.stopOnComplete = f.stopOnComplete := rfl

@[simp] theorem idle_up (f : FaderCtl) :
    f.idle.up = f.up := rfl

@[simp] theorem idle_shortFadeMode (f : FaderCtl) :
    f.idle.shortFadeMode = 0 := rfl

@[simp] theorem idle_shortFadeCompleted (f : FaderCtl) :
    f.idle.shortFadeCompleted = false := rfl

@[simp] theorem finalizedFlags_loop (f : VoiceFlags) :
    (finalizedFlags f).loop = false := rfl

@[simp] theorem finalizedFlags_lock (f : VoiceFlags) :
    (finalizedFlags f).lock = false := rfl

@[simp] theorem finalizedFlags_stopRequested (f : VoiceFlags) :
    (finalizedFlags f).stopRequested = false := rfl

@[simp] theorem finalizedFlags_endOfFile (f : VoiceFlags) :
    (finalizedFlags f).endOfFile = false := rfl

@[simp] theorem finalizedFlags_streamError (f : VoiceFlags) :
    (finalizedFlags f).streamError = f.streamError := rfl

end Sys2Proof.Machine
end

