-- ==== Sys2Proof/Laws/Ops.lean ====
section
/-! SUPPORT. One lemma per shared operation that says everything it can do: handles, the checks of R97, the port,
the configuration's facts, the gain table, the fader service. -/
namespace Sys2Proof.Machine

/-! ### Handles and the checks of R97 -/

theorem slot?_some (s : State) (v : Nat) (x : Voice) :
    s.slot? v = some x ↔ v < s.cfg.maxVoices ∧ s.voices[v]? = some x := by
  unfold State.slot?
  split
  · rename_i h
    exact ⟨fun e => ⟨h, e⟩, fun e => e.2⟩
  · rename_i h
    exact ⟨fun e => (nomatch e), fun e => absurd e.1 h⟩

theorem handle?_some (s : State) (v : Nat) (x : Voice) :
    s.handle? v = some x ↔ v < s.cfg.maxVoices ∧ s.voices[v]? = some x ∧ x.state ≠ .available := by
  constructor
  · intro h
    unfold State.handle? at h
    split at h
    · rename_i y hy
      split at h
      · exact nomatch h
      · rename_i hne
        injection h with h
        subst h
        have := (slot?_some s v y).1 hy
        exact ⟨this.1, this.2, hne⟩
    · exact nomatch h
  · rintro ⟨hv, hx, hne⟩
    simp only [State.handle?, (slot?_some s v x).2 ⟨hv, hx⟩, if_neg hne]

/-- What `Serves` gives a format-V operation. -/
theorem serves_handle? {s : State} {v : BitVec 8} {x : Voice} (h : s.Serves v x) :
    s.handle? v.toNat = some x := (handle?_some s v.toNat x).2 h.2

theorem noHandle_handle? {s : State} {v : BitVec 8} (h : s.NoHandle v) : s.handle? v.toNat = none := by
  cases e : s.handle? v.toNat with
  | none => rfl
  | some x =>
    obtain ⟨h1, h2, h3⟩ := (handle?_some s v.toNat x).1 e
    rcases h with h | ⟨y, hy, hya⟩
    · omega
    · rw [h2] at hy
      injection hy with hy
      exact absurd (hy ▸ hya) h3

theorem whenRunning_running (s : State) (k : Host.Outcome State Fault Refusal) (h : s.halted = false) :
    s.whenRunning k = k := by simp [State.whenRunning, h]

theorem whenRunning_halted (s : State) (k : Host.Outcome State Fault Refusal) (h : s.halted = true) :
    s.whenRunning k = .next (s.error .storageError) := by simp [State.whenRunning, h]

/-- Everything `whenRunning` can do when a next state comes out. -/
theorem whenRunning_next {s t : State} {k : Host.Outcome State Fault Refusal} (h : s.whenRunning k = .next t) :
    (s.halted = true ∧ t = s.error .storageError) ∨ (s.halted = false ∧ k = .next t) := by
  unfold State.whenRunning at h
  split at h
  · rename_i hh
    injection h with h
    exact .inl ⟨hh, h.symm⟩
  · rename_i hh
    exact .inr ⟨by simpa using hh, h⟩

theorem onHandle_serves {s : State} {v : BitVec 8} {x : Voice} (h : s.Serves v x)
    (k : Voice → Host.Outcome State Fault Refusal) : s.onHandle v.toNat k = k x := by
  rw [State.onHandle, whenRunning_running _ _ h.1, serves_handle? h]

theorem onHandle_noHandle {s : State} {v : BitVec 8} (hr : s.halted = false) (h : s.NoHandle v)
    (k : Voice → Host.Outcome State Fault Refusal) :
    s.onHandle v.toNat k = .next (s.error .badIndex) := by
  rw [State.onHandle, whenRunning_running _ _ hr, noHandle_handle? h]

theorem onHandle_halted (s : State) (v : Nat) (k : Voice → Host.Outcome State Fault Refusal)
    (h : s.halted = true) : s.onHandle v k = .next (s.error .storageError) :=
  whenRunning_halted _ _ h

/-- Everything `onHandle` can do when a next state comes out. -/
theorem onHandle_next {s t : State} {v : Nat} {k : Voice → Host.Outcome State Fault Refusal}
    (h : s.onHandle v k = .next t) :
    (s.halted = true ∧ t = s.error .storageError) ∨
    (s.halted = false ∧ s.handle? v = none ∧ t = s.error .badIndex) ∨
    (s.halted = false ∧ ∃ x, s.handle? v = some x ∧ k x = .next t) := by
  rcases whenRunning_next h with h | ⟨hr, h⟩
  · exact .inl h
  · split at h
    · rename_i x hx
      exact .inr (.inr ⟨hr, x, hx, h⟩)
    · rename_i hx
      injection h with h
      exact .inr (.inl ⟨hr, hx, h.symm⟩)

/-- Everything `withSpace` can do when a next state comes out. -/
theorem withSpace_next {space : Bool} {k : Host.Outcome State Fault Refusal} {t : State}
    (h : withSpace space k = .next t) : space = true ∧ k = .next t := by
  cases space with
  | true => exact ⟨rfl, h⟩
  | false => exact nomatch h

@[simp] theorem withSpace_true (k : Host.Outcome State Fault Refusal) : withSpace true k = k := rfl
@[simp] theorem withSpace_false (k : Host.Outcome State Fault Refusal) :
    withSpace false k = .refused .writeWithoutSpace := rfl

/-- Everything a search for a free slot can find (R244). -/
theorem lowestFree_some (s : State) (v : Nat) :
    s.lowestFree = some v ↔ ∃ x, s.voices[v]? = some x ∧ x.state = .available ∧
      ∀ w y, w < v → s.voices[w]? = some y → y.state ≠ .available := by
  unfold State.lowestFree
  rw [List.findIdx?_eq_some_iff_getElem]
  constructor
  · rintro ⟨hv, hx, hlt⟩
    refine ⟨s.voices[v], by simp [hv], by simpa using hx, fun w y hw hy => ?_⟩
    have := hlt w hw
    rw [List.getElem?_eq_getElem (Nat.lt_trans hw hv)] at hy
    injection hy with hy
    simpa [hy] using this
  · rintro ⟨x, hx, hxa, hlt⟩
    obtain ⟨hv, hx'⟩ := List.getElem?_eq_some_iff.1 hx
    refine ⟨hv, by simpa [hx'] using hxa, fun w hw => ?_⟩
    have := hlt w s.voices[w] hw (by simp [Nat.lt_trans hw hv])
    simpa using this

theorem lowestFree_none (s : State) :
    s.lowestFree = none ↔ ∀ x ∈ s.voices, x.state ≠ .available := by
  simp [State.lowestFree, List.findIdx?_eq_none_iff]

/-! ### The port -/

/-- What a step does with a command waiting, under a well-formed configuration. -/
theorem step_pending (s : State) (cmd : Command) (rest : List Command) (hc : s.cfg.wf = true)
    (hp : s.pending = cmd :: rest) : step s = runCommand cmd { s with pending := rest } := by
  unfold step State.fetch
  rw [if_pos hc, hp]

/-- Everything a step can do when a next state comes out. -/
theorem step_next {s t : State} (h : step s = .next t) :
    s.cfg.wf = true ∧
    ((s.pending = [] ∧ t = s) ∨
      ∃ cmd rest, s.pending = cmd :: rest ∧
        ((∃ i, decode s.cfg cmd = .ok i ∧ exec i { s with pending := rest } = .next t) ∨
          ((∃ e, decode s.cfg cmd = .error e) ∧ t = ({ s with pending := rest } : State).illegal))) := by
  unfold step at h
  split at h
  · rename_i hc
    refine ⟨hc, ?_⟩
    cases hp : s.pending with
    | nil =>
      simp only [State.fetch, hp] at h
      injection h with h
      exact .inl ⟨rfl, h.symm⟩
    | cons cmd rest =>
      simp only [State.fetch, hp, runCommand] at h
      refine .inr ⟨cmd, rest, rfl, ?_⟩
      cases hd : decode s.cfg cmd with
      | ok i =>
        simp only [hd] at h
        exact .inl ⟨i, rfl, h⟩
      | error e =>
        simp only [hd] at h
        injection h with h
        exact .inr ⟨⟨e, rfl⟩, h.symm⟩
  · exact nomatch h

/-! ### The configuration and the gain table -/

/-- The ranges of R9 that arithmetic needs. -/
theorem config_wf_ranges {c : Config} (h : c.wf = true) :
    (1 ≤ c.maxVoices ∧ c.maxVoices ≤ 255) ∧ (3 ≤ c.q ∧ c.q ≤ 65535) ∧
    (-1000 ≤ c.minDb ∧ c.minDb ≤ -1) ∧ (1 ≤ c.z ∧ c.z ≤ c.n - 1) ∧
    (1 ≤ c.blockBytes ∧ c.blockBytes < 2 ^ 16) ∧
    (c.blockBytes + 1 ≤ c.cComp ∧ c.cComp < 2 ^ 31) ∧
    (1 ≤ c.decodeFrame ∧ c.decodeFrame < 2 ^ 16) ∧
    (c.decodeFrame + 1 ≤ c.cPcm ∧ c.cPcm < 2 ^ 31) ∧ c.romOk = true := by
  simp only [Config.wf, Bool.and_eq_true, decide_eq_true_eq] at h
  obtain ⟨⟨⟨⟨⟨⟨⟨⟨h1, h2⟩, h3⟩, h4⟩, h5⟩, h6⟩, h7⟩, h8⟩, h9⟩ := h
  exact ⟨h1, h2, h3, h4, h5, h6, h7, h8, h9⟩

/-- The table length as an integer: odd, between 3 and 2001 (R10 a). -/
theorem config_n_int {c : Config} (h : c.wf = true) : (c.n : Int) = 1 - 2 * c.minDb := by
  obtain ⟨-, -, h3, -⟩ := config_wf_ranges h
  unfold Config.n maxDb
  omega

theorem config_n_bounds {c : Config} (h : c.wf = true) : 3 ≤ c.n ∧ c.n ≤ 2001 := by
  have h1 := config_n_int h
  obtain ⟨-, -, h3, -⟩ := config_wf_ranges h
  omega

theorem dbToIndex_lt (c : Config) (db : Int) (h : c.wf = true) : dbToIndex c db < c.n := by
  have := config_n_bounds h
  simp only [dbToIndex]
  omega

/-- The parts of R141. -/
theorem config_rom {c : Config} (h : c.wf = true) :
    c.gainRom.length = c.n ∧ (∀ a ∈ c.gainRom, a ≤ unity) ∧ nondecreasing c.gainRom = true ∧
    c.gainRom[c.n - 1]? = some unity ∧ (∀ a ∈ c.gainRom.take c.z, a = 0) := by
  obtain ⟨-, -, -, -, -, -, -, -, h9⟩ := config_wf_ranges h
  simp only [Config.romOk, Bool.and_eq_true, decide_eq_true_eq, List.all_eq_true] at h9
  obtain ⟨⟨⟨⟨h1, h2⟩, h3⟩, h4⟩, h5⟩ := h9
  exact ⟨h1, h2, h3, h4, h5⟩

/-- An index inside the table has an amplitude, at most unity. -/
theorem indexToLinear_lt {c : Config} (h : c.wf = true) {i : Nat} (hi : i < c.n) :
    ∃ lin, indexToLinear c i = some lin ∧ lin ≤ unity := by
  obtain ⟨h1, h2, -⟩ := config_rom h
  have hi' : i < c.gainRom.length := by omega
  exact ⟨c.gainRom[i], by simp [indexToLinear, hi'], h2 _ (List.getElem_mem hi')⟩

theorem indexToLinear_le_unity {c : Config} (h : c.wf = true) {i lin : Nat}
    (hl : indexToLinear c i = some lin) : lin ≤ unity := by
  obtain ⟨-, h2, -⟩ := config_rom h
  exact h2 _ (List.mem_of_getElem? hl)

/-- Silence at index 0. -/
theorem indexToLinear_zero {c : Config} (h : c.wf = true) : indexToLinear c 0 = some 0 := by
  obtain ⟨h1, -, -, -, h5⟩ := config_rom h
  obtain ⟨-, -, -, hz, -⟩ := config_wf_ranges h
  have hn := config_n_bounds h
  have h0 : 0 < c.gainRom.length := by omega
  have : c.gainRom[0] = 0 := h5 _ (by
    rw [List.mem_take_iff_getElem]
    exact ⟨0, by omega, rfl⟩)
  simp [indexToLinear, h0, this]

/-- A non-decreasing table, entry by entry. -/
theorem nondecreasing_getElem (l : List Nat) (h : nondecreasing l = true) (i j : Nat) (hij : i ≤ j)
    (hj : j < l.length) : l[i] ≤ l[j] := by
  induction l generalizing i j with
  | nil => simp at hj
  | cons x rest ih =>
    cases rest with
    | nil =>
      simp only [List.length_singleton] at hj
      have : i = 0 := by omega
      have : j = 0 := by omega
      subst_vars
      exact Nat.le_refl _
    | cons y rest =>
      simp only [nondecreasing, Bool.and_eq_true, decide_eq_true_eq] at h
      cases j with
      | zero =>
        have : i = 0 := by omega
        subst this
        exact Nat.le_refl _
      | succ j =>
        have hj' : j < (y :: rest).length := by simpa using hj
        cases i with
        | zero =>
          have := ih h.2 0 j (Nat.zero_le _) hj'
          simp only [List.getElem_cons_zero, List.getElem_cons_succ] at *
          exact Nat.le_trans h.1 this
        | succ i =>
          simpa using ih h.2 i j (by omega) hj'

/-! ### The fader service -/

/-- Everything the fader service can do (R162, R165). -/
theorem faderService_cases (x : Voice) :
    (x.faderCtl.active = false ∧ faderService x = (x, false)) ∨
    (x.faderCtl.active = true ∧ x.faderCtl.shortFadeMode ≠ 0 ∧ x.faderCtl.shortFadeCompleted = true ∧
      faderService x = ({ x with faderCtl := x.faderCtl.idle }, x.faderCtl.stopOnComplete)) ∨
    (x.faderCtl.active = true ∧ x.faderCtl.shortFadeMode ≠ 0 ∧ x.faderCtl.shortFadeCompleted = false ∧
      faderService x =
        ({ x with gainIdx := x.target, faderCtl := { x.faderCtl with shortFadeCompleted := true } }, false)) ∨
    (x.faderCtl.active = true ∧ x.faderCtl.shortFadeMode = 0 ∧ x.faderCtl.up = true ∧
      x.target.toNat ≤ x.gainIdx.toNat ∧
      faderService x = ({ x with faderCtl := { x.faderCtl with active := false } }, x.faderCtl.stopOnComplete)) ∨
    (x.faderCtl.active = true ∧ x.faderCtl.shortFadeMode = 0 ∧ x.faderCtl.up = true ∧
      x.gainIdx.toNat < x.target.toNat ∧
      faderService x =
        ({ x with
            rampAcc := BitVec.ofNat 32 (satadd32 x.rampAcc.toNat x.rampDelta.toNat)
            gainIdx := BitVec.ofNat 16
              (min (intpart (satadd32 x.rampAcc.toNat x.rampDelta.toNat)) x.target.toNat) }, false)) ∨
    (x.faderCtl.active = true ∧ x.faderCtl.shortFadeMode = 0 ∧ x.faderCtl.up = false ∧
      x.gainIdx.toNat ≤ x.target.toNat ∧
      faderService x = ({ x with faderCtl := { x.faderCtl with active := false } }, x.faderCtl.stopOnComplete)) ∨
    (x.faderCtl.active = true ∧ x.faderCtl.shortFadeMode = 0 ∧ x.faderCtl.up = false ∧
      x.target.toNat < x.gainIdx.toNat ∧
      faderService x =
        ({ x with
            rampAcc := BitVec.ofNat 32 (satsub0 x.rampAcc.toNat x.rampDelta.toNat)
            gainIdx := BitVec.ofNat 16
              (max (intpart (satsub0 x.rampAcc.toNat x.rampDelta.toNat)) x.target.toNat) }, false)) := by
  unfold faderService
  by_cases ha : x.faderCtl.active = true
  · rw [if_pos ha]
    by_cases hm : x.faderCtl.shortFadeMode = 0
    · rw [if_neg (by simpa using hm)]
      by_cases hu : x.faderCtl.up = true
      · rw [if_pos hu]
        unfold serviceUp
        by_cases ht : x.target.toNat ≤ x.gainIdx.toNat
        · rw [if_pos ht]
          exact .inr (.inr (.inr (.inl ⟨ha, hm, hu, ht, rfl⟩)))
        · rw [if_neg ht]
          exact .inr (.inr (.inr (.inr (.inl ⟨ha, hm, hu, by omega, rfl⟩))))
      · rw [if_neg hu]
        unfold serviceDown
        have hu' : x.faderCtl.up = false := by simpa using hu
        by_cases ht : x.gainIdx.toNat ≤ x.target.toNat
        · rw [if_pos ht]
          exact .inr (.inr (.inr (.inr (.inr (.inl ⟨ha, hm, hu', ht, rfl⟩)))))
        · rw [if_neg ht]
          exact .inr (.inr (.inr (.inr (.inr (.inr ⟨ha, hm, hu', by omega, rfl⟩)))))
    · rw [if_pos hm]
      unfold serviceShort
      by_cases hc : x.faderCtl.shortFadeCompleted = true
      · rw [if_pos hc]
        exact .inr (.inl ⟨ha, hm, hc, rfl⟩)
      · rw [if_neg hc]
        exact .inr (.inr (.inl ⟨ha, hm, by simpa using hc, rfl⟩))
  · rw [if_neg ha]
    exact .inl ⟨by simpa using ha, rfl⟩

/-- The frame of the fader service: it writes the fader control, the gain index and the ramp accumulator. -/
theorem faderService_frame (x : Voice) :
    (faderService x).1 =
      { x with
        faderCtl := (faderService x).1.faderCtl
        gainIdx := (faderService x).1.gainIdx
        rampAcc := (faderService x).1.rampAcc } := by
  rcases faderService_cases x with h | h | h | h | h | h | h
  · rw [h.2]
  · rw [h.2.2.2]
  · rw [h.2.2.2]
  · rw [h.2.2.2.2]
  · rw [h.2.2.2.2]
  · rw [h.2.2.2.2]
  · rw [h.2.2.2.2]

end Sys2Proof.Machine
end

