-- ==== Sys2Proof/Laws/Memory.lean ====
section
/-! SUPPORT. The laws of a memory: a read after a write, the frame of a write, and that every operation keeps
the canonical form and the capacity. -/
namespace Sys2Proof.Machine

variable {w : Nat}

@[simp] theorem memory_read_nil (i : Nat) : Memory.read ([] : Memory w) i = 0 := rfl

theorem memory_read_listed (j : Nat) (y : BitVec w) (rest : Memory w) (i : Nat) :
    Memory.read ((j, y) :: rest) i = if i = j then y else Memory.read rest i := rfl

/-- A memory lists nothing at `i`: it reads 0 there. -/
theorem memory_read_unlisted (m : Memory w) (i : Nat) (h : ∀ p ∈ m, p.1 ≠ i) : Memory.read m i = 0 := by
  induction m with
  | nil => rfl
  | cons p rest ih =>
    obtain ⟨j, y⟩ := p
    have hj : j ≠ i := h (j, y) (by simp)
    rw [memory_read_listed, if_neg (fun e => hj e.symm)]
    exact ih (fun q hq => h q (by simp [hq]))

theorem memory_cons_zero (i : Nat) (m : Memory w) : Memory.cons i 0 m = m := if_pos rfl

theorem memory_cons_nonzero (i : Nat) (x : BitVec w) (m : Memory w) (h : x ≠ 0) :
    Memory.cons i x m = (i, x) :: m := if_neg h

theorem memory_read_cons (i : Nat) (x : BitVec w) (m : Memory w) (a : Nat)
    (h : ∀ p ∈ m, p.1 ≠ i) :
    Memory.read (Memory.cons i x m) a = if a = i then x else Memory.read m a := by
  by_cases hx : x = 0
  · subst hx
    rw [memory_cons_zero]
    by_cases ha : a = i
    · rw [if_pos ha, ha, memory_read_unlisted m i h]
    · rw [if_neg ha]
  · rw [memory_cons_nonzero i x m hx, memory_read_listed]

/-- The canonical form of a memory with a listed first cell. -/
theorem memory_wf_listed (j : Nat) (y : BitVec w) (rest : Memory w) :
    Memory.wf ((j, y) :: rest) = true ↔
      y ≠ 0 ∧ (∀ p ∈ rest, j < p.1) ∧ Memory.wf rest = true := by
  simp [Memory.wf, and_assoc]

theorem memory_wf_cons (i : Nat) (x : BitVec w) (m : Memory w) (h : ∀ p ∈ m, i < p.1)
    (hm : Memory.wf m = true) : Memory.wf (Memory.cons i x m) = true := by
  by_cases hx : x = 0
  · rwa [hx, memory_cons_zero]
  · rw [memory_cons_nonzero i x m hx]
    exact (memory_wf_listed i x m).2 ⟨hx, h, hm⟩

theorem memory_mem_cons {i : Nat} {x : BitVec w} {m : Memory w} {p : Nat × BitVec w}
    (h : p ∈ Memory.cons i x m) : p = (i, x) ∨ p ∈ m := by
  by_cases hx : x = 0
  · rw [hx, memory_cons_zero] at h
    exact .inr h
  · rw [memory_cons_nonzero i x m hx] at h
    exact List.mem_cons.1 h

/-- What a write lists: the cell written, or what was listed before. -/
theorem memory_mem_write {m : Memory w} {i : Nat} {x : BitVec w} {p : Nat × BitVec w}
    (h : p ∈ Memory.write m i x) : p = (i, x) ∨ p ∈ m := by
  induction m with
  | nil => exact memory_mem_cons h
  | cons q rest ih =>
    obtain ⟨j, y⟩ := q
    simp only [Memory.write] at h
    split at h
    · exact memory_mem_cons h
    · split at h
      · rcases memory_mem_cons h with h | h
        · exact .inl h
        · exact .inr (by simp [h])
      · rcases List.mem_cons.1 h with h | h
        · exact .inr (by simp [h])
        · rcases ih h with h | h
          · exact .inl h
          · exact .inr (by simp [h])

/-- A write keeps the canonical form. -/
theorem memory_wf_write (m : Memory w) (i : Nat) (x : BitVec w) (h : Memory.wf m = true) :
    Memory.wf (Memory.write m i x) = true := by
  induction m with
  | nil => exact memory_wf_cons i x [] (by simp) rfl
  | cons q rest ih =>
    obtain ⟨j, y⟩ := q
    obtain ⟨hy, hlt, hrest⟩ := (memory_wf_listed j y rest).1 h
    simp only [Memory.write]
    split
    · rename_i hij
      refine memory_wf_cons i x _ (fun p hp => ?_) h
      rcases List.mem_cons.1 hp with rfl | hp
      · exact hij
      · exact Nat.lt_trans hij (hlt p hp)
    · split
      · rename_i hij
        subst hij
        exact memory_wf_cons i x rest hlt hrest
      · refine (memory_wf_listed _ _ _).2 ⟨hy, fun p hp => ?_, ih hrest⟩
        rcases memory_mem_write hp with rfl | hp
        · simp only at *; omega
        · exact hlt p hp

/-- Read after write, and the frame of a write. -/
theorem memory_read_write (m : Memory w) (i : Nat) (x : BitVec w) (a : Nat) (h : Memory.wf m = true) :
    Memory.read (Memory.write m i x) a = if a = i then x else Memory.read m a := by
  induction m with
  | nil => exact memory_read_cons i x [] a (by simp)
  | cons q rest ih =>
    obtain ⟨j, y⟩ := q
    obtain ⟨-, hlt, hrest⟩ := (memory_wf_listed j y rest).1 h
    simp only [Memory.write]
    split
    · rename_i hij
      refine memory_read_cons i x _ a (fun p hp => ?_)
      rcases List.mem_cons.1 hp with rfl | hp
      · exact Nat.ne_of_gt hij
      · exact Nat.ne_of_gt (Nat.lt_trans hij (hlt p hp))
    · split
      · rename_i hij
        subst hij
        rw [memory_read_cons i x rest a (fun p hp => Nat.ne_of_gt (hlt p hp))]
        by_cases ha : a = i
        · simp [ha]
        · simp [ha, memory_read_listed]
      · rename_i hlt' hne
        rw [memory_read_listed, memory_read_listed, ih hrest]
        by_cases ha : a = j
        · rw [if_pos ha, if_pos ha, if_neg (fun e => hne (e.symm.trans ha))]
        · rw [if_neg ha, if_neg ha]

theorem memory_within_write (cap : Nat) (m : Memory w) (i : Nat) (x : BitVec w) (hi : i < cap)
    (h : Memory.within cap m = true) : Memory.within cap (Memory.write m i x) = true := by
  simp only [Memory.within, List.all_eq_true, decide_eq_true_eq] at *
  intro p hp
  rcases memory_mem_write hp with rfl | hp
  · exact hi
  · exact h p hp

@[simp] theorem memory_wf_nil : Memory.wf ([] : Memory w) = true := rfl
@[simp] theorem memory_within_nil (cap : Nat) : Memory.within cap ([] : Memory w) = true := rfl

/-! ### The memory of a list of cells -/

theorem memory_mem_ofCells {k : Nat} {cells : List (BitVec w)} {p : Nat × BitVec w}
    (h : p ∈ Memory.ofCells k cells) : k ≤ p.1 ∧ p.1 < k + cells.length := by
  induction cells generalizing k with
  | nil => simp [Memory.ofCells] at h
  | cons x rest ih =>
    rcases memory_mem_cons h with rfl | h
    · simp
    · have := ih h
      simp only [List.length_cons]
      omega

theorem memory_wf_ofCells (k : Nat) (cells : List (BitVec w)) :
    Memory.wf (Memory.ofCells k cells) = true := by
  induction cells generalizing k with
  | nil => rfl
  | cons x rest ih =>
    exact memory_wf_cons k x _ (fun p hp => (memory_mem_ofCells hp).1) (ih (k + 1))

theorem memory_within_ofCells (cap : Nat) (cells : List (BitVec w)) (h : cells.length ≤ cap) :
    Memory.within cap (Memory.ofCells 0 cells) = true := by
  simp only [Memory.within, List.all_eq_true, decide_eq_true_eq]
  intro p hp
  have := memory_mem_ofCells hp
  omega

/-- The memory of a list of cells reads as the list. -/
theorem memory_read_ofCells (k : Nat) (cells : List (BitVec w)) (i : Nat) :
    Memory.read (Memory.ofCells k cells) (k + i) = cells.getD i 0 := by
  induction cells generalizing k i with
  | nil => simp [Memory.ofCells]
  | cons x rest ih =>
    have hne : ∀ p ∈ Memory.ofCells (k + 1) rest, p.1 ≠ k := fun p hp => by
      have := memory_mem_ofCells hp
      omega
    rw [Memory.ofCells, memory_read_cons k x _ _ hne]
    cases i with
    | zero => simp
    | succ i =>
      have : k + (i + 1) = k + 1 + i := by omega
      rw [if_neg (by omega), this, ih]
      simp

end Sys2Proof.Machine
end

