-- ==== Sys2Proof/Laws/Ring.lean ====
section
/-! SUPPORT. The laws of a ring buffer: the used space of cursors in range, what the write procedure stores, what a
read delivers, and that both keep the canonical form and the capacity of the memory. -/
namespace Sys2Proof.Machine

variable {w : Nat}

/-! ### Used and free space -/

/-- `used` as the integer remainder of R121. -/
theorem ring_used_int (b : RingBuffer w) (h : 0 < b.cap) :
    (b.used : Int) = ((b.wr : Int) - b.rd) % b.cap := by
  have h0 : 0 ≤ ((b.wr : Int) - b.rd) % b.cap := Int.emod_nonneg _ (by omega)
  exact Int.toNat_of_nonneg h0

theorem ring_used_lt (b : RingBuffer w) (h : 0 < b.cap) : b.used < b.cap := by
  have h1 := ring_used_int b h
  have h2 : ((b.wr : Int) - b.rd) % b.cap < b.cap := Int.emod_lt_of_pos _ (by omega)
  omega

/-- Cursors in range: the used space without a remainder. -/
theorem ring_used_cursors (b : RingBuffer w) (hw : b.wr < b.cap) (hr : b.rd < b.cap) :
    b.used = if b.rd ≤ b.wr then b.wr - b.rd else b.wr + b.cap - b.rd := by
  have h1 := ring_used_int b (by omega)
  split
  · rw [Int.emod_eq_of_lt (by omega) (by omega)] at h1
    omega
  · rw [← Int.add_emod_right, Int.emod_eq_of_lt (by omega) (by omega)] at h1
    omega

/-- Space in use and free space make up the capacity. -/
theorem ring_used_add_free (b : RingBuffer w) (h : 0 < b.cap) : b.used + b.free = b.cap := by
  have := ring_used_lt b h
  unfold RingBuffer.free
  omega

theorem ring_hasSpace_iff (b : RingBuffer w) (n : Nat) : b.hasSpace n = true ↔ n < b.free := by
  simp [RingBuffer.hasSpace]

/-- A count below the free space is below the capacity. -/
theorem ring_free_le_cap (b : RingBuffer w) : b.free ≤ b.cap := Nat.sub_le _ _

theorem ring_readCount_le_used (b : RingBuffer w) (n : Nat) : b.readCount n ≤ b.used := Nat.min_le_right _ _

theorem ring_readCount_of_le (b : RingBuffer w) (n : Nat) (h : n ≤ b.used) : b.readCount n = n :=
  Nat.min_eq_left h

@[simp] theorem ring_peek_length (b : RingBuffer w) (k : Nat) : (b.peek k).length = k := by simp [RingBuffer.peek]

@[simp] theorem ring_readCells_length (b : RingBuffer w) (n : Nat) :
    (b.readCells n).length = b.readCount n := by simp [RingBuffer.readCells]

theorem ring_peek_getElem? (b : RingBuffer w) (k i : Nat) (h : i < k) :
    (b.peek k)[i]? = some (Memory.read b.mem ((b.rd + i) % b.cap)) := by
  simp [RingBuffer.peek, h]

/-! ### Two cells of one ring -/

/-- Two positions less than a capacity apart are different cells. -/
theorem ring_index_inj {cap at_ i j : Nat} (hi : i < cap) (hj : j < cap)
    (h : (at_ + i) % cap = (at_ + j) % cap) : i = j := by
  have h1 : at_ + i ≡ at_ + j [MOD cap] := h
  have h2 : i ≡ j [MOD cap] := Nat.ModEq.add_left_cancel' at_ h1
  have h3 : i % cap = j % cap := h2
  rwa [Nat.mod_eq_of_lt hi, Nat.mod_eq_of_lt hj] at h3

/-! ### The write procedure -/

theorem writeCells_wf (cap : Nat) (m : Memory w) (at_ : Nat) (src : List (BitVec w))
    (h : Memory.wf m = true) : Memory.wf (writeCells cap m at_ src) = true := by
  induction src generalizing m at_ with
  | nil => exact h
  | cons x rest ih => exact ih _ _ (memory_wf_write m _ x h)

theorem writeCells_within (cap : Nat) (m : Memory w) (at_ : Nat) (src : List (BitVec w))
    (hcap : 0 < cap) (h : Memory.within cap m = true) :
    Memory.within cap (writeCells cap m at_ src) = true := by
  induction src generalizing m at_ with
  | nil => exact h
  | cons x rest ih => exact ih _ _ (memory_within_write cap m _ x (Nat.mod_lt _ hcap) h)

/-- The frame of the write procedure. -/
theorem writeCells_read_other (cap : Nat) (m : Memory w) (at_ : Nat) (src : List (BitVec w))
    (h : Memory.wf m = true) (a : Nat) (ha : ∀ i, i < src.length → a ≠ (at_ + i) % cap) :
    Memory.read (writeCells cap m at_ src) a = Memory.read m a := by
  induction src generalizing m at_ with
  | nil => rfl
  | cons x rest ih =>
    have h0 : a ≠ at_ % cap := ha 0 (by simp)
    have hrest : ∀ i, i < rest.length → a ≠ (at_ + 1 + i) % cap := fun i hi => by
      have := ha (i + 1) (by simp only [List.length_cons]; omega)
      rwa [show at_ + (i + 1) = at_ + 1 + i by omega] at this
    rw [writeCells, ih _ _ (memory_wf_write m _ x h) hrest, memory_read_write m _ x a h, if_neg h0]

/-- The cells the write procedure stores. -/
theorem writeCells_read_stored (cap : Nat) (m : Memory w) (at_ : Nat) (src : List (BitVec w))
    (h : Memory.wf m = true) (hlen : src.length ≤ cap) (i : Nat) (x : BitVec w)
    (hx : src[i]? = some x) : Memory.read (writeCells cap m at_ src) ((at_ + i) % cap) = x := by
  induction src generalizing m at_ i with
  | nil => simp at hx
  | cons y rest ih =>
    simp only [List.length_cons] at hlen
    rw [writeCells]
    cases i with
    | zero =>
      have hne : ∀ k, k < rest.length → (at_ + 0) % cap ≠ (at_ + 1 + k) % cap := fun k hk e => by
        rw [show at_ + 1 + k = at_ + (k + 1) by omega] at e
        have := ring_index_inj (by omega) (by omega) e
        omega
      rw [writeCells_read_other cap _ _ rest (memory_wf_write m _ y h) _ hne,
        memory_read_write m _ y _ h]
      simpa using hx
    | succ i =>
      have := ih (Memory.write m (at_ % cap) y) (at_ + 1) (memory_wf_write m _ y h) (by omega) i
        (by simpa using hx)
      rwa [show at_ + 1 + i = at_ + (i + 1) by omega] at this

/-- What the write procedure does to a memory, whole (R124). -/
theorem writeCells_storedAt (cap : Nat) (m : Memory w) (at_ : Nat) (src : List (BitVec w))
    (h : Memory.wf m = true) (hlen : src.length ≤ cap) :
    StoredAt cap at_ src m (writeCells cap m at_ src) :=
  ⟨fun i x hx => writeCells_read_stored cap m at_ src h hlen i x hx,
   fun a ha => writeCells_read_other cap m at_ src h a ha⟩

/-! ### The read procedure -/

/-- The used space after a read. -/
theorem ring_afterRead_used (b : RingBuffer w) (n : Nat) (hw : b.wr < b.cap) (hr : b.rd < b.cap) :
    (b.afterRead n).used = b.used - b.readCount n := by
  have hk := ring_readCount_le_used b n
  have hu := ring_used_cursors b hw hr
  have hm : (b.rd + b.readCount n) % b.cap < b.cap := Nat.mod_lt _ (by omega)
  have e : (b.afterRead n).used =
      if (b.rd + b.readCount n) % b.cap ≤ b.wr then b.wr - (b.rd + b.readCount n) % b.cap
      else b.wr + b.cap - (b.rd + b.readCount n) % b.cap := ring_used_cursors (b.afterRead n) hw hm
  rw [e]
  by_cases hc : b.rd + b.readCount n < b.cap
  · rw [Nat.mod_eq_of_lt hc]
    split <;> split at hu <;> omega
  · rw [Nat.mod_eq_sub_mod (by omega), Nat.mod_eq_of_lt (by split at hu <;> omega)]
    split <;> split at hu <;> omega

/-- The cells an empty read position on deliver are the old ones, `k` further on. -/
theorem ring_afterRead_peek (b : RingBuffer w) (n k : Nat) :
    (b.afterRead n).peek k =
      (List.range k).map (fun i => Memory.read b.mem ((b.rd + b.readCount n + i) % b.cap)) := by
  simp [RingBuffer.peek]

end Sys2Proof.Machine
end

