-- ==== Sys2Proof/Laws/Mix.lean ====
section
/-! SUPPORT. What one voice can do in a quantum, what a quantum is over all voices, and the arithmetic of the gain
ramp and the frames. -/
namespace Sys2Proof.Machine

/-! ### One voice -/

theorem finalize_of_streamError {x y : Voice} (h : x.flags.streamError = y.flags.streamError) :
    x.finalize = y.finalize := by simp [Voice.finalize, finalizedFlags, h]

@[simp] theorem finalize_finalize (x : Voice) : x.finalize.finalize = x.finalize := rfl

/-- The frame of the hard mute: it writes the gain index and the fader control. -/
theorem hardMute_frame (c : Config) (x : Voice) :
    hardMute c x = { x with gainIdx := (hardMute c x).gainIdx, faderCtl := (hardMute c x).faderCtl } := by
  unfold hardMute
  split
  · split <;> rfl
  · rfl

/-- The voice after steps 2 and 3 differs from the voice before in the gain index, the fader control and
the ramp accumulator only. -/
theorem serviced_frame (c : Config) (x : Voice) :
    (faderService (hardMute c x)).1 =
      { x with
        gainIdx := (faderService (hardMute c x)).1.gainIdx
        faderCtl := (faderService (hardMute c x)).1.faderCtl
        rampAcc := (faderService (hardMute c x)).1.rampAcc } := by
  rw [faderService_frame (hardMute c x), hardMute_frame c x]

/-- The written-out step 2 is the meaning's (R208). -/
theorem mutedSlot_eq_hardMute (c : Config) (x : Voice) : mutedSlot c x = hardMute c x := by
  unfold mutedSlot hardMute faderStop FaderCtl.idle silenceIndex
  by_cases h : x.flags.stopRequested = true <;> by_cases h' : c.hardMuteCancelsFader = true <;> simp [h, h']

/-- The formula of R121 on integers is the used space of the decoded ring. -/
theorem usedPcm_eq_used {c : Config} (hc : c.wf = true) (x : Voice) :
    usedPcm c x = ((x.pcmRing c).used : Int) := by
  obtain ⟨-, -, -, -, -, -, -, hcap, -⟩ := config_wf_ranges hc
  exact (ring_used_int (x.pcmRing c) (by show 0 < c.cPcm; omega)).symm

/-- The end-of-stream policy fires exactly at the end of the stream (R221). -/
theorem endOfStream_iff_atEnd {c : Config} (hc : c.wf = true) (x : Voice) :
    endOfStream (mixAvail c x) x = true ↔ x.AtEnd c := by
  obtain ⟨-, hq, -⟩ := config_wf_ranges hc
  have hu := usedPcm_eq_used hc x
  have hav : mixAvail c x = min c.q (x.pcmRing c).used := rfl
  have h0 : mixAvail c x = 0 ↔ usedPcm c x = 0 := by omega
  simp only [endOfStream, Voice.AtEnd, Bool.and_eq_true, decide_eq_true_eq, Bool.not_eq_true', h0, and_assoc]

/-- What step 4 to 7 leave in `MixRun` of a voice mixed with `avail` frames. -/
def mixedRun (c : Config) (z : Voice) (avail lin : Nat) (r : MixRun) : MixRun :=
  { r with
    acc := mixFrames z.gainLin.toNat lin (rampLength c z.faderCtl) 0 (scratchFrames c z avail) r.acc
    scr := Memory.ofCells 0 (scratchFrames c z avail)
    mixed := r.mixed + 1 }

/-- The counts after step 1. -/
def countedRun (c : Config) (x : Voice) (r : MixRun) : MixRun :=
  if mixAvail c x < c.q then r.countShort else r

@[simp] theorem countShort_acc (r : MixRun) : r.countShort.acc = r.acc := rfl
@[simp] theorem countShort_scr (r : MixRun) : r.countShort.scr = r.scr := rfl
@[simp] theorem countShort_mixed (r : MixRun) : r.countShort.mixed = r.mixed := rfl
@[simp] theorem countShort_fin (r : MixRun) : r.countShort.fin = r.fin := rfl
@[simp] theorem countShort_short (r : MixRun) : r.countShort.short = r.short + 1 := rfl
@[simp] theorem countFinalized_acc (r : MixRun) : r.countFinalized.acc = r.acc := rfl
@[simp] theorem countFinalized_scr (r : MixRun) : r.countFinalized.scr = r.scr := rfl
@[simp] theorem countFinalized_mixed (r : MixRun) : r.countFinalized.mixed = r.mixed := rfl
@[simp] theorem countFinalized_fin (r : MixRun) : r.countFinalized.fin = r.fin + 1 := rfl
@[simp] theorem countFinalized_short (r : MixRun) : r.countFinalized.short = r.short := rfl
@[simp] theorem mixedRun_acc (c : Config) (z : Voice) (avail lin : Nat) (r : MixRun) :
    (mixedRun c z avail lin r).acc =
      mixFrames z.gainLin.toNat lin (rampLength c z.faderCtl) 0 (scratchFrames c z avail) r.acc := rfl
@[simp] theorem mixedRun_scr (c : Config) (z : Voice) (avail lin : Nat) (r : MixRun) :
    (mixedRun c z avail lin r).scr = Memory.ofCells 0 (scratchFrames c z avail) := rfl
@[simp] theorem mixedRun_mixed (c : Config) (z : Voice) (avail lin : Nat) (r : MixRun) :
    (mixedRun c z avail lin r).mixed = r.mixed + 1 := rfl
@[simp] theorem mixedRun_fin (c : Config) (z : Voice) (avail lin : Nat) (r : MixRun) :
    (mixedRun c z avail lin r).fin = r.fin := rfl
@[simp] theorem mixedRun_short (c : Config) (z : Voice) (avail lin : Nat) (r : MixRun) :
    (mixedRun c z avail lin r).short = r.short := rfl

@[simp] theorem countedRun_acc (c : Config) (x : Voice) (r : MixRun) : (countedRun c x r).acc = r.acc := by
  unfold countedRun; split <;> rfl
@[simp] theorem countedRun_scr (c : Config) (x : Voice) (r : MixRun) : (countedRun c x r).scr = r.scr := by
  unfold countedRun; split <;> rfl

/-- The five ways of `mixVoice` (R206 to R221), as equations. -/
theorem mixVoice_cases (c : Config) (x : Voice) (r : MixRun) :
    (x.state ≠ .playing ∧ mixVoice c x r = some (x, r)) ∨
    (x.state = .playing ∧ silentStop x = true ∧
      mixVoice c x r = some (x.finalize, (countedRun c x r).countFinalized)) ∨
    (x.state = .playing ∧ silentStop x = false ∧ (faderService (hardMute c x)).2 = true ∧
      mixVoice c x r = some (x.finalize, (countedRun c x r).countFinalized)) ∨
    (x.state = .playing ∧ silentStop x = false ∧ (faderService (hardMute c x)).2 = false ∧
      indexToLinear c (faderService (hardMute c x)).1.gainIdx.toNat = none ∧ mixVoice c x r = none) ∨
    (x.state = .playing ∧ silentStop x = false ∧ (faderService (hardMute c x)).2 = false ∧
      ∃ lin, indexToLinear c (faderService (hardMute c x)).1.gainIdx.toNat = some lin ∧
      mixVoice c x r =
        if endOfStream (mixAvail c x) x then
          some (x.finalize,
            (mixedRun c (faderService (hardMute c x)).1 (mixAvail c x) lin (countedRun c x r)).countFinalized)
        else
          some (drainedVoice c (faderService (hardMute c x)).1 (mixAvail c x) lin,
            mixedRun c (faderService (hardMute c x)).1 (mixAvail c x) lin (countedRun c x r))) := by
  by_cases hp : x.state = .playing
  · right
    have hsf : (faderService (hardMute c x)).1.flags = x.flags := by rw [serviced_frame c x]
    unfold mixVoice mixPlaying
    rw [if_pos hp]
    cases hs : silentStop x with
    | true => exact .inl ⟨hp, rfl, by simp [countedRun]⟩
    | false =>
      right
      unfold mixServiced
      rcases hf : faderService (hardMute c x) with ⟨y, b⟩
      rw [hf] at hsf
      simp only at hsf
      cases b with
      | true =>
        left
        refine ⟨hp, rfl, rfl, ?_⟩
        have : y.finalize = x.finalize := finalize_of_streamError (by rw [hsf])
        simp [countedRun, this]
      | false =>
        right
        cases hl : indexToLinear c y.gainIdx.toNat with
        | none => exact .inl ⟨hp, rfl, rfl, rfl, by simp [hl]⟩
        | some lin =>
          refine .inr ⟨hp, rfl, rfl, lin, rfl, ?_⟩
          have h1 : endOfStream (mixAvail c x) y = endOfStream (mixAvail c x) x := by
            simp [endOfStream, hsf]
          have h2 : (drainedVoice c y (mixAvail c x) lin).finalize = x.finalize :=
            finalize_of_streamError (by simp [hsf])
          simp only [Bool.false_eq_true, if_false, hl, mixStage, h1, h2]
          by_cases he : endOfStream (mixAvail c x) x = true
          · rw [if_pos he, if_pos he]
            rfl
          · rw [if_neg he, if_neg he]
            rfl
  · left
    exact ⟨hp, by simp [mixVoice, hp]⟩

/-! ### All voices -/

/-- Every slot after a quantum is what `mixVoice` gives for it, from some run before it. -/
theorem mixVoices_slot {c : Config} {xs ys : List Voice} {r r' : MixRun}
    (h : mixVoices c xs r = some (ys, r')) :
    ys.length = xs.length ∧
    ∀ (v : Nat) (x : Voice), xs[v]? = some x → ∃ y r1 r2, ys[v]? = some y ∧ mixVoice c x r1 = some (y, r2) := by
  induction xs generalizing ys r r' with
  | nil =>
    simp only [mixVoices] at h
    injection h with h
    injection h with h1 h2
    subst h1
    exact ⟨rfl, fun v x hx => by simp at hx⟩
  | cons x xs ih =>
    simp only [mixVoices] at h
    split at h
    · exact nomatch h
    · rename_i y r1 hy
      split at h
      · exact nomatch h
      · rename_i ys' r2 hys
        injection h with h
        injection h with h1 h2
        subst h1
        obtain ⟨hlen, hslot⟩ := ih hys
        refine ⟨by simp [hlen], fun v z hz => ?_⟩
        cases v with
        | zero =>
          simp only [List.getElem?_cons_zero] at *
          injection hz with hz
          subst hz
          exact ⟨y, r, r1, rfl, hy⟩
        | succ v =>
          simp only [List.getElem?_cons_succ] at *
          exact hslot v z hz

/-- The other direction of `mixVoices_slot`, as membership: every slot after comes from one before. -/
theorem mixVoices_mem {c : Config} {xs ys : List Voice} {r r' : MixRun}
    (h : mixVoices c xs r = some (ys, r')) {y : Voice} (hy : y ∈ ys) :
    ∃ x ∈ xs, ∃ r1 r2, mixVoice c x r1 = some (y, r2) := by
  obtain ⟨hlen, hslot⟩ := mixVoices_slot h
  obtain ⟨v, hv, hyv⟩ := List.getElem_of_mem hy
  have hv' : v < xs.length := by omega
  obtain ⟨y', r1, r2, hy', hm⟩ := hslot v xs[v] (by simp [hv'])
  rw [List.getElem?_eq_getElem hv] at hy'
  injection hy' with hy'
  exact ⟨xs[v], List.getElem_mem hv', r1, r2, by rw [← hyv, hy']; exact hm⟩

/-- A fact about the run that every voice keeps holds at the end of the quantum. -/
theorem mixVoices_run {c : Config} (P : MixRun → Prop) (hP : ∀ x r y r', P r → mixVoice c x r = some (y, r') → P r')
    {xs ys : List Voice} {r r' : MixRun} (h0 : P r) (h : mixVoices c xs r = some (ys, r')) : P r' := by
  induction xs generalizing ys r with
  | nil =>
    simp only [mixVoices] at h
    injection h with h
    injection h with h1 h2
    exact h2 ▸ h0
  | cons x xs ih =>
    simp only [mixVoices] at h
    split at h
    · exact nomatch h
    · rename_i y r1 hy
      split at h
      · exact nomatch h
      · rename_i ys' r2 hys
        injection h with h
        injection h with h1 h2
        subst h2
        exact ih (hP x r y r1 h0 hy) hys

/-- A quantum completes when every voice does. -/
theorem mixVoices_complete {c : Config} {xs : List Voice} (h : ∀ x ∈ xs, ∀ r, ∃ p, mixVoice c x r = some p)
    (r : MixRun) : ∃ p, mixVoices c xs r = some p := by
  induction xs generalizing r with
  | nil => exact ⟨_, rfl⟩
  | cons x xs ih =>
    obtain ⟨⟨y, r1⟩, hy⟩ := h x (by simp) r
    obtain ⟨⟨ys, r2⟩, hys⟩ := ih (fun z hz => h z (by simp [hz])) r1
    exact ⟨(y :: ys, r2), by simp [mixVoices, hy, hys]⟩

/-! ### Frames -/

@[simp] theorem scratchFrames_length (c : Config) (x : Voice) (avail : Nat)
    (h : avail ≤ (x.pcmRing c).used) (hq : avail ≤ c.q) : (scratchFrames c x avail).length = c.q := by
  simp [scratchFrames, ring_readCount_of_le _ _ h]
  omega

theorem mixAvail_le (c : Config) (x : Voice) : mixAvail c x ≤ (x.pcmRing c).used ∧ mixAvail c x ≤ c.q :=
  ⟨Nat.min_le_right _ _, Nat.min_le_left _ _⟩

theorem mixFrames_length (g0 g1 len k : Nat) (fs as : List Frame) :
    (mixFrames g0 g1 len k fs as).length = min fs.length as.length := by
  induction fs generalizing k as with
  | nil => simp [mixFrames]
  | cons f fs ih =>
    cases as with
    | nil => simp [mixFrames]
    | cons a as => simp [mixFrames, ih, Nat.succ_min_succ]

theorem mixFrames_getElem? (g0 g1 len k : Nat) (fs as : List Frame) (i : Nat) (f a : Frame)
    (hf : fs[i]? = some f) (ha : as[i]? = some a) :
    (mixFrames g0 g1 len k fs as)[i]? = some (mixFrame (frameGain g0 g1 len (k + i)) f a) := by
  induction fs generalizing k as i with
  | nil => simp at hf
  | cons f' fs ih =>
    cases as with
    | nil => simp at ha
    | cons a' as =>
      cases i with
      | zero =>
        simp only [List.getElem?_cons_zero] at hf ha
        injection hf with hf
        injection ha with ha
        subst hf ha
        simp [mixFrames]
      | succ i =>
        simp only [List.getElem?_cons_succ] at hf ha
        simp only [mixFrames, List.getElem?_cons_succ]
        rw [ih (k + 1) as i hf ha, show k + 1 + i = k + (i + 1) by omega]

theorem mixFrame_left (g : Int) (f a : Frame) :
    frameLeft (mixFrame g f a) = sat16 (frameLeft a + scaleSample (frameLeft f) g) := by
  have h1 : -32768 ≤ sat16 (frameLeft a + scaleSample (frameLeft f) g) := by unfold sat16; omega
  have h2 : sat16 (frameLeft a + scaleSample (frameLeft f) g) ≤ 32767 := by unfold sat16; omega
  unfold mixFrame mkFrame
  generalize sat16 (frameLeft a + scaleSample (frameLeft f) g) = x at *
  generalize sat16 (frameRight a + scaleSample (frameRight f) g) = y
  have e : (BitVec.ofInt 16 y ++ BitVec.ofInt 16 x).extractLsb' 0 16 = BitVec.ofInt 16 x := append_low _ _
  rw [frameLeft, e, BitVec.toInt_ofInt, Int.bmod_eq_of_le (by omega) (by omega)]

theorem mixFrame_right (g : Int) (f a : Frame) :
    frameRight (mixFrame g f a) = sat16 (frameRight a + scaleSample (frameRight f) g) := by
  have h1 : -32768 ≤ sat16 (frameRight a + scaleSample (frameRight f) g) := by unfold sat16; omega
  have h2 : sat16 (frameRight a + scaleSample (frameRight f) g) ≤ 32767 := by unfold sat16; omega
  unfold mixFrame mkFrame
  generalize sat16 (frameRight a + scaleSample (frameRight f) g) = y at *
  generalize sat16 (frameLeft a + scaleSample (frameLeft f) g) = x
  have e : (BitVec.ofInt 16 y ++ BitVec.ofInt 16 x).extractLsb' 16 16 = BitVec.ofInt 16 y := append_high _ _
  rw [frameRight, e, BitVec.toInt_ofInt, Int.bmod_eq_of_le (by omega) (by omega)]

/-- Frame `k` of the scratch buffer is the decoded frame, or silence past the frames in use (R210). -/
theorem scratchFrames_getElem? {c : Config} (hc : c.wf = true) {x z : Voice} (hz : z.pcmRing c = x.pcmRing c)
    {k : Nat} (hk : k < c.q) : (scratchFrames c z (mixAvail c x))[k]? = some (decodedFrame c x k) := by
  have hu : usedPcm c x = ((x.pcmRing c).used : Int) := usedPcm_eq_used hc x
  have hle := mixAvail_le c x
  have hrc : (x.pcmRing c).readCount (mixAvail c x) = mixAvail c x := ring_readCount_of_le _ _ hle.1
  have hlen : ((x.pcmRing c).readCells (mixAvail c x)).length = mixAvail c x := by rw [ring_readCells_length, hrc]
  have hav : mixAvail c x = min c.q (x.pcmRing c).used := rfl
  unfold scratchFrames decodedFrame
  rw [hz]
  by_cases h : k < mixAvail c x
  · rw [List.getElem?_append_left (by omega), if_pos (by omega), RingBuffer.readCells, hrc,
      ring_peek_getElem? _ _ _ h]
    rfl
  · rw [List.getElem?_append_right (by omega), if_neg (by omega), hlen, List.getElem?_replicate,
      if_pos (by omega)]

/-- The quantum a voice gives alone keeps the accumulator's length. -/
theorem mixVoice_acc_length {c : Config} {x y : Voice} {r r' : MixRun} (h : mixVoice c x r = some (y, r'))
    (hr : r.acc.length = c.q) : r'.acc.length = c.q := by
  have hs := mixAvail_le c x
  rcases mixVoice_cases c x r with e | e | e | e | e
  · rw [e.2] at h
    injection h with h
    injection h with h1 h2
    rw [← h2, hr]
  · rw [e.2.2] at h
    injection h with h
    injection h with h1 h2
    simp [← h2, hr]
  · rw [e.2.2.2] at h
    injection h with h
    injection h with h1 h2
    simp [← h2, hr]
  · rw [e.2.2.2.2] at h
    exact nomatch h
  · obtain ⟨-, -, -, lin, -, e⟩ := e
    rw [e] at h
    have hu : ((faderService (hardMute c x)).1.pcmRing c) = x.pcmRing c := by
      rw [serviced_frame c x]
      rfl
    have hl : (scratchFrames c (faderService (hardMute c x)).1 (mixAvail c x)).length = c.q :=
      scratchFrames_length c _ _ (by rw [hu]; exact hs.1) hs.2
    split at h
    · injection h with h
      injection h with h1 h2
      simp [← h2, mixFrames_length, hl, hr]
    · injection h with h
      injection h with h1 h2
      simp [← h2, mixFrames_length, hl, hr]

end Sys2Proof.Machine
end

