-- ==== Sys2Proof/Laws/Inversion.lean ====
section
/-! SUPPORT. The one inversion lemma of `exec`: when it answers a next state, that state is one of six kinds. Every
invariant and frame is a case analysis over it. -/
namespace Sys2Proof.Machine

/-- What a performed operation does to the slot of its voice; the voice itself for an operation that
writes no slot. -/
def voiceEffect (c : Config) : Instr → Voice → Voice
  | .stopv _ ticks, x => stopVoice c ticks.toNat x
  | .rbwrite _ cells, x => x.writeCellsOf c cells
  | .rbread _ sel n, x => x.afterReadOf c sel n.toNat
  | .fade _ db ticks soc, x => faderStart c x db.toInt ticks.toNat soc
  | .fstop _, x => faderStop x
  | .fsvc _, x => (faderService x).1
  | .ingest _ block, x => ingestBlock c x block
  | .fetch _ n, x => fetchBytes c x (fetchCount c x n.toNat)
  | .push _ frames, x => x.setPcmRing ((x.pcmRing c).write frames)
  | .decerr _, x => streamFailed x
  | .reset, x | .openVoice _ _ _ _, x | .query, x | .storerr, x | .rdreg _ _, x
  | .rbspace _ _ _, x | .rbused _ _, x | .rbfree _ _, x | .db2idx _, x | .idx2lin _, x
  | .hasstor _, x | .hasdec _, x | .mix, x => x

/-- What a performed write had found: the space check holds, and an `INGEST` still had bytes to read. -/
def EffectGuard (c : Config) (x : Voice) : Instr → Prop
  | .rbwrite _ cells => x.hasSpaceOf c cells.sel cells.count = true
  | .ingest _ block => x.unread ≠ 0 ∧ (x.compRing c).hasSpace block.length = true
  | .push _ frames => (x.pcmRing c).hasSpace frames.length = true
  | .reset | .openVoice _ _ _ _ | .stopv _ _ | .query | .storerr | .rdreg _ _ | .rbspace _ _ _
  | .rbread _ _ _ | .rbused _ _ | .rbfree _ _ | .db2idx _ | .idx2lin _ | .fade _ _ _ _ | .fstop _
  | .fsvc _ | .hasstor _ | .fetch _ _ | .hasdec _ | .decerr _ | .mix => True

/-- A state that differs in the response only, and the status of that response. -/
def AnswerOnly (i : Instr) (s t : State) : Prop :=
  (i ≠ .reset ∧ i ≠ .storerr ∧ i ≠ .mix ∧ ∃ w p, t = s.ok w p) ∨
  (s.halted = true ∧ i ≠ .reset ∧ (∀ v reg, i ≠ .rdreg v reg) ∧ t = s.error .storageError) ∨
  (((handleField i).isSome = true ∨ ∃ v reg, i = .rdreg v reg ∧ reg.toNat ≤ 16) ∧ t = s.error .badIndex) ∨
  ((∃ db size loop lock, i = .openVoice db size loop lock) ∧ t = s.error .noFreeVoice) ∨
  ((∃ v reg, i = .rdreg v reg) ∧ t = s.error .illegalCommand)

/-- The voice of `handleField` served: its slot holds `voiceEffect` after, and the response says so. -/
def VoiceUpdate (i : Instr) (s t : State) : Prop :=
  ∃ v x st w p, handleField i = some v ∧ s.Serves v x ∧ EffectGuard s.cfg x i ∧
    t = (s.setVoice v.toNat (voiceEffect s.cfg i x)).respond st w p ∧
    (st = .ok ∨ (st = .streamError ∧ ∃ u, i = .decerr u))

/-- A voice opened in the lowest free slot. -/
def VoiceOpened (i : Instr) (s t : State) : Prop :=
  ∃ db size loop lock v lin, i = .openVoice db size loop lock ∧ s.halted = false ∧ s.lowestFree = some v ∧
    indexToLinear s.cfg (dbToIndex s.cfg db.toInt) = some lin ∧
    t = (s.setVoice v (openedVoice (dbToIndex s.cfg db.toInt) lin size loop lock s.quantumCounter)).ok
      (BitVec.ofNat 32 v) []

/-- A quantum mixed. -/
def QuantumMixed (i : Instr) (s t : State) : Prop :=
  i = .mix ∧ s.halted = false ∧
    ∃ vs r, mixVoices s.cfg s.voices (mixStart s) = some (vs, r) ∧ t = mixFinish s vs r

/-- A format-V operation whose meaning only answers. -/
theorem onHandle_answerOnly {i : Instr} {v : BitVec 8} {s t : State} {w : Voice → BitVec 32}
    (hi : handleField i = some v) (hr : i ≠ .reset) (hd : ∀ v reg, i ≠ .rdreg v reg)
    (h : s.onHandle v.toNat (fun x => .next (s.ok (w x) [])) = .next t) : AnswerOnly i s t := by
  rcases onHandle_next h with ⟨hh, rfl⟩ | ⟨-, -, rfl⟩ | ⟨-, x, -, h⟩
  · exact .inr (.inl ⟨hh, hr, hd, rfl⟩)
  · exact .inr (.inr (.inl ⟨.inl (by simp [hi]), rfl⟩))
  · injection h with h
    exact .inl ⟨hr, fun e => by simp [e, handleField] at hi, fun e => by simp [e, handleField] at hi, w x, [], h.symm⟩

/-- A format-V operation whose meaning writes its slot. -/
theorem onHandle_voiceUpdate {i : Instr} {v : BitVec 8} {s t : State}
    {k : Voice → Host.Outcome State Fault Refusal}
    (hi : handleField i = some v) (hr : i ≠ .reset) (hd : ∀ v reg, i ≠ .rdreg v reg)
    (hk : ∀ x, s.Serves v x → k x = .next t → AnswerOnly i s t ∨ VoiceUpdate i s t)
    (h : s.onHandle v.toNat k = .next t) : AnswerOnly i s t ∨ VoiceUpdate i s t := by
  rcases onHandle_next h with ⟨hh, rfl⟩ | ⟨-, -, rfl⟩ | ⟨hrun, x, hx, h⟩
  · exact .inl (.inr (.inl ⟨hh, hr, hd, rfl⟩))
  · exact .inl (.inr (.inr (.inl ⟨.inl (by simp [hi]), rfl⟩)))
  · exact hk x ⟨hrun, (handle?_some s v.toNat x).1 hx⟩ h

/-- When `exec` answers a next state, it is one of six kinds. -/
theorem exec_next {i : Instr} {s t : State} (h : exec i s = .next t) :
    AnswerOnly i s t ∨ VoiceUpdate i s t ∨ VoiceOpened i s t ∨ QuantumMixed i s t ∨
    (i = .reset ∧ t = s.performReset.ok 0 []) ∨
    (i = .storerr ∧ s.halted = false ∧ t = s.halt.error .storageError) := by
  cases i with
  | reset =>
    injection h with h
    exact .inr (.inr (.inr (.inr (.inl ⟨rfl, h.symm⟩))))
  | openVoice db size loop lock =>
    rcases whenRunning_next (show s.whenRunning _ = .next t from h) with ⟨hh, rfl⟩ | ⟨hr, h⟩
    · exact .inl (.inr (.inl ⟨hh, by simp, by simp, rfl⟩))
    · split at h
      · rename_i v hv
        simp only [openSlot] at h
        split at h
        · rename_i lin hl
          injection h with h
          exact .inr (.inr (.inl ⟨db, size, loop, lock, v, lin, rfl, hr, hv, hl, h.symm⟩))
        · exact nomatch h
      · injection h with h
        exact .inl (.inr (.inr (.inr (.inl ⟨⟨db, size, loop, lock, rfl⟩, h.symm⟩))))
  | query =>
    rcases whenRunning_next (show s.whenRunning _ = .next t from h) with ⟨hh, rfl⟩ | ⟨hr, h⟩
    · exact .inl (.inr (.inl ⟨hh, by simp, by simp, rfl⟩))
    · injection h with h
      exact .inl (.inl ⟨by simp, by simp, by simp, _, _, h.symm⟩)
  | storerr =>
    rcases whenRunning_next (show s.whenRunning _ = .next t from h) with ⟨hh, rfl⟩ | ⟨hr, h⟩
    · exact .inl (.inr (.inl ⟨hh, by simp, by simp, rfl⟩))
    · injection h with h
      exact .inr (.inr (.inr (.inr (.inr ⟨rfl, hr, h.symm⟩))))
  | rdreg v reg =>
    left
    simp only [exec, execRdreg] at h
    split at h
    · rename_i hreg
      split at h
      · injection h with h
        exact .inl ⟨by simp, by simp, by simp, _, _, h.symm⟩
      · injection h with h
        exact .inr (.inr (.inl ⟨.inr ⟨v, reg, rfl, hreg⟩, h.symm⟩))
    · split at h
      · injection h with h
        exact .inl ⟨by simp, by simp, by simp, _, _, h.symm⟩
      · injection h with h
        exact .inr (.inr (.inr (.inr ⟨⟨v, reg, rfl⟩, h.symm⟩)))
  | db2idx db =>
    rcases whenRunning_next (show s.whenRunning _ = .next t from h) with ⟨hh, rfl⟩ | ⟨hr, h⟩
    · exact .inl (.inr (.inl ⟨hh, by simp, by simp, rfl⟩))
    · injection h with h
      exact .inl (.inl ⟨by simp, by simp, by simp, _, _, h.symm⟩)
  | idx2lin index =>
    rcases whenRunning_next (show s.whenRunning _ = .next t from h) with ⟨hh, rfl⟩ | ⟨hr, h⟩
    · exact .inl (.inr (.inl ⟨hh, by simp, by simp, rfl⟩))
    · split at h
      · injection h with h
        exact .inl (.inl ⟨by simp, by simp, by simp, _, _, h.symm⟩)
      · exact nomatch h
  | mix =>
    rcases whenRunning_next (show s.whenRunning _ = .next t from h) with ⟨hh, rfl⟩ | ⟨hr, h⟩
    · exact .inl (.inr (.inl ⟨hh, by simp, by simp, rfl⟩))
    · split at h
      · rename_i vs r hm
        injection h with h
        exact .inr (.inr (.inr (.inl ⟨rfl, hr, vs, r, hm, h.symm⟩)))
      · exact nomatch h
  | rbspace v sel n => exact .inl (onHandle_answerOnly rfl (by simp) (by simp) h)
  | rbused v sel => exact .inl (onHandle_answerOnly rfl (by simp) (by simp) h)
  | rbfree v sel => exact .inl (onHandle_answerOnly rfl (by simp) (by simp) h)
  | hasstor v => exact .inl (onHandle_answerOnly rfl (by simp) (by simp) h)
  | hasdec v => exact .inl (onHandle_answerOnly rfl (by simp) (by simp) h)
  | stopv v ticks =>
    refine (onHandle_voiceUpdate (i := .stopv v ticks) rfl (by simp) (by simp) (fun x hx h => ?_) h).imp_right .inl
    injection h with h
    exact .inr ⟨v, x, _, _, _, rfl, hx, trivial, h.symm, .inl rfl⟩
  | rbwrite v cells =>
    refine (onHandle_voiceUpdate (i := .rbwrite v cells) rfl (by simp) (by simp) (fun x hx h => ?_) h).imp_right .inl
    obtain ⟨hsp, h⟩ := withSpace_next h
    injection h with h
    exact .inr ⟨v, x, _, _, _, rfl, hx, hsp, h.symm, .inl rfl⟩
  | rbread v sel n =>
    refine (onHandle_voiceUpdate (i := .rbread v sel n) rfl (by simp) (by simp) (fun x hx h => ?_) h).imp_right .inl
    injection h with h
    exact .inr ⟨v, x, _, _, _, rfl, hx, trivial, h.symm, .inl rfl⟩
  | fade v db ticks soc =>
    refine (onHandle_voiceUpdate (i := .fade v db ticks soc) rfl (by simp) (by simp) (fun x hx h => ?_) h).imp_right .inl
    injection h with h
    exact .inr ⟨v, x, _, _, _, rfl, hx, trivial, h.symm, .inl rfl⟩
  | fstop v =>
    refine (onHandle_voiceUpdate (i := .fstop v) rfl (by simp) (by simp) (fun x hx h => ?_) h).imp_right .inl
    injection h with h
    exact .inr ⟨v, x, _, _, _, rfl, hx, trivial, h.symm, .inl rfl⟩
  | fsvc v =>
    refine (onHandle_voiceUpdate (i := .fsvc v) rfl (by simp) (by simp) (fun x hx h => ?_) h).imp_right .inl
    injection h with h
    exact .inr ⟨v, x, _, _, _, rfl, hx, trivial, h.symm, .inl rfl⟩
  | ingest v block =>
    refine (onHandle_voiceUpdate (i := .ingest v block) rfl (by simp) (by simp) (fun x hx h => ?_) h).imp_right .inl
    split at h
    · injection h with h
      exact .inl (.inl ⟨by simp, by simp, by simp, _, _, h.symm⟩)
    · rename_i hu
      obtain ⟨hsp, h⟩ := withSpace_next h
      injection h with h
      exact .inr ⟨v, x, _, _, _, rfl, hx, ⟨hu, hsp⟩, h.symm, .inl rfl⟩
  | fetch v n =>
    refine (onHandle_voiceUpdate (i := .fetch v n) rfl (by simp) (by simp) (fun x hx h => ?_) h).imp_right .inl
    injection h with h
    exact .inr ⟨v, x, _, _, _, rfl, hx, trivial, h.symm, .inl rfl⟩
  | push v frames =>
    refine (onHandle_voiceUpdate (i := .push v frames) rfl (by simp) (by simp) (fun x hx h => ?_) h).imp_right .inl
    obtain ⟨hsp, h⟩ := withSpace_next h
    injection h with h
    exact .inr ⟨v, x, _, _, _, rfl, hx, hsp, h.symm, .inl rfl⟩
  | decerr v =>
    refine (onHandle_voiceUpdate (i := .decerr v) rfl (by simp) (by simp) (fun x hx h => ?_) h).imp_right .inl
    injection h with h
    exact .inr ⟨v, x, _, _, _, rfl, hx, trivial, h.symm, .inr ⟨rfl, v, rfl⟩⟩

end Sys2Proof.Machine
end

