-- ==== Sys2Proof/Laws/PerInstr.lean ====
section
/-! SUPPORT. The families of statements about every instruction, one lemma per constructor. -/
namespace Sys2Proof.Laws

/-- The word the encoder writes for an instruction matches the instruction's own row of the opcode table:
its opcode stands there and every must-be-zero bit of the row is 0 (R95). -/
def EncodesOwnRow.Statement (i : Instr) : Prop :=
  ∃ r ∈ opcodeTable, r.op = i.op ∧ i.word &&& r.mask = r.pattern

/-- A word of the four fields matches a row when each field does. -/
theorem encodesOwnRow_of_fields (i : Instr) (op v : BitVec 8) (a : BitVec 16) (b : BitVec 32) (r : Row)
    (hr : r ∈ opcodeTable) (hop : r.op = i.op) (hw : i.word = cmdWord op v a b)
    (h : op &&& opField r.mask = opField r.pattern ∧ v &&& vField r.mask = vField r.pattern ∧
      a &&& aField r.mask = aField r.pattern ∧ b &&& bField r.mask = bField r.pattern) :
    EncodesOwnRow.Statement i :=
  ⟨r, hr, hop, (row_fields r i.word).2 (by rw [hw]; simpa using h)⟩

theorem selWord_and (sel : BufSel) : selWord sel &&& 0xFFFE#16 = 0#16 := by cases sel <;> rfl

theorem openFlags_and (loop lock : Bool) : openFlags loop lock &&& 0xFC#8 = 0#8 := by
  cases loop <;> cases lock <;> rfl

theorem EncodesOwnRow.reset : EncodesOwnRow.Statement .reset :=
  encodesOwnRow_of_fields _ _ _ _ _ ⟨.reset, 0xFFFFFFFFFFFFFFFF#64, 0x0100000000000000#64⟩ (by decide) rfl rfl
    ⟨rfl, rfl, rfl, rfl⟩

theorem EncodesOwnRow.openVoice (gainDb : BitVec 16) (trackSize : BitVec 32) (loop lock : Bool) : EncodesOwnRow.Statement (.openVoice gainDb trackSize loop lock) :=
  encodesOwnRow_of_fields _ _ _ _ _ ⟨.openVoice, 0xFFFC000000000000#64, 0x0200000000000000#64⟩ (by decide) rfl rfl
    ⟨rfl, openFlags_and _ _, BitVec.and_zero, BitVec.and_zero⟩

theorem EncodesOwnRow.stopv (v : BitVec 8) (releaseTicks : BitVec 16) : EncodesOwnRow.Statement (.stopv v releaseTicks) :=
  encodesOwnRow_of_fields _ _ _ _ _ ⟨.stopv, 0xFF00FFFFFFFF0000#64, 0x0300000000000000#64⟩ (by decide) rfl rfl
    ⟨rfl, BitVec.and_zero, rfl, ticksWord_and _⟩

theorem EncodesOwnRow.query : EncodesOwnRow.Statement .query :=
  encodesOwnRow_of_fields _ _ _ _ _ ⟨.query, 0xFFFFFFFFFFFFFFFF#64, 0x0500000000000000#64⟩ (by decide) rfl rfl
    ⟨rfl, rfl, rfl, rfl⟩

theorem EncodesOwnRow.storerr : EncodesOwnRow.Statement .storerr :=
  encodesOwnRow_of_fields _ _ _ _ _ ⟨.storerr, 0xFFFFFFFFFFFFFFFF#64, 0x0600000000000000#64⟩ (by decide) rfl rfl
    ⟨rfl, rfl, rfl, rfl⟩

theorem EncodesOwnRow.rdreg (v : BitVec 8) (reg : BitVec 16) : EncodesOwnRow.Statement (.rdreg v reg) :=
  encodesOwnRow_of_fields _ _ _ _ _ ⟨.rdreg, 0xFF000000FFFFFFFF#64, 0x0700000000000000#64⟩ (by decide) rfl rfl
    ⟨rfl, BitVec.and_zero, BitVec.and_zero, rfl⟩

theorem EncodesOwnRow.rbspace (v : BitVec 8) (sel : BufSel) (n : BitVec 32) : EncodesOwnRow.Statement (.rbspace v sel n) :=
  encodesOwnRow_of_fields _ _ _ _ _ ⟨.rbspace, 0xFF00FFFE00000000#64, 0x1000000000000000#64⟩ (by decide) rfl rfl
    ⟨rfl, BitVec.and_zero, selWord_and _, BitVec.and_zero⟩

theorem EncodesOwnRow.rbwrite (v : BitVec 8) (cells : Cells) : EncodesOwnRow.Statement (.rbwrite v cells) :=
  encodesOwnRow_of_fields _ _ _ _ _ ⟨.rbwrite, 0xFF00FFFE00000000#64, 0x1100000000000000#64⟩ (by decide) rfl rfl
    ⟨rfl, BitVec.and_zero, selWord_and _, BitVec.and_zero⟩

theorem EncodesOwnRow.rbread (v : BitVec 8) (sel : BufSel) (n : BitVec 32) : EncodesOwnRow.Statement (.rbread v sel n) :=
  encodesOwnRow_of_fields _ _ _ _ _ ⟨.rbread, 0xFF00FFFE00000000#64, 0x1200000000000000#64⟩ (by decide) rfl rfl
    ⟨rfl, BitVec.and_zero, selWord_and _, BitVec.and_zero⟩

theorem EncodesOwnRow.rbused (v : BitVec 8) (sel : BufSel) : EncodesOwnRow.Statement (.rbused v sel) :=
  encodesOwnRow_of_fields _ _ _ _ _ ⟨.rbused, 0xFF00FFFEFFFFFFFF#64, 0x1300000000000000#64⟩ (by decide) rfl rfl
    ⟨rfl, BitVec.and_zero, selWord_and _, rfl⟩

theorem EncodesOwnRow.rbfree (v : BitVec 8) (sel : BufSel) : EncodesOwnRow.Statement (.rbfree v sel) :=
  encodesOwnRow_of_fields _ _ _ _ _ ⟨.rbfree, 0xFF00FFFEFFFFFFFF#64, 0x1400000000000000#64⟩ (by decide) rfl rfl
    ⟨rfl, BitVec.and_zero, selWord_and _, rfl⟩

theorem EncodesOwnRow.db2idx (db : BitVec 16) : EncodesOwnRow.Statement (.db2idx db) :=
  encodesOwnRow_of_fields _ _ _ _ _ ⟨.db2idx, 0xFFFF0000FFFFFFFF#64, 0x2000000000000000#64⟩ (by decide) rfl rfl
    ⟨rfl, rfl, BitVec.and_zero, rfl⟩

theorem EncodesOwnRow.idx2lin (index : BitVec 32) : EncodesOwnRow.Statement (.idx2lin index) :=
  encodesOwnRow_of_fields _ _ _ _ _ ⟨.idx2lin, 0xFFFFFFFF00000000#64, 0x2100000000000000#64⟩ (by decide) rfl rfl
    ⟨rfl, rfl, rfl, BitVec.and_zero⟩

theorem EncodesOwnRow.fade (v : BitVec 8) (targetDb durationTicks : BitVec 16) (soc : Bool) : EncodesOwnRow.Statement (.fade v targetDb durationTicks soc) :=
  encodesOwnRow_of_fields _ _ _ _ _ ⟨.fade, 0xFF000000FFFE0000#64, 0x3000000000000000#64⟩ (by decide) rfl rfl
    ⟨rfl, BitVec.and_zero, BitVec.and_zero, fadeWord_and _ _⟩

theorem EncodesOwnRow.fstop (v : BitVec 8) : EncodesOwnRow.Statement (.fstop v) :=
  encodesOwnRow_of_fields _ _ _ _ _ ⟨.fstop, 0xFF00FFFFFFFFFFFF#64, 0x3100000000000000#64⟩ (by decide) rfl rfl
    ⟨rfl, BitVec.and_zero, rfl, rfl⟩

theorem EncodesOwnRow.fsvc (v : BitVec 8) : EncodesOwnRow.Statement (.fsvc v) :=
  encodesOwnRow_of_fields _ _ _ _ _ ⟨.fsvc, 0xFF00FFFFFFFFFFFF#64, 0x3200000000000000#64⟩ (by decide) rfl rfl
    ⟨rfl, BitVec.and_zero, rfl, rfl⟩

theorem EncodesOwnRow.hasstor (v : BitVec 8) : EncodesOwnRow.Statement (.hasstor v) :=
  encodesOwnRow_of_fields _ _ _ _ _ ⟨.hasstor, 0xFF00FFFFFFFFFFFF#64, 0x4000000000000000#64⟩ (by decide) rfl rfl
    ⟨rfl, BitVec.and_zero, rfl, rfl⟩

theorem EncodesOwnRow.ingest (v : BitVec 8) (block : List Byte) : EncodesOwnRow.Statement (.ingest v block) :=
  encodesOwnRow_of_fields _ _ _ _ _ ⟨.ingest, 0xFF00FFFFFFFFFFFF#64, 0x4100000000000000#64⟩ (by decide) rfl rfl
    ⟨rfl, BitVec.and_zero, rfl, rfl⟩

theorem EncodesOwnRow.fetch (v : BitVec 8) (requested : BitVec 32) : EncodesOwnRow.Statement (.fetch v requested) :=
  encodesOwnRow_of_fields _ _ _ _ _ ⟨.fetch, 0xFF00FFFF00000000#64, 0x4200000000000000#64⟩ (by decide) rfl rfl
    ⟨rfl, BitVec.and_zero, rfl, BitVec.and_zero⟩

theorem EncodesOwnRow.hasdec (v : BitVec 8) : EncodesOwnRow.Statement (.hasdec v) :=
  encodesOwnRow_of_fields _ _ _ _ _ ⟨.hasdec, 0xFF00FFFFFFFFFFFF#64, 0x4300000000000000#64⟩ (by decide) rfl rfl
    ⟨rfl, BitVec.and_zero, rfl, rfl⟩

theorem EncodesOwnRow.push (v : BitVec 8) (frames : List Frame) : EncodesOwnRow.Statement (.push v frames) :=
  encodesOwnRow_of_fields _ _ _ _ _ ⟨.push, 0xFF00FFFF00000000#64, 0x4400000000000000#64⟩ (by decide) rfl rfl
    ⟨rfl, BitVec.and_zero, rfl, BitVec.and_zero⟩

theorem EncodesOwnRow.decerr (v : BitVec 8) : EncodesOwnRow.Statement (.decerr v) :=
  encodesOwnRow_of_fields _ _ _ _ _ ⟨.decerr, 0xFF00FFFFFFFFFFFF#64, 0x4500000000000000#64⟩ (by decide) rfl rfl
    ⟨rfl, BitVec.and_zero, rfl, rfl⟩

theorem EncodesOwnRow.mix : EncodesOwnRow.Statement .mix :=
  encodesOwnRow_of_fields _ _ _ _ _ ⟨.mix, 0xFFFFFFFFFFFFFFFF#64, 0x5000000000000000#64⟩ (by decide) rfl rfl
    ⟨rfl, rfl, rfl, rfl⟩

end Sys2Proof.Laws
end

