-- ==== Sys2Proof/Tests/Slice0.lean ====
section
/-! SUPPORT. The model's own tests: words written out from the encoding tables, one step per instruction with the
values of 95_test_vectors.md, and for every statement with hypotheses a state that meets them. -/
namespace Sys2Proof.Tests
open Sys2Proof.Machine

set_option Elab.async false

/-! ### Small states under the TINY configuration -/

/-- The reset state of TINY. -/
def tiny : State := State.resetOf Config.tiny

/-- The slot after `OPEN 0, 100, 0, 0`. -/
def opened : Voice :=
  { Voice.zero with state := .playing, gainIdx := 160, gainLin := 65536, trackSize := 100 }

/-- The ten bytes of P1 written, and six frames pushed. -/
def filled : Voice :=
  { opened with
    comp := [(0, 1), (1, 2), (2, 3), (3, 4), (4, 5), (5, 6), (6, 7), (7, 8), (8, 9), (9, 10)]
    compWr := 10
    bytesRead := 10
    pcm := [(0, 0xFFFF0001), (1, 0xFFFE0002), (2, 0xFFFD0003), (3, 0x80007FFF), (4, 0x03E8FC18),
      (5, 0xFF9C0064)]
    pcmWr := 6 }

/-- Slot 0 holds `x`, slot 1 is free. -/
def one (x : Voice) : State := { tiny with voices := [x, Voice.zero] }

/-- Slot 0 holds `x`, slot 1 holds `y`. -/
def two (x y : Voice) : State := { tiny with voices := [x, y] }

/-- A command waiting on the port. -/
def waiting (s : State) (cw : CmdWord) (payload : List Beat) : State := { s with pending := [⟨cw, payload⟩] }

/-- The next state of an outcome, if it is one. -/
def after : Host.Outcome State Fault Refusal → Option State
  | .next t => some t
  | .fault _ => none
  | .refused _ => none

/-- The response of the next state. -/
def answer (o : Host.Outcome State Fault Refusal) : Option Response := (after o).bind (fun t => t.response)

/-- A slot of the next state. -/
def slot (o : Host.Outcome State Fault Refusal) (v : Nat) : Option Voice := (after o).bind (fun t => t.voices[v]?)

/-- Whether an outcome is a refusal of a write without space. -/
def noSpace : Host.Outcome State Fault Refusal → Bool
  | .refused .writeWithoutSpace => true
  | .refused _ | .next _ | .fault _ => false

/-! ### WellFormed refuses an ill-formed term for each check -/

/-- A count the 32-bit operand cannot hold. -/
theorem test_wf_rbwrite_count (n : Nat) (h : 2 ^ 32 ≤ n) :
    (Instr.rbwrite 0 (.comp (List.replicate n 0))).wf Config.tiny = false := by
  simpa [Instr.wf, Cells.count] using h

theorem test_wf_push_count (n : Nat) (h : 2 ^ 32 ≤ n) :
    (Instr.push 0 (List.replicate n 0)).wf Config.tiny = false := by
  simpa [Instr.wf] using h

theorem test_wf_ingest_block :
    (Instr.ingest 0 [1, 2, 3]).wf Config.tiny = false ∧ (Instr.ingest 0 [1, 2, 3, 4]).wf Config.tiny = true := by
  decide

/-! ### Words written out from R95 and R96 decode to their instructions -/

/-- Format S. -/
theorem test_decode_format_s :
    decode Config.tiny ⟨0x0100000000000000, []⟩ = .ok .reset ∧
    decode Config.tiny ⟨0x0500000000000000, []⟩ = .ok .query ∧
    decode Config.tiny ⟨0x0600000000000000, []⟩ = .ok .storerr ∧
    decode Config.tiny ⟨0x5000000000000000, []⟩ = .ok .mix := by decide

/-- OPEN −3, 10, 1, 1 (T31), STOPV 0, 6 (T42), RDREG 1, 1 (T46). -/
theorem test_decode_control :
    decode Config.tiny ⟨0x0203FFFD0000000A, []⟩ = .ok (.openVoice (-3) 10 true true) ∧
    decode Config.tiny ⟨0x0202000000000001, []⟩ = .ok (.openVoice 0 1 false true) ∧
    decode Config.tiny ⟨0x0300000000000006, []⟩ = .ok (.stopv 0 6) ∧
    decode Config.tiny ⟨0x0701000100000000, []⟩ = .ok (.rdreg 1 1) := by decide

/-- P1 and P2. -/
theorem test_decode_ring :
    decode Config.tiny ⟨0x100000000000000A, []⟩ = .ok (.rbspace 0 .comp 10) ∧
    decode Config.tiny ⟨0x1000000100000003, []⟩ = .ok (.rbspace 0 .pcm 3) ∧
    decode Config.tiny ⟨0x1105000000000002, [7, 255]⟩ = .ok (.rbwrite 5 (.comp [7, 255])) ∧
    decode Config.tiny ⟨0x1100000100000001, [0xFFFF0001]⟩ = .ok (.rbwrite 0 (.pcm [0xFFFF0001])) ∧
    decode Config.tiny ⟨0x1200000000000007, []⟩ = .ok (.rbread 0 .comp 7) ∧
    decode Config.tiny ⟨0x1302000100000000, []⟩ = .ok (.rbused 2 .pcm) ∧
    decode Config.tiny ⟨0x1400000000000000, []⟩ = .ok (.rbfree 0 .comp) := by decide

/-- DB2IDX −6 and IDX2LIN 1000 (T15, T16). -/
theorem test_decode_gain :
    decode Config.tiny ⟨0x2000FFFA00000000, []⟩ = .ok (.db2idx (-6)) ∧
    decode Config.tiny ⟨0x21000000000003E8, []⟩ = .ok (.idx2lin 1000) := by decide

/-- FADE 0, −80, 100, 1 (T18), FADE 0, −6, 6, 0 (P2), FSTOP 2 (T43). -/
theorem test_decode_fader :
    decode Config.tiny ⟨0x3000FFB000010064, []⟩ = .ok (.fade 0 (-80) 100 true) ∧
    decode Config.tiny ⟨0x3000FFFA00000006, []⟩ = .ok (.fade 0 (-6) 6 false) ∧
    decode Config.tiny ⟨0x3102000000000000, []⟩ = .ok (.fstop 2) ∧
    decode Config.tiny ⟨0x3203000000000000, []⟩ = .ok (.fsvc 3) := by decide

/-- HASDEC 255 (T43), DECERR 1 (T31), FETCH 0, 7 (P3). -/
theorem test_decode_pipeline :
    decode Config.tiny ⟨0x4001000000000000, []⟩ = .ok (.hasstor 1) ∧
    decode Config.tiny ⟨0x4100000000000000, [160, 161, 162, 163]⟩ = .ok (.ingest 0 [160, 161, 162, 163]) ∧
    decode Config.tiny ⟨0x4200000000000007, []⟩ = .ok (.fetch 0 7) ∧
    decode Config.tiny ⟨0x43FF000000000000, []⟩ = .ok (.hasdec 255) ∧
    decode Config.tiny ⟨0x4400000000000001, [0xFC1803E8]⟩ = .ok (.push 0 [0xFC1803E8]) ∧
    decode Config.tiny ⟨0x4501000000000000, []⟩ = .ok (.decerr 1) := by decide

/-- The illegal words of T47, by the reason. -/
theorem test_decode_illegal :
    decode Config.tiny ⟨0x0000000000000000, []⟩ = .error (.reservedOpcode 0x00) ∧
    decode Config.tiny ⟨0x0400000000000000, []⟩ = .error (.reservedOpcode 0x04) ∧
    decode Config.tiny ⟨0x0101000000000000, []⟩ = .error (.mustBeZero 0x01) ∧
    decode Config.tiny ⟨0x0204000000000000, []⟩ = .error (.mustBeZero 0x02) ∧
    decode Config.tiny ⟨0x3000000000020000, []⟩ = .error (.mustBeZero 0x30) ∧
    decode Config.tiny ⟨0x4100000000000000, [1, 2, 3]⟩ = .error (.payloadLength 4 3) ∧
    decode Config.tiny ⟨0x4400000000000002, [1, 2, 3]⟩ = .error (.payloadLength 2 3) ∧
    decode Config.tiny ⟨0x1100000000000001, [256]⟩ = .error .payloadBeat := by decide

/-- The host's numbering of bits: the word in bits 63:0, the first payload beat above it. -/
theorem test_decodeTableWord :
    decodeTableWord 64 0x3000FFB000010064 = some (.fade 0 (-80) 100 true) ∧
    decodeTableWord 96 0xFFFF0001_4400000000000001 = some (.push 0 [0xFFFF0001]) ∧
    decodeTableWord 64 0x4400000000000001 = some (.push 0 [0]) ∧
    decodeTableWord 64 0x0400000000000000 = none := by decide

/-- A fetched word runs as the first instruction after reset. -/
theorem test_withFetchWord :
    answer (step (State.reset.withFetchWord 64 0x2000FFFA00000000)) = some ⟨.ok, 148, []⟩ := by decide +kernel

/-! ### One step per instruction -/

/-- T44: `RESET` leaves the halted condition. -/
theorem test_reset :
    after (exec .reset { one opened with halted := true, quantumCounter := 9 })
      = some { tiny with response := some ⟨.ok, 0, []⟩ } := by decide +kernel

/-- T31: `OPEN −3, 10, 1, 1 -> 1` beside an open voice. -/
theorem test_open :
    slot (exec (.openVoice (-3) 10 true true) (one opened)) 1
      = some { Voice.zero with
          state := .playing, flags := ⟨true, true, false, false, false⟩, gainIdx := 154, gainLin := 46396
          trackSize := 10 } := by decide +kernel

/-- T41: no free slot. -/
theorem test_open_full :
    answer (exec (.openVoice 0 10 false false) (two opened opened)) = some ⟨.noFreeVoice, 0, []⟩ := by
  decide +kernel

/-- T42: a release of 6 ticks starts a fade to silence. -/
theorem test_stopv_release :
    slot (exec (.stopv 0 6) (one opened)) 0
      = some { opened with
          faderCtl := ⟨true, true, false, 0, false⟩, target := 0, rampDelta := 0x00500000
          rampAcc := 0x00A00000 } := by decide +kernel

/-- T37: a silent voice is stopped at once, its fader left Idle. -/
theorem test_stopv_silent :
    slot (exec (.stopv 0 100) (one { opened with gainIdx := 0, gainLin := 0 })) 0
      = some { opened with gainIdx := 0, gainLin := 0, flags := ⟨false, false, true, false, false⟩ } := by
  decide +kernel

/-- T41. -/
theorem test_query : answer (exec .query (two opened opened)) = some ⟨.ok, 2, []⟩ := by decide +kernel

/-- T44. -/
theorem test_storerr :
    after (exec .storerr (one opened))
      = some { one opened with halted := true, response := some ⟨.storageError, 0, []⟩ } := by decide +kernel

/-- T46: `MIN_DB` as a register, and an unassigned register number. -/
theorem test_rdreg :
    answer (exec (.rdreg 9 0x97) tiny) = some ⟨.ok, 0xFFFFFFB0, []⟩ ∧
    answer (exec (.rdreg 0 17) tiny) = some ⟨.illegalCommand, 0, []⟩ ∧
    answer (exec (.rdreg 2 0) tiny) = some ⟨.badIndex, 0, []⟩ := by decide +kernel

/-- P1: six cells free, five can be written. -/
theorem test_rbspace :
    answer (exec (.rbspace 0 .comp 6) (one filled)) = some ⟨.ok, 0, []⟩ ∧
    answer (exec (.rbspace 0 .comp 5) (one filled)) = some ⟨.ok, 1, []⟩ := by decide +kernel

/-- P1: the second write wraps. -/
theorem test_rbwrite_wraps :
    slot (exec (.rbwrite 0 (.comp [11, 12, 13, 14, 15, 16, 17, 18, 19])) (one { filled with compRd := 7 })) 0
      = some { filled with
          compRd := 7
          compWr := 3
          comp := [(0, 17), (1, 18), (2, 19), (3, 4), (4, 5), (5, 6), (6, 7), (7, 8), (8, 9), (9, 10),
            (10, 11), (11, 12), (12, 13), (13, 14), (14, 15), (15, 16)] } := by decide +kernel

/-- U1: a write of as many cells as are free. -/
theorem test_rbwrite_refused :
    noSpace (exec (.rbwrite 0 (.comp [1, 2, 3, 4, 5, 6])) (one filled)) = true := by decide +kernel

/-- P1: the seven oldest bytes. -/
theorem test_rbread :
    answer (exec (.rbread 0 .comp 7) (one filled)) = some ⟨.ok, 7, [1, 2, 3, 4, 5, 6, 7]⟩ ∧
    slot (exec (.rbread 0 .comp 7) (one filled)) 0 = some { filled with compRd := 7 } := by decide +kernel

/-- P1. -/
theorem test_rbused : answer (exec (.rbused 0 .comp) (one filled)) = some ⟨.ok, 10, []⟩ := by decide +kernel

/-- P1. -/
theorem test_rbfree : answer (exec (.rbfree 0 .comp) (one filled)) = some ⟨.ok, 6, []⟩ := by decide +kernel

/-- T15. -/
theorem test_db2idx :
    answer (exec (.db2idx (-6)) tiny) = some ⟨.ok, 148, []⟩ ∧
    answer (exec (.db2idx (-81)) tiny) = some ⟨.ok, 0, []⟩ := by decide +kernel

/-- T16. -/
theorem test_idx2lin :
    answer (exec (.idx2lin 148) tiny) = some ⟨.ok, 32846, []⟩ ∧
    answer (exec (.idx2lin 1000) tiny) = some ⟨.ok, 65536, []⟩ := by decide +kernel

/-- T18. -/
theorem test_fade_normal :
    slot (exec (.fade 0 (-80) 100 true) (one opened)) 0
      = some { opened with
          faderCtl := ⟨true, true, false, 0, false⟩, target := 0, rampDelta := 0x0004CCCC
          rampAcc := 0x00A00000 } := by decide +kernel

/-- T23: a duration of 0 is the short fade of mode 1. -/
theorem test_fade_short :
    slot (exec (.fade 0 (-12) 0 false) (one opened)) 0
      = some { opened with faderCtl := ⟨true, false, false, 1, false⟩, target := 136 } := by decide +kernel

/-- T24. -/
theorem test_fstop :
    slot (exec (.fstop 0) (one { opened with faderCtl := ⟨true, true, true, 1, true⟩, target := 136 })) 0
      = some { opened with faderCtl := ⟨false, true, true, 0, false⟩, target := 136 } := by decide +kernel

/-- T26: the third call of a down ramp from 160 with `rampDelta = 0x00355555`. -/
theorem test_fsvc_ramp :
    slot (exec (.fsvc 0) (one { opened with
        faderCtl := ⟨true, true, false, 0, false⟩, gainIdx := 53, rampDelta := 0x00355555
        rampAcc := 0x00355556 })) 0
      = some { opened with
        faderCtl := ⟨true, true, false, 0, false⟩, gainIdx := 0, rampDelta := 0x00355555
        rampAcc := 0x00000001 } := by decide +kernel

/-- T21: the second call of a short fade. -/
theorem test_fsvc_short :
    answer (exec (.fsvc 0) (one { opened with faderCtl := ⟨true, true, false, 2, true⟩ })) = some ⟨.ok, 1, []⟩ ∧
    slot (exec (.fsvc 0) (one { opened with faderCtl := ⟨true, true, false, 2, true⟩ })) 0
      = some { opened with faderCtl := ⟨false, true, false, 0, false⟩ } := by decide +kernel

/-- R181: one block of 4 bytes needs more than 4 free cells. -/
theorem test_hasstor :
    answer (exec (.hasstor 0) (one { opened with compWr := 11 })) = some ⟨.ok, 1, []⟩ ∧
    answer (exec (.hasstor 0) (one { opened with compWr := 12 })) = some ⟨.ok, 0, []⟩ := by decide +kernel

/-- P3: the last, partial block of a 10-byte track is written whole and counted as 2 bytes. -/
theorem test_ingest_last :
    answer (exec (.ingest 0 [0xA8, 0xA9, 0xEE, 0xEF])
      (one { opened with trackSize := 10, bytesRead := 8, compWr := 8 })) = some ⟨.ok, 2, []⟩ ∧
    slot (exec (.ingest 0 [0xA8, 0xA9, 0xEE, 0xEF])
      (one { opened with trackSize := 10, bytesRead := 8, compWr := 8 })) 0
      = some { opened with
          trackSize := 10, bytesRead := 10, compWr := 12, flags := ⟨false, false, false, true, false⟩
          comp := [(8, 0xA8), (9, 0xA9), (10, 0xEE), (11, 0xEF)] } := by decide +kernel

/-- T27: after end of file nothing is written. -/
theorem test_ingest_end :
    answer (exec (.ingest 0 [9, 9, 9, 9]) (one { opened with bytesRead := 100 })) = some ⟨.ok, 0, []⟩ ∧
    slot (exec (.ingest 0 [9, 9, 9, 9]) (one { opened with bytesRead := 100 })) 0
      = some { opened with bytesRead := 100 } := by decide +kernel

/-- T27: all of an 8-byte track, then exhausted. -/
theorem test_fetch_exhausted :
    answer (exec (.fetch 0 100) (one { filled with trackSize := 8, bytesRead := 8, compWr := 8 }))
      = some ⟨.ok, 0x80000008, [1, 2, 3, 4, 5, 6, 7, 8]⟩ := by decide +kernel

/-- T28: nothing buffered, not exhausted. -/
theorem test_fetch_empty :
    answer (exec (.fetch 0 5) (one { opened with trackSize := 8 })) = some ⟨.ok, 0, []⟩ := by decide +kernel

/-- T30. -/
theorem test_hasdec :
    answer (exec (.hasdec 0) (one opened)) = some ⟨.ok, 1, []⟩ ∧
    answer (exec (.hasdec 0) (one { opened with pcmWr := 12 })) = some ⟨.ok, 0, []⟩ := by decide +kernel

/-- T30: three frames fit where four are free, four do not. -/
theorem test_push :
    answer (exec (.push 0 [1, 2, 3]) (one { opened with pcmWr := 12 })) = some ⟨.ok, 3, []⟩ ∧
    noSpace (exec (.push 0 [1, 2, 3, 4]) (one { opened with pcmWr := 12 })) = true := by decide +kernel

/-- T31. -/
theorem test_decerr :
    answer (exec (.decerr 0) (one filled)) = some ⟨.streamError, 0, []⟩ ∧
    slot (exec (.decerr 0) (one filled)) 0
      = some { Voice.zero with flags := ⟨false, false, false, false, true⟩ } := by decide +kernel

/-- T33: flat −6 dB, rounded toward minus infinity. -/
theorem test_mix_flat :
    answer (exec .mix (one { filled with gainIdx := 148, gainLin := 32846 }))
      = some ⟨.ok, 1, [0xFFFF0000, 0xFFFE0001, 0xFFFE0001, 0xBFD94026, 0x01F5FE0A, 0xFFCD0032]⟩ := by
  decide +kernel

/-- T42: the second quantum of a release ramp, gains 545 down to 0. -/
theorem test_mix_ramp :
    answer (exec .mix (one { opened with
        gainIdx := 80, gainLin := 655, faderCtl := ⟨true, true, false, 0, false⟩
        rampDelta := 0x00500000, rampAcc := 0x00500000, pcmWr := 6
        pcm := [(0, 0xE0C01F40), (1, 0xE0C01F40), (2, 0xE0C01F40), (3, 0xE0C01F40), (4, 0xE0C01F40),
          (5, 0xE0C01F40)] }))
      = some ⟨.ok, 1, [0xFFBD0042, 0xFFCA0035, 0xFFD80027, 0xFFE5001A, 0xFFF2000D, 0]⟩ := by decide +kernel

/-! ### Witnesses: for each statement with hypotheses, a state and operands that meet them

The name after `witness_` is the statement's. -/

theorem next_of_after {o : Host.Outcome State Fault Refusal} (h : (after o).isSome = true) : ∃ t, o = .next t := by
  cases o with
  | next t => exact ⟨t, rfl⟩
  | fault f => exact nomatch h
  | refused r => exact nomatch h

/-- The next state carries a response of a status. -/
theorem next_of_answer {o : Host.Outcome State Fault Refusal} {r : Response} (h : answer o = some r) :
    ∃ t, o = .next t ∧ t.response = some r := by
  cases o with
  | next t => exact ⟨t, rfl, h⟩
  | fault f => exact nomatch h
  | refused r => exact nomatch h

/-- Every register of the slot at the top of its range. -/
def topped : Voice :=
  { filled with
    compWr := 15, compRd := 15, pcmWr := 15, pcmRd := 15, bytesRead := 100, bytesDeliv := 100
    gainIdx := 160, target := 160, gainLin := 65536, rampAcc := 0x00A00000, rampDelta := 6
    faderCtl := ⟨true, true, false, 0, false⟩, framesPlayed := 0xFFFFFFFF }

theorem witness_DecodeOfEncodeIsTheInstruction :
    (Instr.rbwrite 255 (.pcm [0xFFFFFFFF])).wf Config.tiny = true ∧
    (Instr.ingest 0 [255, 0, 255, 0]).wf Config.tiny = true ∧
    (Instr.push 1 [1, 2]).wf Config.tiny = true ∧
    (Instr.openVoice (-6) 0xFFFFFFFF true true).wf Config.tiny = true := by decide

theorem witness_EncodeOfDecodeIsTheCommand :
    decode Config.tiny ⟨0x1102000100000002, [0xFFFF0001, 0]⟩ = .ok (.rbwrite 2 (.pcm [0xFFFF0001, 0])) := by
  decide

theorem witness_NoTwoRowsMatchTheSameWord :
    (⟨.fstop, 0xFF00FFFFFFFFFFFF, 0x3100000000000000⟩ : Row) ∈ opcodeTable ∧
    (0x3102000000000000 : CmdWord) &&& 0xFF00FFFFFFFFFFFF = 0x3100000000000000 := by decide

theorem witness_StepRunsTheDecodedInstruction :
    (waiting (one opened) 0x4200000000000005 []).cfg.wf = true ∧
    (waiting (one opened) 0x4200000000000005 []).pending = [⟨0x4200000000000005, []⟩] ∧
    decode (one opened).cfg ⟨0x4200000000000005, []⟩ = .ok (.fetch 0 5) := by decide +kernel

theorem witness_IllegalCommandsChangeNoState :
    (tiny.cfg.wf = true ∧ ∀ r ∈ opcodeTable, (0x5000000000000001 : CmdWord) &&& r.mask ≠ r.pattern) ∧
    ((⟨.ingest, 0xFF00FFFFFFFFFFFF, 0x4100000000000000⟩ : Row) ∈ opcodeTable ∧
      (0x4100000000000000 : CmdWord) &&& 0xFF00FFFFFFFFFFFF = 0x4100000000000000 ∧
      [(1 : Beat), 2, 3].length ≠ payloadLength tiny.cfg .ingest 0x4100000000000000) ∧
    (16 < (17 : BitVec 16).toNat ∧ (17 : BitVec 16) ≠ 0x80 ∧ (17 : BitVec 16) ≠ 0x81 ∧
      (17 : BitVec 16).toNat < 0x90) ∧
    (16 < (0x9A : BitVec 16).toNat ∧ 0x99 < (0x9A : BitVec 16).toNat) := by decide +kernel

theorem witness_ResetMeetsTheInvariants : Config.tiny.wf = true ∧ Config.default.wf = true := by decide +kernel

/-- A legal state with a `MIX` waiting, and one with a write waiting. -/
theorem witness_StepKeepsEveryRegisterInRange :
    (∃ t, (waiting (one topped) 0x5000000000000000 []).Legal ∧
      step (waiting (one topped) 0x5000000000000000 []) = .next t) ∧
    (∃ t, (waiting (one filled) 0x1100000000000001 [7]).Legal ∧
      step (waiting (one filled) 0x1100000000000001 [7]) = .next t) := by
  refine ⟨?_, ?_⟩
  · obtain ⟨t, h⟩ := next_of_after (o := step (waiting (one topped) 0x5000000000000000 [])) (by decide +kernel)
    exact ⟨t, by decide +kernel, h⟩
  · obtain ⟨t, h⟩ := next_of_after (o := step (waiting (one filled) 0x1100000000000001 [7])) (by decide +kernel)
    exact ⟨t, by decide +kernel, h⟩

theorem witness_StepKeepsMemoriesCanonical :
    ∃ t, (waiting (one filled) 0x1100000000000001 [7]).MemoryOk ∧
      step (waiting (one filled) 0x1100000000000001 [7]) = .next t := by
  obtain ⟨t, h⟩ := next_of_after (o := step (waiting (one filled) 0x1100000000000001 [7])) (by decide +kernel)
  exact ⟨t, by decide +kernel, h⟩

theorem witness_StepKeepsTheVoiceLifecycle :
    ∃ t, (∀ x ∈ (waiting (one filled) 0x4500000000000000 []).voices, x.Lifecycle) ∧
      step (waiting (one filled) 0x4500000000000000 []) = .next t := by
  obtain ⟨t, h⟩ := next_of_after (o := step (waiting (one filled) 0x4500000000000000 [])) (by decide +kernel)
  exact ⟨t, by decide +kernel, h⟩

theorem witness_StepKeepsFadersLegal :
    ∃ t, (∀ x ∈ (waiting (one topped) 0x3200000000000000 []).voices, x.FaderLegal) ∧
      step (waiting (one topped) 0x3200000000000000 []) = .next t := by
  obtain ⟨t, h⟩ := next_of_after (o := step (waiting (one topped) 0x3200000000000000 [])) (by decide +kernel)
  exact ⟨t, by decide +kernel, h⟩

theorem witness_NoStepChangesTheGainTable :
    ∃ t, step (waiting (one opened) 0x0100000000000000 []) = .next t := next_of_after (by decide +kernel)

/-- Five bytes to write where six cells are free. -/
theorem witness_DisciplinedStepsComplete :
    (waiting (one filled) 0x1100000000000005 [1, 2, 3, 4, 5]).Legal ∧
    (waiting (one filled) 0x1100000000000005 [1, 2, 3, 4, 5]).Disciplined := by
  refine ⟨by decide +kernel, ?_⟩
  intro cmd rest i hp hd
  obtain ⟨rfl, rfl⟩ : (⟨0x1100000000000005, [1, 2, 3, 4, 5]⟩ : Command) = cmd ∧ [] = rest := by
    simpa [waiting] using hp
  have e : decode Config.tiny ⟨0x1100000000000005, [1, 2, 3, 4, 5]⟩ = .ok (.rbwrite 0 (.comp [1, 2, 3, 4, 5])) := by
    decide
  obtain rfl : Instr.rbwrite 0 (.comp [1, 2, 3, 4, 5]) = i := by
    have h := e.symm.trans hd
    injection h
  intro x hx
  have hx' : x = filled := by simpa [waiting, one] using hx.symm
  subst hx'
  decide +kernel

theorem witness_ErrorAnswersWriteNoState :
    (∃ t, exec (.fstop 2) (one opened) = .next t ∧ t.response = some ⟨.badIndex, 0, []⟩) ∧
    (∃ t, exec (.openVoice 0 1 false false) (two opened opened) = .next t ∧
      t.response = some ⟨.noFreeVoice, 0, []⟩) ∧
    (∃ t, exec (.rdreg 0 0x82) (one opened) = .next t ∧ t.response = some ⟨.illegalCommand, 0, []⟩) ∧
    (∃ t, exec .mix { one opened with halted := true } = .next t ∧ t.response = some ⟨.storageError, 0, []⟩) ∧
    (∃ t, exec (.decerr 0) (one opened) = .next t ∧ t.response = some ⟨.streamError, 0, []⟩) ∧
    (∃ t, exec .storerr (one opened) = .next t ∧ t.response = some ⟨.storageError, 0, []⟩) :=
  ⟨next_of_answer (by decide +kernel), next_of_answer (by decide +kernel), next_of_answer (by decide +kernel),
    next_of_answer (by decide +kernel), next_of_answer (by decide +kernel), next_of_answer (by decide +kernel)⟩

theorem witness_HaltedUntilReset :
    (one opened).halted = false ∧
    ({ one opened with halted := true } : State).halted = true ∧
    (Instr.fade 7 0 1 false ≠ .reset ∧ ∀ v reg, Instr.fade 7 0 1 false ≠ .rdreg v reg) ∧
    (∃ t, exec .reset { one opened with halted := true } = .next t ∧ t.halted = false) ∧
    (∃ t, exec .storerr (one opened) = .next t ∧ t.halted = true) :=
  ⟨rfl, rfl, ⟨by decide, fun _ _ => by simp⟩, ⟨_, rfl, rfl⟩, ⟨_, rfl, rfl⟩⟩

theorem witness_StatusesBelongToTheirOperations : ∃ t, exec (.fetch 0 3) (one filled) = .next t :=
  next_of_after (by decide +kernel)

/-- The first index out of range, and a free slot. -/
theorem witness_NonHandlesAreBadIndex :
    (one opened).halted = false ∧ handleField (.hasdec 2) = some 2 ∧ (one opened).NoHandle 2 ∧
    handleField (.fade 1 0 10 false) = some 1 ∧ (one opened).NoHandle 1 :=
  ⟨rfl, rfl, .inl (by decide), rfl, .inr ⟨Voice.zero, rfl, rfl⟩⟩

/-- Exactly as many cells as are free. -/
theorem witness_WritesWithoutSpaceAreRefused :
    (one filled).Serves 0 filled ∧
    filled.freeOf Config.tiny (Cells.comp [1, 2, 3, 4, 5, 6]).sel ≤ (Cells.comp [1, 2, 3, 4, 5, 6]).count ∧
    filled.freeOf Config.tiny .pcm ≤ [(1 : Frame), 2, 3, 4, 5, 6, 7, 8, 9, 10].length ∧
    (one { filled with compWr := 12 }).Serves 0 { filled with compWr := 12 } ∧
    filled.bytesRead.toNat < filled.trackSize.toNat ∧
    ({ filled with compWr := 12 } : Voice).freeOf Config.tiny .comp ≤ [(1 : Byte), 2, 3, 4].length := by
  decide +kernel

theorem witness_VoiceOperationsTouchOneVoice :
    handleField (.rbread 1 .comp 3) = some 1 ∧
    ∃ t, exec (.rbread 1 .comp 3) (two opened filled) = .next t := ⟨rfl, next_of_after (by decide +kernel)⟩

theorem witness_QuantumCounterCountsMixes :
    (∃ t, exec .mix (one opened) = .next t) ∧ (∃ t, exec .reset (one opened) = .next t) ∧
    (∃ t, exec (.rbread 0 .comp 3) (one filled) = .next t) ∧
    Instr.rbread 0 .comp 3 ≠ .mix ∧ Instr.rbread 0 .comp 3 ≠ .reset :=
  ⟨next_of_after (by decide +kernel), ⟨_, rfl⟩, next_of_after (by decide +kernel), by decide, by decide⟩

/-- A `FETCH` and an `INGEST` on an allocated slot that stays allocated. -/
theorem witness_VoiceCountersOnlyIncrease :
    (one filled).Legal ∧
    (∃ t y, exec (.fetch 0 3) (one filled) = .next t ∧ t.voices[0]? = some y ∧ y.state ≠ .available) ∧
    (∃ t y, exec (.ingest 0 [1, 2, 3, 4]) (one filled) = .next t ∧ t.voices[0]? = some y ∧
      y.state ≠ .available) ∧
    (one filled).voices[0]? = some filled ∧ filled.state ≠ .available := by
  refine ⟨by decide +kernel, ?_, ?_, rfl, by decide⟩
  · exact ⟨_, _, rfl, rfl, by decide +kernel⟩
  · obtain ⟨t, h⟩ := next_of_after (o := exec (.ingest 0 [1, 2, 3, 4]) (one filled)) (by decide +kernel)
    have hs : ((after (exec (.ingest 0 [1, 2, 3, 4]) (one filled))).bind (fun t => t.voices[0]?)).map
      (fun y => decide (y.state = .playing)) = some true := by decide +kernel
    rw [h] at hs
    simp only [after, Option.bind_some] at hs
    cases hy : t.voices[0]? with
    | none =>
      rw [hy] at hs
      exact nomatch hs
    | some y =>
      rw [hy] at hs
      simp only [Option.map_some, Option.some.injEq, decide_eq_true_eq] at hs
      exact ⟨t, y, h, hy, by simp [hs]⟩

theorem witness_LockHasNoEffect :
    (∀ v, Instr.decerr 0 ≠ .rdreg v 1) ∧
    (one { filled with flags := ⟨true, true, false, false, false⟩ }).dropLock =
      (one { filled with flags := ⟨true, false, false, false, false⟩ }).dropLock :=
  ⟨fun _ => by simp, rfl⟩

/-- The last slot is the lowest free one; and no slot is free. -/
theorem witness_OpenTakesTheLowestFreeSlot :
    ((one opened).cfg.wf = true ∧ (one opened).halted = false ∧ (one opened).voices[1]? = some Voice.zero ∧
      Voice.zero.state = .available ∧ (one opened).voices[0]? = some opened ∧ opened.state ≠ .available) ∧
    (∀ x ∈ (two opened filled).voices, x.state ≠ .available) := by decide +kernel

theorem witness_StopvArmsTheStop :
    (one opened).cfg.wf = true ∧ (one opened).Serves 0 opened ∧
    (one { opened with gainIdx := 0 }).Serves 0 { opened with gainIdx := 0 } ∧
    (one { opened with gainIdx := 1 }).Serves 0 { opened with gainIdx := 1 } ∧
    (1 : BitVec 16) ≠ 0 ∧ (1 : BitVec 16) ≠ 0 := by decide +kernel

theorem witness_QueryCountsAllocatedVoices :
    (two opened filled).halted = false ∧ (two opened filled).halt.halted = true := ⟨rfl, rfl⟩

/-- The last voice, the first index out of range, and the first and the last unassigned register numbers. -/
theorem witness_RdregReadsTheRegisterMap :
    ((1 : BitVec 8).toNat < (one opened).cfg.maxVoices ∧ (one opened).voices[(1 : BitVec 8).toNat]? = some Voice.zero) ∧
    ((16 : BitVec 16).toNat ≤ 16 ∧ (one opened).cfg.maxVoices ≤ (2 : BitVec 8).toNat) ∧
    (16 < (17 : BitVec 16).toNat ∧ (17 : BitVec 16).toNat < 0x90) ∧
    0x99 < (0x9A : BitVec 16).toNat := by decide +kernel

theorem witness_SpaceQueriesAnswerTheCursorDifference :
    (one { filled with compRd := 11 }).cfg.wf = true ∧
    (one { filled with compRd := 11 }).Serves 0 { filled with compRd := 11 } := by decide +kernel

/-- One cell fewer than are free, in both buffers. -/
theorem witness_RbwriteStoresTheCells :
    (one filled).cfg.wf = true ∧ (one filled).MemoryOk ∧ (one filled).Serves 0 filled ∧
    ([(1 : Byte), 2, 3, 4, 5].length : Int) < (one filled).cfg.cComp - usedComp (one filled).cfg filled ∧
    ([(1 : Frame), 2, 3, 4, 5, 6, 7, 8, 9].length : Int) <
      (one filled).cfg.cPcm - usedPcm (one filled).cfg filled := by decide +kernel

/-- More cells asked for than are used, and none. -/
theorem witness_RbreadReturnsTheOldestCells :
    (one filled).cfg.wf = true ∧ (one filled).Serves 0 filled ∧
    ((10 : Nat) : Int) = min (((0xFFFFFFFF : BitVec 32).toNat : Nat) : Int) (usedComp (one filled).cfg filled) ∧
    ((0 : Nat) : Int) = min (((0 : BitVec 32).toNat : Nat) : Int) (usedPcm (one filled).cfg filled) := by
  decide +kernel

/-- Two cells written where three are free, past the top of the array. -/
theorem witness_CheckedWritesNeverFillTheRing :
    Memory.wf ([(2, 9)] : Memory 8) = true ∧ (2 : Nat) < 4 ∧ (3 : Nat) < 4 ∧
    (⟨4, [(2, 9)], 3, 2⟩ : RingBuffer 8).hasSpace [(7 : Byte), 8].length = true := by decide +kernel

/-- Two writes and two reads that wrap. -/
theorem witness_RingIsAFifo :
    Memory.wf ([] : Memory 8) = true ∧
    runRing [.write [1, 2, 3], .read 2, .write [4, 5], .read 9] (⟨4, [], 2, 2⟩ : RingBuffer 8)
      = some (⟨4, [(0, 3), (1, 4), (2, 5), (3, 2)], 3, 3⟩, [1, 2, 3, 4, 5], [1, 2, 3, 4, 5]) := by decide +kernel

theorem witness_Db2idxAnswersTheClampedIndex : tiny.cfg.wf = true ∧ tiny.halted = false := by decide +kernel

theorem witness_Idx2linReadsTheTable : tiny.cfg.wf = true ∧ tiny.halted = false := by decide +kernel

/-- The two ends of the table, the last index below the floor, and two decibel values. -/
theorem witness_GainIsMonotoneInDecibels :
    Config.tiny.wf = true ∧ (0 ≤ 160 ∧ 160 < Config.tiny.n) ∧ 3 < Config.tiny.z ∧ (-6 : Int) ≤ -3 := by
  decide +kernel

/-- Durations 0 and 2; 3 to the current index; 3 to another index. -/
theorem witness_FadeEntersTheFadeItNames :
    (one opened).Serves 0 opened ∧
    ((1 : Nat) = max 1 (0 : BitVec 16).toNat ∧ (1 : Nat) < 3) ∧
    ((2 : Nat) = max 1 (2 : BitVec 16).toNat ∧ (2 : Nat) < 3) ∧
    (3 : Nat) = max 1 (3 : BitVec 16).toNat ∧
    (160 = dbToIndex (one opened).cfg (0 : BitVec 16).toInt ∧ 160 = opened.gainIdx.toNat) ∧
    (148 = dbToIndex (one opened).cfg (-6 : BitVec 16).toInt ∧ 148 ≠ opened.gainIdx.toNat) := by decide +kernel

theorem witness_FstopForcesIdle : (one topped).Serves 0 topped := by decide +kernel

/-- A voice in each state of the fader. -/
theorem witness_FsvcServicesOneQuantum :
    ((one opened).Serves 0 opened ∧ opened.faderCtl.active = false) ∧
    (one { opened with faderCtl := ⟨true, false, false, 1, false⟩ }).Serves 0
      { opened with faderCtl := ⟨true, false, false, 1, false⟩ } ∧
    (one { opened with faderCtl := ⟨true, true, false, 2, true⟩ }).Serves 0
      { opened with faderCtl := ⟨true, true, false, 2, true⟩ } ∧
    ((one { topped with faderCtl := ⟨true, true, true, 0, false⟩ }).Serves 0
      { topped with faderCtl := ⟨true, true, true, 0, false⟩ } ∧ topped.target.toNat ≤ topped.gainIdx.toNat) ∧
    ((one topped).Serves 0 topped ∧ topped.gainIdx.toNat ≤ topped.target.toNat) ∧
    ((one { topped with faderCtl := ⟨true, true, true, 0, false⟩, gainIdx := 159 }).Serves 0
      { topped with faderCtl := ⟨true, true, true, 0, false⟩, gainIdx := 159 } ∧ (159 : Nat) < topped.target.toNat) ∧
    ((one { topped with target := 159 }).Serves 0 { topped with target := 159 } ∧
      (159 : Nat) < topped.gainIdx.toNat) := by decide +kernel

theorem witness_FadeRampDeltaBounds :
    Config.tiny.wf = true ∧ opened.gainIdx.toNat < Config.tiny.n ∧
    dbToIndex Config.tiny (-80) ≠ opened.gainIdx.toNat := by decide +kernel

theorem witness_ShortFadesTakeTwoServices :
    Config.tiny.wf = true ∧
    faderService (faderStart Config.tiny opened (-6) 2 true)
      = ({ opened with gainIdx := 148, target := 148, faderCtl := ⟨true, true, false, 2, true⟩ }, false) ∧
    faderService { opened with gainIdx := 148, target := 148, faderCtl := ⟨true, true, false, 2, true⟩ }
      = ({ opened with gainIdx := 148, target := 148, faderCtl := ⟨false, true, false, 0, false⟩ }, true) := by
  decide +kernel

/-- T19: from 100 to 120 with `rampDelta = 0x00060000`. -/
theorem witness_UpRampsConverge :
    (0x00640000 : Nat) = 100 * 65536 ∧ (100 : Nat) < 120 ∧ (120 : Nat) ≤ 2000 ∧ 0 < (0x00060000 : Nat) ∧
    (0x00060000 : Nat) ≤ (120 - 100) * 65536 ∧
    (4 : Nat) = ((120 - 100) * 65536 + (0x00060000 - 1)) / 0x00060000 ∧
    (serviceTimes 4 { opened with
      faderCtl := ⟨true, false, true, 0, false⟩, gainIdx := 100, target := 120, rampDelta := 0x00060000
      rampAcc := 0x00640000 }).gainIdx = 120 := by decide +kernel

/-- T20: from 160 to 0 with `rampDelta = 314572`. -/
theorem witness_DownRampsConverge :
    (0x00A00000 : Nat) = 160 * 65536 ∧ (0 : Nat) < 160 ∧ 0 < (314572 : Nat) ∧
    (34 : Nat) = (160 - 0 - 1) * 65536 / 314572 + 1 ∧
    (serviceTimes 34 { opened with
      faderCtl := ⟨true, true, false, 0, false⟩, target := 0, rampDelta := 314572
      rampAcc := 0x00A00000 }).gainIdx = 0 := by decide +kernel

/-- A whole block where five cells are free; and the end of the file. -/
theorem witness_IngestWritesTheBlock :
    (one { filled with compWr := 11 }).cfg.wf = true ∧ (one { filled with compWr := 11 }).MemoryOk ∧
    (one { filled with compWr := 11 }).Serves 0 { filled with compWr := 11 } ∧
    [(1 : Byte), 2, 3, 4].length = (one filled).cfg.blockBytes ∧
    filled.bytesRead.toNat < filled.trackSize.toNat ∧
    ((one filled).cfg.blockBytes : Int) < (one filled).cfg.cComp - usedComp (one filled).cfg { filled with compWr := 11 } ∧
    (4 : Nat) = min (one filled).cfg.blockBytes (filled.trackSize.toNat - filled.bytesRead.toNat) ∧
    (one { filled with bytesRead := 100 }).Serves 0 { filled with bytesRead := 100 } ∧
    ({ filled with bytesRead := 100 } : Voice).bytesRead = filled.trackSize := by decide +kernel

/-- The remaining track, 4 bytes, is the least of the three. -/
theorem witness_FetchDeliversTheOldestBytes :
    (one { filled with bytesDeliv := 96 }).cfg.wf = true ∧
    (one { filled with bytesDeliv := 96 }).Serves 0 { filled with bytesDeliv := 96 } ∧
    (96 : Nat) ≤ filled.trackSize.toNat ∧
    ((4 : Nat) : Int) = min (((1000 : BitVec 32).toNat : Nat) : Int)
      (min (((filled.trackSize.toNat : Nat) : Int) - (96 : Nat)) (usedComp Config.tiny filled)) := by decide +kernel

theorem witness_PushStoresTheFrames :
    (one filled).cfg.wf = true ∧ (one filled).MemoryOk ∧ (one filled).Serves 0 filled ∧
    ([(1 : Frame), 2, 3, 4, 5, 6, 7, 8, 9].length : Int) <
      (one filled).cfg.cPcm - usedPcm (one filled).cfg filled := by decide +kernel

theorem witness_DecerrFinalizesTheVoice : (one filled).Serves 0 filled := by decide +kernel

/-- P3: a 10-byte track in three blocks, delivered whole. -/
theorem witness_DeliveredBytesAreTheTrack :
    Config.tiny.wf = true ∧ Memory.wf opened.comp = true ∧ opened.compWr = opened.compRd ∧
    opened.compRd.toNat < Config.tiny.cComp ∧ opened.bytesRead = 0 ∧ opened.bytesDeliv = 0 ∧
    (runStream Config.tiny
      [.ingest [160, 161, 162, 163], .ingest [164, 165, 166, 167], .fetch 7, .ingest [168, 169, 238, 239], .fetch 7]
      { opened with trackSize := 10 }).map (fun p => (p.1.bytesDeliv, p.1.bytesRead, p.2.2))
      = some (10, 10, [160, 161, 162, 163, 164, 165, 166, 167, 168, 169]) := by decide +kernel

theorem witness_MixCompletesWithOneQuantum : (two topped filled).Legal ∧ (two topped filled).halted = false := by
  decide +kernel

theorem witness_MixIsTheSaturatingChainOfVoices : (two filled filled).Legal ∧ (two filled filled).halted = false := by
  decide +kernel

/-- A stop is pending on a silent voice. -/
def silentStopping : Voice := { filled with gainIdx := 0, flags := ⟨false, false, true, false, false⟩ }

/-- A stop is pending on a voice at index 1. -/
def audibleStopping : Voice := { silentStopping with gainIdx := 1 }

/-- T45: a stop is pending on a voice with an up ramp in flight. -/
def rampingStopping : Voice :=
  { silentStopping with
    gainIdx := 80, target := 160, faderCtl := ⟨true, false, true, 0, false⟩, rampDelta := 0x00280000
    rampAcc := 0x00500000 }

/-- T45: the literal hard mute. -/
def literal (x : Voice) : State := { one x with cfg := { Config.tiny with hardMuteCancelsFader := false } }

/-- A stop is pending on an audible voice with this fader, its target index 160. -/
def fadingStopping (f : FaderCtl) : Voice := { rampingStopping with faderCtl := f }

/-- Each clause: silent; muted with the fader cancelled, at the end of the stream and not; under the literal
mute an Idle fader, an up ramp, a pending short fade, and the fades that end (short completed, down ramp,
up ramp to index 0), with and without `stopOnComplete`. -/
theorem witness_ImmediateStopMutesThenFinalizes :
    ((one silentStopping).Legal ∧ silentStopping.gainIdx = 0) ∧
    ((one audibleStopping).Legal ∧ audibleStopping.gainIdx ≠ 0 ∧
      (one audibleStopping).cfg.hardMuteCancelsFader = true ∧ ¬ audibleStopping.AtEnd Config.tiny) ∧
    ((one { audibleStopping with pcmWr := 0, flags := ⟨false, false, true, true, false⟩ }).Legal ∧
      { audibleStopping with pcmWr := 0, flags := ⟨false, false, true, true, false⟩ : Voice }.AtEnd Config.tiny) ∧
    ((literal audibleStopping).Legal ∧ (literal audibleStopping).cfg.hardMuteCancelsFader = false ∧
      audibleStopping.faderCtl.active = false) ∧
    ((literal rampingStopping).Legal ∧ rampingStopping.gainIdx ≠ 0 ∧ rampingStopping.faderCtl.active = true ∧
      rampingStopping.faderCtl.shortFadeMode = 0 ∧ rampingStopping.faderCtl.up = true ∧
      0 < rampingStopping.target.toNat) ∧
    (literal (fadingStopping ⟨true, false, false, 1, false⟩)).Legal ∧
    (literal (fadingStopping ⟨true, true, false, 2, true⟩)).Legal ∧
    (literal (fadingStopping ⟨true, false, false, 0, false⟩)).Legal ∧
    (literal { fadingStopping ⟨true, true, true, 0, false⟩ with target := 0 }).Legal :=
  ⟨by decide +kernel, by decide +kernel, by decide +kernel, by decide +kernel, by decide +kernel,
    by decide +kernel, by decide +kernel, by decide +kernel, by decide +kernel⟩

theorem witness_CompletedStopFadeFinalizes :
    (one topped).Legal ∧ (one topped).halted = false ∧ (one topped).voices[0]? = some topped ∧
    topped.state = .playing ∧ topped.flags.stopRequested = false ∧ (faderService topped).2 = true := by
  decide +kernel

/-- A voice at the end of its file with six frames left. -/
def endingFull : Voice := { filled with flags := ⟨false, false, false, true, false⟩ }

/-- A voice at the end of its file with one frame left. -/
def endingLast : Voice := { endingFull with pcmRd := 5 }

/-- A voice at the end of its file with no frame left. -/
def ended : Voice := { opened with flags := ⟨false, false, false, true, false⟩ }

/-- The same, looping. -/
def endedLooping : Voice := { opened with flags := ⟨true, false, false, true, false⟩ }

/-- No stop pending; a stop pending on an audible voice, with the fader cancelled and under the literal mute
with an up ramp in flight; and a looping voice with nothing decoded. -/
theorem witness_MixDrainsAPlayingVoice :
    ((one endingFull).Legal ∧ faderService (mutedSlot Config.tiny endingFull) = (endingFull, false) ∧
      ¬ endingFull.AtEnd Config.tiny ∧
      ((6 : Nat) : Int) = min ((Config.tiny.q : Nat) : Int) (usedPcm Config.tiny endingFull)) ∧
    ((one audibleStopping).Legal ∧ audibleStopping.flags.stopRequested = true ∧ audibleStopping.gainIdx ≠ 0 ∧
      (faderService (mutedSlot Config.tiny audibleStopping)).2 = false ∧ ¬ audibleStopping.AtEnd Config.tiny) ∧
    ((literal rampingStopping).Legal ∧ rampingStopping.gainIdx ≠ 0 ∧
      (faderService (mutedSlot (literal rampingStopping).cfg rampingStopping)).2 = false ∧
      ¬ rampingStopping.AtEnd Config.tiny) ∧
    ((one endedLooping).Legal ∧ ¬ endedLooping.AtEnd Config.tiny ∧
      ((0 : Nat) : Int) = min ((Config.tiny.q : Nat) : Int) (usedPcm Config.tiny endedLooping)) :=
  ⟨by decide +kernel, by decide +kernel, by decide +kernel, by decide +kernel⟩

theorem witness_EndOfStreamFinalizes :
    ((one ended).Legal ∧ usedPcm Config.tiny ended = 0 ∧ ended.flags.endOfFile = true ∧ ended.flags.loop = false) ∧
    ((one endingLast).Legal ∧ usedPcm Config.tiny endingLast ≠ 0 ∧ endingLast.faderCtl.active = false) ∧
    ((one endedLooping).Legal ∧ endedLooping.flags.loop = true ∧ endedLooping.faderCtl.active = false) :=
  ⟨by decide +kernel, by decide +kernel, by decide +kernel⟩

theorem witness_FrameGainRampsBetweenTheEnds :
    0 < 6 ∧ 5 < 6 ∧ frameGain 65536 32846 6 5 = 32846 ∧ frameGain 65536 32846 6 0 = 60087 := by decide +kernel

theorem witness_RampLengthOfTheQuantum :
    Config.tiny.wf = true ∧ rampLength Config.tiny ⟨true, false, false, 1, true⟩ = 2 ∧
    rampLength Config.tiny ⟨true, false, false, 2, true⟩ = 4 ∧
    rampLength Config.tiny ⟨true, false, false, 2, false⟩ = 6 := by decide +kernel

/-- T33: one channel value at −6 dB. -/
theorem witness_GainMultiplierFitsASample :
    (-32768 : Int) ≤ -1000 ∧ (-1000 : Int) ≤ 32767 ∧ (0 : Int) ≤ 32846 ∧ (32846 : Int) ≤ 65536 ∧
    scaleSample (-1000) 32846 = -502 := by decide +kernel

/-- A silent voice into an accumulator that is not empty; one voice at unity gain. -/
theorem witness_MixAdditivity :
    ([(0x00010002 : Frame), 0, 0, 0, 0, 0x80007FFF].length = Config.tiny.q ∧
      ((mixVoice Config.tiny { filled with gainIdx := 0, gainLin := 0 }
        ⟨[0x00010002, 0, 0, 0, 0, 0x80007FFF], [], 1, 0, 0⟩).map (fun p => p.1.gainLin)) = some 0) ∧
    ((∀ k, Memory.read opened.pcm k = 0) ∧
      (mixVoice Config.tiny opened ⟨[0x00010002, 0, 0, 0, 0, 0x80007FFF], [], 1, 0, 0⟩).isSome = true) ∧
    (one filled).Legal ∧ faderService filled = (filled, false) ∧ filled.gainLin.toNat = unity ∧
    (one filled).cfg.gainRom[filled.gainIdx.toNat]? = some unity ∧
    (∀ z, (one filled).voices[1]? = some z → z.state ≠ .playing) :=
  ⟨by decide +kernel, ⟨fun _ => rfl, by decide +kernel⟩, by decide +kernel, by decide +kernel, by decide +kernel,
    by decide +kernel, fun z hz => by
      obtain rfl : Voice.zero = z := by simpa [one] using hz
      decide⟩

theorem witness_ImmediateStopEndsWithinTwoMixes :
    (one { topped with flags := ⟨true, true, true, false, false⟩ }).Legal ∧
    (one topped).cfg.hardMuteCancelsFader = true := by decide +kernel

/-- A silent stop, a fade that ends with `stopOnComplete`, a voice that is mixed, one at the end of its
stream, and a free slot. -/
theorem witness_VoiceContributesItsScaledFrames :
    ((one silentStopping).Legal ∧ silentStopping.gainIdx = 0) ∧
    ((one topped).Legal ∧ (faderService (mutedSlot Config.tiny topped)).2 = true) ∧
    ((one filled).Legal ∧ filled.flags.stopRequested = false ∧
      (faderService (mutedSlot Config.tiny filled)).2 = false ∧ ¬ filled.AtEnd Config.tiny) ∧
    ((one ended).Legal ∧ (faderService (mutedSlot Config.tiny ended)).2 = false ∧ ended.AtEnd Config.tiny) ∧
    Voice.zero.state ≠ .playing :=
  ⟨by decide +kernel, by decide +kernel, by decide +kernel, by decide +kernel, by decide⟩

end Sys2Proof.Tests
end

section
/-! PROOFS (10_state.md). What an operation does slot by slot, and the invariants of R22, R25, R30, R33 and R43 as
case analyses over it. -/
namespace Sys2Proof.Machine

/-! ### What an operation leaves of the state outside the slots -/

/-- An operation of the kind `AnswerOnly` writes nothing but the response. -/
theorem answerOnly_respond {i : Instr} {s t : State} (h : AnswerOnly i s t) :
    ∃ st w p, t = s.respond st w p := by
  rcases h with ⟨-, -, -, w, p, rfl⟩ | ⟨-, -, -, rfl⟩ | ⟨-, rfl⟩ | ⟨-, rfl⟩ | ⟨-, rfl⟩
  · exact ⟨.ok, w, p, rfl⟩
  all_goals exact ⟨_, 0, [], rfl⟩

/-- `RESET` always writes the reset state, it never only answers (R241). -/
theorem answerOnly_ne_reset {i : Instr} {s t : State} (h : AnswerOnly i s t) : i ≠ .reset := by
  rintro rfl
  rcases h with ⟨h, -⟩ | ⟨-, h, -⟩ | ⟨h | ⟨_, _, h, -⟩, -⟩ | ⟨⟨_, _, _, _, h⟩, -⟩ | ⟨⟨_, _, h⟩, -⟩
  · exact h rfl
  · exact h rfl
  · exact nomatch h
  all_goals exact nomatch h

/-- `MIX` only answers while halted (R223, R272). -/
theorem answerOnly_mix_halted {s t : State} (h : AnswerOnly .mix s t) : s.halted = true := by
  rcases h with ⟨-, -, h, -⟩ | ⟨h, -⟩ | ⟨h | ⟨_, _, h, -⟩, -⟩ | ⟨⟨_, _, _, _, h⟩, -⟩ | ⟨⟨_, _, h⟩, -⟩
  · exact absurd rfl h
  · exact h
  · exact nomatch h
  all_goals exact nomatch h

/-- `RESET` has one next state, halted or not (R241). -/
theorem exec_reset_next {s t : State} (h : exec .reset s = .next t) : t = s.performReset.ok 0 [] :=
  (Host.Outcome.next.inj h).symm

/-- No operation writes the configuration (R74, R291). -/
theorem exec_cfg {i : Instr} {s t : State} (h : exec i s = .next t) : t.cfg = s.cfg := by
  rcases exec_next h with h | h | h | h | h | h
  · obtain ⟨st, w, p, rfl⟩ := answerOnly_respond h
    rfl
  · obtain ⟨v, x, st, w, p, -, -, -, rfl, -⟩ := h
    rfl
  · obtain ⟨db, size, loop, lock, v, lin, -, -, -, -, rfl⟩ := h
    rfl
  · obtain ⟨-, -, vs, r, -, rfl⟩ := h
    rfl
  · obtain ⟨-, rfl⟩ := h
    rfl
  · obtain ⟨-, -, rfl⟩ := h
    rfl

/-! ### What an operation does to one slot -/

/-- What an operation other than `RESET` can make of the slot `x`: nothing, its own write to the voice it names,
a voice opened in a free slot, and the two ways of `MIX`, finalized or drained by a quantum. -/
inductive SlotStep (c : Config) (i : Instr) (x : Voice) : Voice → Prop where
  | kept : SlotStep c i x x
  | written (v : BitVec 8) (hv : handleField i = some v) (ha : x.state ≠ .available) (hg : EffectGuard c x i) :
      SlotStep c i x (voiceEffect c i x)
  | opened (db : BitVec 16) (lin : Nat) (size : BitVec 32) (loop lock : Bool) (ts : BitVec 32)
      (hi : i = .openVoice db size loop lock) (ha : x.state = .available)
      (hl : indexToLinear c (dbToIndex c db.toInt) = some lin) :
      SlotStep c i x (openedVoice (dbToIndex c db.toInt) lin size loop lock ts)
  | finalized (hi : i = .mix) (hp : x.state = .playing) : SlotStep c i x x.finalize
  | drained (lin : Nat) (hi : i = .mix) (hp : x.state = .playing)
      (hl : indexToLinear c (faderService (hardMute c x)).1.gainIdx.toNat = some lin) :
      SlotStep c i x (drainedVoice c (faderService (hardMute c x)).1 (mixAvail c x) lin)

/-- What `MIX` makes of a slot is one of these. -/
theorem slotStep_of_mixVoice {c : Config} {x y : Voice} {r r' : MixRun}
    (h : mixVoice c x r = some (y, r')) : SlotStep c .mix x y := by
  rcases mixVoice_cases c x r with ⟨-, e⟩ | ⟨hp, -, e⟩ | ⟨hp, -, -, e⟩ | ⟨-, -, -, -, e⟩ | ⟨hp, -, -, lin, hl, e⟩
  · obtain ⟨rfl, -⟩ : x = y ∧ r = r' := by simpa [e] using h
    exact .kept
  · obtain ⟨rfl, -⟩ : x.finalize = y ∧ _ := by simpa [e] using h
    exact .finalized rfl hp
  · obtain ⟨rfl, -⟩ : x.finalize = y ∧ _ := by simpa [e] using h
    exact .finalized rfl hp
  · simp [e] at h
  · rw [e] at h
    split at h
    · obtain ⟨rfl, -⟩ : x.finalize = y ∧ _ := by simpa using h
      exact .finalized rfl hp
    · obtain ⟨rfl, -⟩ : drainedVoice c _ _ lin = y ∧ _ := by simpa using h
      exact .drained lin rfl hp hl

/-- One slot replaced: every slot after is the old one or the new one at its place. -/
theorem slotStep_of_set {c : Config} {i : Instr} {xs : List Voice} {v : Nat} {x y : Voice}
    (hx : xs[v]? = some x) (h : SlotStep c i x y) {w : Nat} {y' : Voice} (hy : (xs.set v y)[w]? = some y') :
    ∃ x', xs[w]? = some x' ∧ SlotStep c i x' y' := by
  by_cases hvw : v = w
  · subst hvw
    obtain ⟨hv, -⟩ := List.getElem?_eq_some_iff.1 hx
    obtain rfl : y = y' := by simpa [hv] using hy
    exact ⟨x, hx, h⟩
  · exact ⟨y', by simpa [hvw] using hy, .kept⟩

/-- The inversion lemma of `exec`, slot by slot: an operation other than `RESET` keeps the number of slots, and
each slot after it comes from the slot of the same index by a `SlotStep`. -/
theorem exec_slot {i : Instr} {s t : State} (h : exec i s = .next t) (hi : i ≠ .reset) :
    t.voices.length = s.voices.length ∧
    ∀ (v : Nat) (y : Voice), t.voices[v]? = some y → ∃ x, s.voices[v]? = some x ∧ SlotStep s.cfg i x y := by
  rcases exec_next h with h | h | h | h | h | h
  · obtain ⟨st, w, p, rfl⟩ := answerOnly_respond h
    exact ⟨rfl, fun v y hy => ⟨y, hy, .kept⟩⟩
  · obtain ⟨v, x, st, w, p, hv, ⟨-, -, hx, ha⟩, hg, rfl, -⟩ := h
    exact ⟨by simp, fun u y hy => slotStep_of_set hx (.written v hv ha hg) hy⟩
  · obtain ⟨db, size, loop, lock, v, lin, hi, -, hv, hl, rfl⟩ := h
    obtain ⟨x, hx, ha, -⟩ := (lowestFree_some s v).1 hv
    exact ⟨by simp, fun u y hy => slotStep_of_set hx (.opened db lin size loop lock _ hi ha hl) hy⟩
  · obtain ⟨rfl, -, vs, r, hm, rfl⟩ := h
    obtain ⟨hlen, hslot⟩ := mixVoices_slot hm
    refine ⟨hlen, fun v y hy => ?_⟩
    obtain ⟨hv, -⟩ := List.getElem?_eq_some_iff.1 hy
    obtain ⟨y', r1, r2, hy', hmix⟩ := hslot v s.voices[v] (List.getElem?_eq_getElem (hlen ▸ hv))
    obtain rfl : y = y' := Option.some.inj (hy.symm.trans hy')
    exact ⟨s.voices[v], List.getElem?_eq_getElem _, slotStep_of_mixVoice hmix⟩
  · exact absurd h.1 hi
  · obtain ⟨-, -, rfl⟩ := h
    exact ⟨rfl, fun v y hy => ⟨y, hy, .kept⟩⟩

/-! ### Invariants of a voice and of a state -/

/-- What makes `P` an invariant of every voice slot: a finalized slot has it, and so have an opened voice and
whatever an operation's write or a quantum makes of a slot that has it. -/
structure VoiceInvariant (P : Config → Voice → Prop) : Prop where
  finalized : ∀ {c : Config} (x : Voice), c.wf = true → P c x.finalize
  opened : ∀ {c : Config} (db : Int) (lin : Nat) (size : BitVec 32) (loop lock : Bool) (ts : BitVec 32),
    c.wf = true → indexToLinear c (dbToIndex c db) = some lin →
      P c (openedVoice (dbToIndex c db) lin size loop lock ts)
  written : ∀ {c : Config} {x : Voice} (i : Instr), c.wf = true → P c x → x.state ≠ .available →
    EffectGuard c x i → P c (voiceEffect c i x)
  drained : ∀ {c : Config} {x : Voice} (lin : Nat), c.wf = true → P c x → x.state = .playing →
    indexToLinear c (faderService (hardMute c x)).1.gainIdx.toNat = some lin →
      P c (drainedVoice c (faderService (hardMute c x)).1 (mixAvail c x) lin)

/-- The reset slot is a finalized one (R42, R243). -/
theorem VoiceInvariant.zero {P : Config → Voice → Prop} (hP : VoiceInvariant P) {c : Config} (hc : c.wf = true) :
    P c Voice.zero := hP.finalized Voice.zero hc

theorem VoiceInvariant.slotStep {P : Config → Voice → Prop} (hP : VoiceInvariant P) {c : Config} {i : Instr}
    {x y : Voice} (hc : c.wf = true) (hx : P c x) (h : SlotStep c i x y) : P c y := by
  cases h with
  | kept => exact hx
  | written v hv ha hg => exact hP.written i hc hx ha hg
  | opened db lin size loop lock ts hi ha hl => exact hP.opened db.toInt lin size loop lock ts hc hl
  | finalized hi hp => exact hP.finalized x hc
  | drained lin hi hp hl => exact hP.drained lin hc hx hp hl

theorem VoiceInvariant.resetOf {P : Config → Voice → Prop} (hP : VoiceInvariant P) {c : Config}
    (hc : c.wf = true) : ∀ x ∈ (State.resetOf c).voices, P c x := fun x hx => by
  obtain ⟨-, rfl⟩ := List.mem_replicate.1 hx
  exact hP.zero hc

/-- Every operation keeps a voice invariant in every slot. -/
theorem VoiceInvariant.exec {P : Config → Voice → Prop} (hP : VoiceInvariant P) {i : Instr} {s t : State}
    (hc : s.cfg.wf = true) (hs : ∀ x ∈ s.voices, P s.cfg x) (h : exec i s = .next t) :
    ∀ y ∈ t.voices, P t.cfg y := by
  rw [exec_cfg h]
  by_cases hi : i = .reset
  · subst hi
    obtain rfl := exec_reset_next h
    exact hP.resetOf hc
  · intro y hy
    obtain ⟨v, hv⟩ := List.getElem?_of_mem hy
    obtain ⟨x, hx, hxy⟩ := (exec_slot h hi).2 v y hv
    exact hP.slotStep hc (hs x (List.mem_of_getElem? hx)) hxy

/-- What every operation keeps, and what does not depend on the port, every step keeps (R70, R90). -/
theorem step_keeps {I : State → Prop} (hpend : ∀ (s : State) rest, I s → I { s with pending := rest })
    (herr : ∀ (s : State) st, I s → I (s.error st))
    (hexec : ∀ (i : Instr) (s t : State), s.cfg.wf = true → I s → exec i s = .next t → I t)
    {s t : State} (hs : I s) (h : step s = .next t) : I t := by
  obtain ⟨hc, ⟨-, rfl⟩ | ⟨cmd, rest, -, ⟨i, -, h⟩ | ⟨-, rfl⟩⟩⟩ := step_next h
  · exact hs
  · exact hexec i { s with pending := rest } t hc (hpend s rest hs) h
  · exact herr _ _ (hpend s rest hs)

/-- Every step keeps a voice invariant in every slot. -/
theorem VoiceInvariant.step {P : Config → Voice → Prop} (hP : VoiceInvariant P) {s t : State}
    (hs : ∀ x ∈ s.voices, P s.cfg x) (h : step s = .next t) : ∀ y ∈ t.voices, P t.cfg y :=
  step_keeps (I := fun s => ∀ x ∈ s.voices, P s.cfg x) (fun _ _ hs => hs) (fun _ _ hs => hs)
    (fun _ _ _ hc hs h => hP.exec hc hs h) hs h

/-! ### What the procedures on a voice leave alone -/

/-- What an operation on an allocated voice keeps, beside its rings, its fader and its gain: `state`, the fields of
`OPEN`, the byte counters of the operations that do not advance them, and the directions of R25 and R276. -/
structure StreamKept (i : Instr) (x y : Voice) : Prop where
  state : y.state = x.state
  bytesRead : (∀ w block, i ≠ .ingest w block) → y.bytesRead = x.bytesRead
  bytesDeliv : (∀ w n, i ≠ .fetch w n) → y.bytesDeliv = x.bytesDeliv
  framesPlayed : x.framesPlayed.toNat ≤ y.framesPlayed.toNat
  stopRequested : x.flags.stopRequested = true → y.flags.stopRequested = true
  endOfFile : x.flags.endOfFile = true → y.flags.endOfFile = true
  loop : y.flags.loop = x.flags.loop
  lock : y.flags.lock = x.flags.lock
  trackSize : y.trackSize = x.trackSize
  triggerTs : y.triggerTs = x.triggerTs

/-- A voice that differs in its rings and its fader only. -/
theorem streamKept_of_frame {i : Instr} {x y : Voice}
    (h : y = { x with
      compWr := y.compWr, compRd := y.compRd, comp := y.comp
      pcmWr := y.pcmWr, pcmRd := y.pcmRd, pcm := y.pcm
      gainIdx := y.gainIdx, faderCtl := y.faderCtl, target := y.target
      rampDelta := y.rampDelta, rampAcc := y.rampAcc }) : StreamKept i x y := by
  rw [h]
  exact ⟨rfl, fun _ => rfl, fun _ => rfl, Nat.le_refl _, id, id, rfl, rfl, rfl, rfl⟩

/-- The frame of `fader_start`: the fader control, the target and the ramp (R157, R158). -/
theorem faderStart_frame (c : Config) (x : Voice) (db : Int) (ticks : Nat) (soc : Bool) :
    faderStart c x db ticks soc =
      { x with
        faderCtl := (faderStart c x db ticks soc).faderCtl
        target := (faderStart c x db ticks soc).target
        rampDelta := (faderStart c x db ticks soc).rampDelta
        rampAcc := (faderStart c x db ticks soc).rampAcc } := by
  unfold faderStart faderStartNormal
  split
  · rfl
  · split <;> rfl

theorem streamKept_faderStart (i : Instr) (c : Config) (x : Voice) (db : Int) (ticks : Nat) (soc : Bool) :
    StreamKept i x (faderStart c x db ticks soc) :=
  streamKept_of_frame (by rw [faderStart_frame c x db ticks soc])

theorem streamKept_stopVoice (i : Instr) (c : Config) (x : Voice) (ticks : Nat) :
    StreamKept i x (stopVoice c ticks x) := by
  unfold stopVoice
  split
  · exact ⟨rfl, fun _ => rfl, fun _ => rfl, Nat.le_refl _, fun _ => rfl, id, rfl, rfl, rfl, rfl⟩
  · exact streamKept_faderStart i c x _ ticks true

/-- An operation's write to its voice keeps the stream, unless `DECERR` finalizes it (R192). -/
theorem streamKept_voiceEffect (c : Config) (i : Instr) (x : Voice) (hd : ∀ v, i ≠ .decerr v) :
    StreamKept i x (voiceEffect c i x) := by
  cases i with
  | stopv v ticks => exact streamKept_stopVoice _ c x ticks.toNat
  | fade v db ticks soc => exact streamKept_faderStart _ c x _ _ soc
  | fsvc v => exact streamKept_of_frame (by rw [voiceEffect, faderService_frame x])
  | rbwrite v cells => cases cells <;> exact streamKept_of_frame rfl
  | rbread v sel n => cases sel <;> exact streamKept_of_frame rfl
  | ingest v block =>
    exact ⟨rfl, fun h => absurd rfl (h v block), fun _ => rfl, Nat.le_refl _, id,
      fun h => by simp [voiceEffect, h], rfl, rfl, rfl, rfl⟩
  | fetch v n =>
    exact ⟨rfl, fun _ => rfl, fun h => absurd rfl (h v n), Nat.le_refl _, id, id, rfl, rfl, rfl, rfl⟩
  | decerr v => exact absurd rfl (hd v)
  | _ => exact streamKept_of_frame rfl

theorem le_ofNat_satadd32 (x : BitVec 32) (k : Nat) : x.toNat ≤ (BitVec.ofNat 32 (satadd32 x.toNat k)).toNat := by
  have := x.isLt
  rw [BitVec.toNat_ofNat, satadd32, Nat.mod_eq_of_lt (by omega)]
  omega

/-- A quantum that does not finalize a voice keeps its stream. -/
theorem streamKept_drained (i : Instr) (c : Config) (x : Voice) (avail lin : Nat) :
    StreamKept i x (drainedVoice c (faderService (hardMute c x)).1 avail lin) := by
  rw [serviced_frame c x]
  exact ⟨rfl, fun _ => rfl, fun _ => rfl, le_ofNat_satadd32 _ _, id, id, rfl, rfl, rfl, rfl⟩

/-! ### The lifecycle of a slot -/

/-- A slot that is `Playing` is within its lifecycle, whatever its registers hold. -/
theorem lifecycle_of_playing {x : Voice} (h : x.state = .playing) : x.Lifecycle :=
  ⟨.inr h, fun ha => absurd (h.symm.trans ha) (by decide)⟩

theorem lifecycle_invariant : VoiceInvariant (fun _ x => x.Lifecycle) where
  finalized x _ := ⟨.inl rfl, fun _ => (finalize_finalize x).symm⟩
  opened _ _ _ _ _ _ _ _ := lifecycle_of_playing rfl
  written {c x} i _ hx ha _ := by
    obtain ⟨hstate, -⟩ := hx
    by_cases hd : ∃ v, i = .decerr v
    · obtain ⟨v, rfl⟩ := hd
      exact ⟨.inl rfl, fun _ => rfl⟩
    · have hp : x.state = .playing := hstate.resolve_left ha
      exact lifecycle_of_playing
        ((streamKept_voiceEffect c i x (fun v hv => hd ⟨v, hv⟩)).state.trans hp)
  drained {c x} _ _ _ hp _ := lifecycle_of_playing ((streamKept_drained .mix c x _ _).state.trans hp)

/-- Settles O12: the lifecycle is an invariant of every slot. -/
theorem stepKeepsTheVoiceLifecycle : Obligations.StepKeepsTheVoiceLifecycle :=
  fun _ _ hs h => lifecycle_invariant.step hs h

/-! ### The short-fade fields -/

theorem faderLegal_of_faderCtl {x y : Voice} (h : y.faderCtl = x.faderCtl) (hx : x.FaderLegal) : y.FaderLegal := by
  rw [Voice.FaderLegal, h]
  exact hx

/-- An Idle fader with no short fade is legal. -/
theorem faderLegal_of_clear {x : Voice} (hm : x.faderCtl.shortFadeMode = 0)
    (hc : x.faderCtl.shortFadeCompleted = false) : x.FaderLegal :=
  ⟨by simp [hm], fun _ => hm, fun _ => hc⟩

/-- The mode of a short fade is its duration, 1 or 2 (R157). -/
theorem shortFadeMode_ofNat {dur : Nat} (h1 : 1 ≤ dur) (h3 : dur < 3) :
    BitVec.ofNat 2 dur ≠ 0 ∧ BitVec.ofNat 2 dur ≠ 3 := by
  obtain rfl | rfl : dur = 1 ∨ dur = 2 := by omega
  · decide
  · decide

theorem clampTicks_pos (ticks : Nat) : 1 ≤ clampTicks ticks := by
  unfold clampTicks
  split <;> omega

theorem faderLegal_faderStart {x : Voice} (hx : x.FaderLegal) (c : Config) (db : Int) (ticks : Nat) (soc : Bool) :
    (faderStart c x db ticks soc).FaderLegal := by
  unfold faderStart
  split
  · rename_i hlt
    obtain ⟨h0, h3⟩ := shortFadeMode_ofNat (clampTicks_pos ticks) hlt
    exact ⟨h3, fun h => (nomatch h), fun h => absurd h h0⟩
  · unfold faderStartNormal
    split
    · exact hx
    · exact faderLegal_of_clear rfl rfl

theorem faderLegal_stopVoice {x : Voice} (hx : x.FaderLegal) (c : Config) (ticks : Nat) :
    (stopVoice c ticks x).FaderLegal := by
  unfold stopVoice
  split
  · exact hx
  · exact faderLegal_faderStart hx c _ ticks true

theorem faderLegal_faderService {x : Voice} (hx : x.FaderLegal) : (faderService x).1.FaderLegal := by
  have ⟨h3, _, hc⟩ := hx
  rcases faderService_cases x with ⟨-, e⟩ | ⟨-, -, -, e⟩ | ⟨ha, hm, -, e⟩ | ⟨-, hm, -, -, e⟩ | ⟨-, -, -, -, e⟩ |
    ⟨-, hm, -, -, e⟩ | ⟨-, -, -, -, e⟩ <;> rw [e]
  · exact hx
  · exact faderLegal_of_clear rfl rfl
  · exact ⟨h3, fun h => absurd (ha.symm.trans h) (by decide), fun h => absurd h hm⟩
  · exact faderLegal_of_clear hm (hc hm)
  · exact hx
  · exact faderLegal_of_clear hm (hc hm)
  · exact hx

theorem faderLegal_hardMute {x : Voice} (hx : x.FaderLegal) (c : Config) : (hardMute c x).FaderLegal := by
  unfold hardMute
  split
  · split
    · exact faderLegal_of_clear rfl rfl
    · exact hx
  · exact hx

theorem faderLegal_voiceEffect {x : Voice} (hx : x.FaderLegal) (c : Config) (i : Instr) :
    (voiceEffect c i x).FaderLegal := by
  cases i with
  | stopv v ticks => exact faderLegal_stopVoice hx c ticks.toNat
  | fade v db ticks soc => exact faderLegal_faderStart hx c _ _ soc
  | fstop v => exact faderLegal_of_clear rfl rfl
  | fsvc v => exact faderLegal_faderService hx
  | decerr v => exact faderLegal_of_clear rfl rfl
  | rbwrite v cells => cases cells <;> exact hx
  | rbread v sel n => cases sel <;> exact hx
  | _ => exact hx

theorem faderLegal_invariant : VoiceInvariant (fun _ x => x.FaderLegal) where
  finalized _ _ := faderLegal_of_clear rfl rfl
  opened _ _ _ _ _ _ _ _ := faderLegal_of_clear rfl rfl
  written {c _} i _ hx _ _ := faderLegal_voiceEffect hx c i
  drained _ _ hx _ _ :=
    faderLegal_of_faderCtl rfl (faderLegal_faderService (faderLegal_hardMute hx _))

/-- Settles O13: the legality of the fader is an invariant of every slot. -/
theorem stepKeepsFadersLegal : Obligations.StepKeepsFadersLegal :=
  fun _ _ hs h => faderLegal_invariant.step hs h

/-! ### The ranges of a voice -/

/-- Narrowing a number to a register never makes it larger. -/
theorem toNat_ofNat_le (w k : Nat) : (BitVec.ofNat w k).toNat ≤ k := by
  rw [BitVec.toNat_ofNat]
  exact Nat.mod_le _ _

theorem toNat_ofNat_lt {w k b : Nat} (h : k < b) : (BitVec.ofNat w k).toNat < b :=
  Nat.lt_of_le_of_lt (toNat_ofNat_le w k) h

theorem inRange_setCompRing {c : Config} {x : Voice} (hx : x.InRange c) {b : RingBuffer 8} (hw : b.wr < c.cComp)
    (hr : b.rd < c.cComp) : (x.setCompRing b).InRange c := by
  have ⟨_, hrest⟩ := hx
  exact ⟨⟨toNat_ofNat_lt hw, toNat_ofNat_lt hr⟩, hrest⟩

theorem inRange_setPcmRing {c : Config} {x : Voice} (hx : x.InRange c) {b : RingBuffer 32} (hw : b.wr < c.cPcm)
    (hr : b.rd < c.cPcm) : (x.setPcmRing b).InRange c := by
  have ⟨hcomp, _, hrest⟩ := hx
  exact ⟨hcomp, ⟨toNat_ofNat_lt hw, toNat_ofNat_lt hr⟩, hrest⟩

theorem config_cap_pos {c : Config} (hc : c.wf = true) : 0 < c.cComp ∧ 0 < c.cPcm := by
  obtain ⟨-, -, -, -, -, ⟨h6, -⟩, -, ⟨h8, -⟩, -⟩ := config_wf_ranges hc
  omega

section Ranges
variable {c : Config} {x : Voice}

theorem inRange_writeComp (hc : c.wf = true) (hx : x.InRange c) (bytes : List Byte) :
    (x.setCompRing ((x.compRing c).write bytes)).InRange c := by
  have ⟨⟨_, hrd⟩, _⟩ := hx
  exact inRange_setCompRing hx (Nat.mod_lt _ (config_cap_pos hc).1) hrd

theorem inRange_readComp (hc : c.wf = true) (hx : x.InRange c) (n : Nat) :
    (x.setCompRing ((x.compRing c).afterRead n)).InRange c := by
  have ⟨⟨hwr, _⟩, _⟩ := hx
  exact inRange_setCompRing hx hwr (Nat.mod_lt _ (config_cap_pos hc).1)

theorem inRange_writePcm (hc : c.wf = true) (hx : x.InRange c) (frames : List Frame) :
    (x.setPcmRing ((x.pcmRing c).write frames)).InRange c := by
  have ⟨_, ⟨_, hrd⟩, _⟩ := hx
  exact inRange_setPcmRing hx (Nat.mod_lt _ (config_cap_pos hc).2) hrd

theorem inRange_readPcm (hc : c.wf = true) (hx : x.InRange c) (n : Nat) :
    (x.setPcmRing ((x.pcmRing c).afterRead n)).InRange c := by
  have ⟨_, ⟨hwr, _⟩, _⟩ := hx
  exact inRange_setPcmRing hx hwr (Nat.mod_lt _ (config_cap_pos hc).2)

/-- `INGEST` advances `bytesRead` by the valid bytes, without a wrap (R183). -/
theorem ingestBlock_bytesRead_toNat (hx : x.InRange c) (block : List Byte) :
    (ingestBlock c x block).bytesRead.toNat = x.bytesRead.toNat + x.validBytes c ∧
    x.bytesRead.toNat + x.validBytes c ≤ x.trackSize.toNat := by
  obtain ⟨-, -, -, ⟨hr, -⟩, -⟩ := hx
  have hts := x.trackSize.isLt
  have hle : x.validBytes c ≤ x.trackSize.toNat - x.bytesRead.toNat := Nat.min_le_right _ _
  rw [ingestBlock_bytesRead, BitVec.toNat_add, BitVec.toNat_ofNat]
  omega

/-- `FETCH` advances `bytesDeliv` by the bytes delivered, without a wrap (R186). -/
theorem fetchBytes_bytesDeliv_toNat (hx : x.InRange c) (requested : Nat) :
    (fetchBytes c x (fetchCount c x requested)).bytesDeliv.toNat =
      x.bytesDeliv.toNat + fetchCount c x requested ∧
    x.bytesDeliv.toNat + fetchCount c x requested ≤ x.trackSize.toNat := by
  obtain ⟨-, -, -, ⟨-, hd⟩, -⟩ := hx
  have hts := x.trackSize.isLt
  have hle : fetchCount c x requested ≤ x.trackSize.toNat - x.bytesDeliv.toNat :=
    Nat.le_trans (Nat.min_le_right _ _) (Nat.min_le_left _ _)
  rw [fetchBytes_bytesDeliv, BitVec.toNat_add, BitVec.toNat_ofNat]
  omega

theorem inRange_ingestBlock (hc : c.wf = true) (hx : x.InRange c) (block : List Byte) :
    (ingestBlock c x block).InRange c := by
  obtain ⟨hcomp, hpcm, hgain, ⟨-, hd⟩, hramp⟩ := inRange_writeComp hc hx block
  obtain ⟨e, hle⟩ := ingestBlock_bytesRead_toNat hx block
  exact ⟨hcomp, hpcm, hgain, ⟨e ▸ hle, hd⟩, hramp⟩

theorem inRange_fetchBytes (hc : c.wf = true) (hx : x.InRange c) (requested : Nat) :
    (fetchBytes c x (fetchCount c x requested)).InRange c := by
  obtain ⟨hcomp, hpcm, hgain, ⟨hr, -⟩, hramp⟩ := inRange_readComp hc hx (fetchCount c x requested)
  obtain ⟨e, hle⟩ := fetchBytes_bytesDeliv_toNat hx requested
  exact ⟨hcomp, hpcm, hgain, ⟨hr, e ▸ hle⟩, hramp⟩

/-- The index of a fade's target fits its register (R145). -/
theorem target_toNat_lt (hc : c.wf = true) (db : Int) : (BitVec.ofNat 16 (dbToIndex c db)).toNat < c.n :=
  toNat_ofNat_lt (dbToIndex_lt c db hc)

/-- The ramp of a normal fade starts at the gain index, inside the table (R158). -/
theorem rampStart_toNat_le (hx : x.InRange c) :
    (BitVec.ofNat 32 (x.gainIdx.toNat * 65536)).toNat ≤ (c.n - 1) * 65536 := by
  obtain ⟨-, -, ⟨hg, -, -⟩, -⟩ := hx
  exact Nat.le_trans (toNat_ofNat_le 32 _) (Nat.mul_le_mul_right _ (by omega))

theorem inRange_faderStart (hc : c.wf = true) (hx : x.InRange c) (db : Int) (ticks : Nat) (soc : Bool) :
    (faderStart c x db ticks soc).InRange c := by
  have ht := target_toNat_lt hc db
  have hacc := rampStart_toNat_le hx
  have ⟨hcomp, hpcm, ⟨hg, _, hl⟩, hbytes, _⟩ := hx
  unfold faderStart
  split
  · rename_i hlt
    have hm := (shortFadeMode_ofNat (clampTicks_pos ticks) hlt).1
    exact ⟨hcomp, hpcm, ⟨hg, ht, hl⟩, hbytes, fun _ h => absurd h hm⟩
  · unfold faderStartNormal
    split
    · exact hx
    · exact ⟨hcomp, hpcm, ⟨hg, ht, hl⟩, hbytes, fun _ _ _ => hacc⟩

theorem inRange_stopVoice (hc : c.wf = true) (hx : x.InRange c) (ticks : Nat) : (stopVoice c ticks x).InRange c := by
  unfold stopVoice
  split
  · exact hx
  · exact inRange_faderStart hc hx _ ticks true

/-- The fader service keeps the gain index between the table's ends: an up ramp is cut at the target, a down ramp
starts inside the table (R162, R166). -/
theorem inRange_faderService (hx : x.InRange c) : (faderService x).1.InRange c := by
  have ⟨hcomp, hpcm, ⟨hg, ht, hl⟩, hbytes, hramp⟩ := hx
  rcases faderService_cases x with ⟨-, e⟩ | ⟨-, -, -, e⟩ | ⟨-, hm, -, e⟩ | ⟨-, -, -, -, e⟩ | ⟨-, -, hu, -, e⟩ |
    ⟨-, -, -, -, e⟩ | ⟨ha, hm, hu, -, e⟩ <;> rw [e]
  · exact hx
  · exact ⟨hcomp, hpcm, ⟨hg, ht, hl⟩, hbytes, fun h => (nomatch h)⟩
  · exact ⟨hcomp, hpcm, ⟨ht, ht, hl⟩, hbytes, fun _ h => absurd h hm⟩
  · exact ⟨hcomp, hpcm, ⟨hg, ht, hl⟩, hbytes, fun h => (nomatch h)⟩
  · exact ⟨hcomp, hpcm, ⟨toNat_ofNat_lt (Nat.lt_of_le_of_lt (Nat.min_le_right _ _) ht), ht, hl⟩, hbytes,
      fun _ _ h => absurd (hu.symm.trans h) (by decide)⟩
  · exact ⟨hcomp, hpcm, ⟨hg, ht, hl⟩, hbytes, fun h => (nomatch h)⟩
  · have hsub : satsub0 x.rampAcc.toNat x.rampDelta.toNat ≤ (c.n - 1) * 65536 := by
      have := hramp ha hm hu
      unfold satsub0
      split <;> omega
    have hint : intpart (satsub0 x.rampAcc.toNat x.rampDelta.toNat) < c.n := by
      unfold intpart
      omega
    exact ⟨hcomp, hpcm, ⟨toNat_ofNat_lt (Nat.max_lt.2 ⟨hint, ht⟩), ht, hl⟩, hbytes,
      fun _ _ _ => Nat.le_trans (toNat_ofNat_le 32 _) hsub⟩

theorem inRange_faderStop (hx : x.InRange c) : (faderStop x).InRange c := by
  obtain ⟨hcomp, hpcm, hgain, hbytes, -⟩ := hx
  exact ⟨hcomp, hpcm, hgain, hbytes, fun h => (nomatch h)⟩

theorem inRange_silenced (hx : x.InRange c) : ({ x with gainIdx := silenceIndex } : Voice).InRange c := by
  obtain ⟨hcomp, hpcm, ⟨hg, hgain⟩, hrest⟩ := hx
  exact ⟨hcomp, hpcm, ⟨Nat.lt_of_le_of_lt (Nat.zero_le _) hg, hgain⟩, hrest⟩

theorem inRange_hardMute (hx : x.InRange c) : (hardMute c x).InRange c := by
  unfold hardMute
  split
  · split
    · exact inRange_faderStop (inRange_silenced hx)
    · exact inRange_silenced hx
  · exact hx

/-- A drained voice has the amplitude of its index, at most unity (R141, R215). -/
theorem inRange_drainedVoice (hc : c.wf = true) (hx : x.InRange c) (avail lin i : Nat)
    (hl : indexToLinear c i = some lin) :
    (drainedVoice c x avail lin).InRange c := by
  obtain ⟨hcomp, hpcm, ⟨hg, ht, -⟩, hbytes, hramp⟩ := inRange_readPcm hc hx avail
  have hlin := Nat.le_trans (toNat_ofNat_le 32 lin) (indexToLinear_le_unity hc hl)
  exact ⟨hcomp, hpcm, ⟨hg, ht, hlin⟩, hbytes, hramp⟩

end Ranges

/-- A slot with the registers of a finalized one is in range. -/
theorem inRange_finalize {c : Config} (hc : c.wf = true) (x : Voice) : x.finalize.InRange c := by
  have hn := config_n_bounds hc
  obtain ⟨h1, h2⟩ := config_cap_pos hc
  have hpos : 0 < c.n := by omega
  exact ⟨⟨h1, h1⟩, ⟨h2, h2⟩, ⟨hpos, hpos, Nat.zero_le _⟩, ⟨Nat.zero_le _, Nat.zero_le _⟩, fun h => (nomatch h)⟩

theorem inRange_openedVoice {c : Config} (hc : c.wf = true) (db : Int) (lin : Nat) (size : BitVec 32)
    (loop lock : Bool) (ts : BitVec 32) (hl : indexToLinear c (dbToIndex c db) = some lin) :
    (openedVoice (dbToIndex c db) lin size loop lock ts).InRange c := by
  have ⟨hcomp, hpcm, ⟨_, ht, _⟩, _, hramp⟩ := inRange_finalize hc Voice.zero
  have hlin := Nat.le_trans (toNat_ofNat_le 32 lin) (indexToLinear_le_unity hc hl)
  exact ⟨hcomp, hpcm, ⟨target_toNat_lt hc db, ht, hlin⟩, ⟨Nat.zero_le _, Nat.zero_le _⟩, hramp⟩

theorem inRange_voiceEffect {c : Config} {x : Voice} (hc : c.wf = true) (hx : x.InRange c) (i : Instr) :
    (voiceEffect c i x).InRange c := by
  cases i with
  | stopv v ticks => exact inRange_stopVoice hc hx ticks.toNat
  | rbwrite v cells =>
    cases cells with
    | comp bytes => exact inRange_writeComp hc hx bytes
    | pcm frames => exact inRange_writePcm hc hx frames
  | rbread v sel n =>
    cases sel with
    | comp => exact inRange_readComp hc hx n.toNat
    | pcm => exact inRange_readPcm hc hx n.toNat
  | fade v db ticks soc => exact inRange_faderStart hc hx _ _ soc
  | fstop v => exact inRange_faderStop hx
  | fsvc v => exact inRange_faderService hx
  | ingest v block => exact inRange_ingestBlock hc hx block
  | fetch v n => exact inRange_fetchBytes hc hx n.toNat
  | push v frames => exact inRange_writePcm hc hx frames
  | decerr v => exact inRange_finalize hc x
  | _ => exact hx

theorem inRange_invariant : VoiceInvariant (fun c x => x.InRange c) where
  finalized x hc := inRange_finalize hc x
  opened db lin size loop lock ts hc hl := inRange_openedVoice hc db lin size loop lock ts hl
  written i hc hx _ _ := inRange_voiceEffect hc hx i
  drained lin hc hx _ hl :=
    inRange_drainedVoice hc (inRange_faderService (inRange_hardMute hx)) _ lin _ hl

/-- `RESET` makes one slot per voice index, every other operation keeps their number (R240, R241). -/
theorem exec_voices_length {i : Instr} {s t : State} (hs : s.voices.length = s.cfg.maxVoices)
    (h : exec i s = .next t) : t.voices.length = t.cfg.maxVoices := by
  rw [exec_cfg h]
  by_cases hi : i = .reset
  · subst hi
    obtain rfl := exec_reset_next h
    exact List.length_replicate
  · exact (exec_slot h hi).1.trans hs

theorem exec_legal {i : Instr} {s t : State} (hs : s.Legal) (h : exec i s = .next t) : t.Legal := by
  obtain ⟨hc, hlen, hx⟩ := hs
  exact ⟨by rw [exec_cfg h]; exact hc, exec_voices_length hlen h, inRange_invariant.exec hc hx h⟩

/-- Settles O10: every operation keeps a state legal, and the port has no part in it. -/
theorem stepKeepsEveryRegisterInRange : Obligations.StepKeepsEveryRegisterInRange :=
  fun _ _ hs h =>
    step_keeps (I := State.Legal) (fun _ _ hs => hs) (fun _ _ hs => hs) (fun _ _ _ _ hs h => exec_legal hs h) hs h

/-! ### The quantum counter and the accumulator -/

/-- Settles O22, by the kinds of next state of `exec_next`. -/
theorem quantumCounterCountsMixes : Obligations.QuantumCounterCountsMixes := by
  intro i s t h
  rcases exec_next h with h | h | h | h | h | h
  · obtain ⟨st, w, p, rfl⟩ := answerOnly_respond h
    refine ⟨?_, fun hi => absurd hi (answerOnly_ne_reset h), fun _ _ => ⟨rfl, rfl, rfl⟩⟩
    rintro rfl hr
    exact absurd (hr.symm.trans (answerOnly_mix_halted h)) (by decide)
  · obtain ⟨v, x, st, w, p, hv, -, -, rfl, -⟩ := h
    refine ⟨?_, ?_, fun _ _ => ⟨rfl, rfl, rfl⟩⟩
    · rintro rfl
      exact nomatch hv
    · rintro rfl
      exact nomatch hv
  · obtain ⟨db, size, loop, lock, v, lin, rfl, -, -, -, rfl⟩ := h
    exact ⟨fun hi => (nomatch hi), fun hi => (nomatch hi), fun _ _ => ⟨rfl, rfl, rfl⟩⟩
  · obtain ⟨rfl, -, vs, r, -, rfl⟩ := h
    exact ⟨fun _ _ => rfl, fun hi => (nomatch hi), fun hi => absurd rfl hi⟩
  · obtain ⟨rfl, rfl⟩ := h
    exact ⟨fun hi => (nomatch hi), fun _ => rfl, fun _ hi => absurd rfl hi⟩
  · obtain ⟨rfl, -, rfl⟩ := h
    exact ⟨fun hi => (nomatch hi), fun hi => (nomatch hi), fun _ _ => ⟨rfl, rfl, rfl⟩⟩

/-! ### The counters of an allocated slot -/

/-- A slot that is allocated before and after an operation keeps its stream. -/
theorem streamKept_of_slotStep {c : Config} {i : Instr} {x y : Voice} (h : SlotStep c i x y)
    (hx : x.state ≠ .available) (hy : y.state ≠ .available) : StreamKept i x y := by
  cases h with
  | kept => exact streamKept_of_frame rfl
  | written _ _ _ _ =>
    refine streamKept_voiceEffect c i x ?_
    rintro v rfl
    exact hy rfl
  | opened _ _ _ _ _ _ _ ha _ => exact absurd ha hx
  | finalized _ _ => exact absurd rfl hy
  | drained lin _ _ _ => exact streamKept_drained i c x _ lin

/-- A write to a voice never takes its byte counters back (R25). -/
theorem byteCounters_le_voiceEffect {c : Config} {x : Voice} (hx : x.InRange c) (i : Instr)
    (hd : ∀ v, i ≠ .decerr v) :
    x.bytesRead.toNat ≤ (voiceEffect c i x).bytesRead.toNat ∧
    x.bytesDeliv.toNat ≤ (voiceEffect c i x).bytesDeliv.toNat := by
  have hk := streamKept_voiceEffect c i x hd
  cases i with
  | ingest v block =>
    rw [hk.bytesDeliv (by simp), voiceEffect, (ingestBlock_bytesRead_toNat hx block).1]
    exact ⟨Nat.le_add_right _ _, Nat.le_refl _⟩
  | fetch v n =>
    rw [hk.bytesRead (by simp), voiceEffect, (fetchBytes_bytesDeliv_toNat hx n.toNat).1]
    exact ⟨Nat.le_refl _, Nat.le_add_right _ _⟩
  | _ =>
    rw [hk.bytesRead (by simp), hk.bytesDeliv (by simp)]
    exact ⟨Nat.le_refl _, Nat.le_refl _⟩

theorem byteCounters_le_of_slotStep {c : Config} {i : Instr} {x y : Voice} (hr : x.InRange c)
    (h : SlotStep c i x y) (hx : x.state ≠ .available) (hy : y.state ≠ .available) :
    x.bytesRead.toNat ≤ y.bytesRead.toNat ∧ x.bytesDeliv.toNat ≤ y.bytesDeliv.toNat := by
  cases h with
  | kept => exact ⟨Nat.le_refl _, Nat.le_refl _⟩
  | written _ _ _ _ =>
    refine byteCounters_le_voiceEffect hr i ?_
    rintro v rfl
    exact hy rfl
  | opened _ _ _ _ _ _ _ ha _ => exact absurd ha hx
  | finalized _ _ => exact absurd rfl hy
  | drained lin hi _ _ =>
    subst hi
    have hk := streamKept_drained .mix c x (mixAvail c x) lin
    rw [hk.bytesRead (by simp), hk.bytesDeliv (by simp)]
    exact ⟨Nat.le_refl _, Nat.le_refl _⟩

/-- Settles O23: the bounds are those of the legal state after, the rest is what a `SlotStep` keeps. -/
theorem voiceCountersOnlyIncrease : Obligations.VoiceCountersOnlyIncrease := by
  intro i s t v x y hs h hi hxv hyv hx hy
  obtain ⟨x', hxv', hstep⟩ := (exec_slot h hi).2 v y hyv
  obtain rfl : x = x' := Option.some.inj (hxv.symm.trans hxv')
  obtain ⟨-, -, hrangeAfter⟩ := exec_legal hs h
  obtain ⟨-, -, hrange⟩ := hs
  obtain ⟨hread, hdeliv⟩ := byteCounters_le_of_slotStep (hrange x (List.mem_of_getElem? hxv)) hstep hx hy
  obtain ⟨-, -, -, ⟨hreadMax, hdelivMax⟩, -⟩ := hrangeAfter y (List.mem_of_getElem? hyv)
  have hk := streamKept_of_slotStep hstep hx hy
  exact ⟨⟨hread, hreadMax⟩, ⟨hdeliv, hdelivMax⟩, hk.bytesRead, hk.bytesDeliv, hk.framesPlayed,
    hk.stopRequested, hk.endOfFile, hk.loop, hk.lock, hk.trackSize, hk.triggerTs⟩

/-! ### The reset state -/

theorem resetOf_legal {c : Config} (hc : c.wf = true) : (State.resetOf c).Legal :=
  ⟨hc, List.length_replicate, inRange_invariant.resetOf hc⟩

/-- Every memory of the reset state is empty (R42). -/
theorem resetOf_memoryOk (c : Config) : (State.resetOf c).MemoryOk := by
  refine ⟨fun x hx => ?_, ⟨rfl, rfl⟩, rfl, rfl⟩
  obtain ⟨-, rfl⟩ := List.mem_replicate.1 hx
  exact ⟨⟨rfl, rfl⟩, rfl, rfl⟩

/-- The DEFAULT configuration is well formed (R10, R11, R141). -/
theorem default_wf : Config.default.wf = true := by decide +kernel

/-- Settles O9: the reset slots have every voice invariant, and the memories are empty. -/
theorem resetMeetsTheInvariants : Obligations.ResetMeetsTheInvariants :=
  ⟨fun c hc => ⟨resetOf_legal hc, resetOf_memoryOk c, fun x hx =>
    ⟨lifecycle_invariant.resetOf hc x hx, faderLegal_invariant.resetOf hc x hx⟩⟩, default_wf⟩

end Sys2Proof.Machine
end

section
/-! PROOFS (20_memory.md). The memories stay canonical and inside their capacities (R60, R64), the configuration
and with it `ROM` is never written (R74), an operation on a voice stays inside its slot (R75), and a step is `exec`
of the decoded instruction (R70). -/
namespace Sys2Proof.Machine

/-! ### The two memories of a voice -/

/-- The write procedure keeps a memory canonical and inside its capacity (R124). -/
theorem writeCells_ok {w cap : Nat} {m : Memory w} (hcap : 0 < cap)
    (hm : Memory.wf m = true ∧ Memory.within cap m = true) (at_ : Nat) (src : List (BitVec w)) :
    Memory.wf (writeCells cap m at_ src) = true ∧ Memory.within cap (writeCells cap m at_ src) = true := by
  obtain ⟨hwf, hwithin⟩ := hm
  exact ⟨writeCells_wf cap m at_ src hwf, writeCells_within cap m at_ src hcap hwithin⟩

/-- A slot with both memories empty. -/
theorem memoryOk_of_empty {c : Config} {x : Voice} (hcomp : x.comp = []) (hpcm : x.pcm = []) : x.MemoryOk c := by
  rw [Voice.MemoryOk, hcomp, hpcm]
  exact ⟨⟨rfl, rfl⟩, rfl, rfl⟩

section VoiceMemories
variable {c : Config} {x : Voice}

theorem memoryOk_writeComp (hc : c.wf = true) (hx : x.MemoryOk c) (bytes : List Byte) :
    (x.setCompRing ((x.compRing c).write bytes)).MemoryOk c := by
  obtain ⟨hcomp, hpcm⟩ := hx
  exact ⟨writeCells_ok (config_cap_pos hc).1 hcomp _ bytes, hpcm⟩

theorem memoryOk_writePcm (hc : c.wf = true) (hx : x.MemoryOk c) (frames : List Frame) :
    (x.setPcmRing ((x.pcmRing c).write frames)).MemoryOk c := by
  obtain ⟨hcomp, hpcm⟩ := hx
  exact ⟨hcomp, writeCells_ok (config_cap_pos hc).2 hpcm _ frames⟩

theorem memoryOk_faderStart (hx : x.MemoryOk c) (db : Int) (ticks : Nat) (soc : Bool) :
    (faderStart c x db ticks soc).MemoryOk c := by
  rw [faderStart_frame c x db ticks soc]
  exact hx

theorem memoryOk_stopVoice (hx : x.MemoryOk c) (ticks : Nat) : (stopVoice c ticks x).MemoryOk c := by
  unfold stopVoice
  split
  · exact hx
  · exact memoryOk_faderStart hx _ ticks true

/-- An operation's write to its voice stores through the write procedure, leaves both memories alone, or
finalizes. -/
theorem memoryOk_voiceEffect (hc : c.wf = true) (hx : x.MemoryOk c) (i : Instr) : (voiceEffect c i x).MemoryOk c := by
  cases i with
  | stopv v ticks => exact memoryOk_stopVoice hx ticks.toNat
  | rbwrite v cells =>
    cases cells with
    | comp bytes => exact memoryOk_writeComp hc hx bytes
    | pcm frames => exact memoryOk_writePcm hc hx frames
  | rbread v sel n => cases sel <;> exact hx
  | fade v db ticks soc => exact memoryOk_faderStart hx _ _ soc
  | fsvc v =>
    rw [voiceEffect, faderService_frame x]
    exact hx
  | ingest v block => exact memoryOk_writeComp hc hx block
  | push v frames => exact memoryOk_writePcm hc hx frames
  | decerr v => exact memoryOk_of_empty rfl rfl
  | _ => exact hx

end VoiceMemories

theorem memoryOk_invariant : VoiceInvariant (fun c x => x.MemoryOk c) where
  finalized _ _ := memoryOk_of_empty rfl rfl
  opened _ _ _ _ _ _ _ _ := memoryOk_of_empty rfl rfl
  written i hc hx _ _ := memoryOk_voiceEffect hc hx i
  drained {c x} _ _ hx _ _ := by
    rw [serviced_frame c x]
    exact hx

/-! ### The accumulator and the scratch buffer -/

/-- What `MIX` carries from voice to voice fits its memories: Q accumulator frames, and a canonical scratch buffer
of at most Q cells (R36, R37). -/
structure MixRun.Fits (c : Config) (r : MixRun) : Prop where
  acc : r.acc.length = c.q
  scr : Memory.wf r.scr = true ∧ Memory.within c.q r.scr = true

/-- Steps 2 and 3 of `MIX` leave the decoded ring alone (R208, R209). -/
theorem serviced_pcmRing (c : Config) (x : Voice) :
    (faderService (hardMute c x)).1.pcmRing c = x.pcmRing c := by
  rw [serviced_frame c x]
  rfl

/-- The scratch buffer of a mixed voice holds exactly Q frames (R210). -/
theorem serviced_scratchFrames_length (c : Config) (x : Voice) :
    (scratchFrames c (faderService (hardMute c x)).1 (mixAvail c x)).length = c.q := by
  obtain ⟨hused, hq⟩ := mixAvail_le c x
  exact scratchFrames_length c _ _ (by rw [serviced_pcmRing]; exact hused) hq

/-- A voice leaves the scratch buffer as it was, or holding the Q frames of its own quantum. -/
theorem mixVoice_scr {c : Config} {x y : Voice} {r r' : MixRun} (h : mixVoice c x r = some (y, r')) :
    r'.scr = r.scr ∨ ∃ frames : List Frame, frames.length = c.q ∧ r'.scr = Memory.ofCells 0 frames := by
  rcases mixVoice_cases c x r with ⟨-, e⟩ | ⟨-, -, e⟩ | ⟨-, -, -, e⟩ | ⟨-, -, -, -, e⟩ | ⟨-, -, -, lin, -, e⟩
  · obtain ⟨-, rfl⟩ : x = y ∧ r = r' := by simpa [e] using h
    exact .inl rfl
  · obtain ⟨-, rfl⟩ : x.finalize = y ∧ _ = r' := by simpa [e] using h
    exact .inl (by simp)
  · obtain ⟨-, rfl⟩ : x.finalize = y ∧ _ = r' := by simpa [e] using h
    exact .inl (by simp)
  · simp [e] at h
  · rw [e] at h
    refine .inr ⟨_, serviced_scratchFrames_length c x, ?_⟩
    split at h
    · obtain ⟨-, rfl⟩ : x.finalize = y ∧ _ = r' := by simpa using h
      rfl
    · obtain ⟨-, rfl⟩ : drainedVoice c _ _ lin = y ∧ _ = r' := by simpa using h
      rfl

theorem mixVoice_fits {c : Config} {x y : Voice} {r r' : MixRun} (hr : r.Fits c)
    (h : mixVoice c x r = some (y, r')) : r'.Fits c := by
  refine ⟨mixVoice_acc_length h hr.acc, ?_⟩
  rcases mixVoice_scr h with e | ⟨frames, hlen, e⟩
  · rw [e]
    exact hr.scr
  · rw [e]
    exact ⟨memory_wf_ofCells 0 frames, memory_within_ofCells c.q frames (Nat.le_of_eq hlen)⟩

/-- The two memories outside the slots, `ACC` and `SCR`, are canonical and lie inside their Q cells. -/
abbrev State.BuffersOk (s : State) : Prop :=
  (Memory.wf s.acc = true ∧ Memory.within s.cfg.q s.acc = true) ∧
  (Memory.wf s.scr = true ∧ Memory.within s.cfg.q s.scr = true)

/-- A quantum leaves `ACC` and `SCR` as its run, which fits, has them. -/
theorem buffersOk_mixFinish {s : State} {vs : List Voice} {r : MixRun} (hs : s.BuffersOk)
    (hm : mixVoices s.cfg s.voices (mixStart s) = some (vs, r)) : (mixFinish s vs r).BuffersOk := by
  obtain ⟨-, hscr⟩ := hs
  have hstart : (mixStart s).Fits s.cfg := ⟨List.length_replicate, hscr⟩
  have hr : r.Fits s.cfg := mixVoices_run (MixRun.Fits s.cfg) (fun _ _ _ _ hr h => mixVoice_fits hr h) hstart hm
  exact ⟨⟨memory_wf_ofCells 0 r.acc, memory_within_ofCells s.cfg.q r.acc (Nat.le_of_eq hr.acc)⟩, hr.scr⟩

/-- `MIX` alone stores into `ACC` and `SCR`, and `RESET` empties them. -/
theorem exec_buffersOk {i : Instr} {s t : State} (hs : s.BuffersOk) (h : exec i s = .next t) : t.BuffersOk := by
  rcases exec_next h with h | h | h | h | h | h
  · obtain ⟨st, w, p, rfl⟩ := answerOnly_respond h
    exact hs
  · obtain ⟨v, x, st, w, p, -, -, -, rfl, -⟩ := h
    exact hs
  · obtain ⟨db, size, loop, lock, v, lin, -, -, -, -, rfl⟩ := h
    exact hs
  · obtain ⟨-, -, vs, r, hm, rfl⟩ := h
    exact buffersOk_mixFinish hs hm
  · obtain ⟨-, rfl⟩ := h
    exact ⟨⟨rfl, rfl⟩, rfl, rfl⟩
  · obtain ⟨-, -, rfl⟩ := h
    exact hs

/-! ### Every memory of the machine -/

theorem exec_memoryOk {i : Instr} {s t : State} (hc : s.cfg.wf = true) (hs : s.MemoryOk) (h : exec i s = .next t) :
    t.MemoryOk := by
  obtain ⟨hvoices, hbuffers⟩ := hs
  exact ⟨memoryOk_invariant.exec hc hvoices h, exec_buffersOk hbuffers h⟩

/-- Settles O11: the memories of the slots by their voice invariant, `ACC` and `SCR` by what a quantum leaves. -/
theorem stepKeepsMemoriesCanonical : Obligations.StepKeepsMemoriesCanonical :=
  fun _ _ hs h =>
    step_keeps (I := State.MemoryOk) (fun _ _ hs => hs) (fun _ _ hs => hs)
      (fun _ _ _ hc hs h => exec_memoryOk hc hs h) hs h

/-! ### The configuration -/

/-- Settles O14: no operation writes the configuration, and the port has no part in it. -/
theorem noStepChangesTheGainTable : Obligations.NoStepChangesTheGainTable :=
  fun s _ h =>
    step_keeps (I := fun u => u.cfg = s.cfg) (fun _ _ hu => hu) (fun _ _ hu => hu)
      (fun _ _ _ _ hu h => (exec_cfg h).trans hu) rfl h

/-! ### The frame of an operation on a voice -/

/-- An operation that names a voice answers only, or writes the slot of that voice and answers. -/
theorem exec_handleField_next {i : Instr} {v : BitVec 8} {s t : State} (hi : handleField i = some v)
    (h : exec i s = .next t) :
    (∃ st w p, t = s.respond st w p) ∨ ∃ y st w p, t = (s.setVoice v.toNat y).respond st w p := by
  rcases exec_next h with h | h | h | h | h | h
  · exact .inl (answerOnly_respond h)
  · obtain ⟨u, x, st, w, p, hu, -, -, rfl, -⟩ := h
    obtain rfl : v = u := Option.some.inj (hi.symm.trans hu)
    exact .inr ⟨_, st, w, p, rfl⟩
  · obtain ⟨db, size, loop, lock, u, lin, rfl, -⟩ := h
    exact nomatch hi
  · obtain ⟨rfl, -⟩ := h
    exact nomatch hi
  · obtain ⟨rfl, -⟩ := h
    exact nomatch hi
  · obtain ⟨rfl, -⟩ := h
    exact nomatch hi

/-- Settles O21: writing one slot and the response touches nothing else. -/
theorem voiceOperationsTouchOneVoice : Obligations.VoiceOperationsTouchOneVoice := by
  intro i v s t hi h
  rcases exec_handleField_next hi h with ⟨st, w, p, rfl⟩ | ⟨y, st, w, p, rfl⟩
  · exact ⟨fun _ _ => rfl, rfl, rfl, rfl, rfl, rfl, rfl, rfl⟩
  · exact ⟨fun _ hw => List.getElem?_set_ne hw.symm, List.length_set, rfl, rfl, rfl, rfl, rfl, rfl⟩

/-! ### A step and the instruction it runs -/

theorem runCommand_decoded {s : State} {cmd : Command} {i : Instr} (h : decode s.cfg cmd = .ok i) :
    runCommand cmd s = exec i s := by
  rw [runCommand, h]

/-- Settles O6: with a command waiting, a step is `runCommand` on the state without it. -/
theorem stepRunsTheDecodedInstruction : Obligations.StepRunsTheDecodedInstruction := by
  intro s cmd rest i hc hp hd
  calc step s = runCommand cmd { s with pending := rest } := step_pending s cmd rest hc hp
    _ = exec i { s with pending := rest } := runCommand_decoded hd

end Sys2Proof.Machine
end

section
/-! PROOFS (30_encoding.md). Decoder and encoder agree in both directions, no word has two rows, what the illegal
commands of R98 answer, the examples of R105 and the fields of the response word. -/
namespace Sys2Proof

/-! ### The row of an operation -/

/-- The row of an operation, looked up in the table. -/
def Op.row (op : Op) : Row := (opcodeTable.find? (fun r => r.op == op)).getD ⟨op, 0, 0⟩

theorem row_eq_opRow : ∀ r ∈ opcodeTable, r = r.op.row := by decide

/-- A word that selects an operation has the fields its row asks for (R95). -/
theorem selectOp_fields {cw : CmdWord} {op : Op} (h : selectOp cw = some op) :
    opField cw = opField op.row.pattern ∧
    vField cw &&& vField op.row.mask = vField op.row.pattern ∧
    aField cw &&& aField op.row.mask = aField op.row.pattern ∧
    bField cw &&& bField op.row.mask = bField op.row.pattern := by
  obtain ⟨r, hr, rfl, hm⟩ := selectOp_some h
  rw [← row_eq_opRow r hr]
  exact ⟨row_opField hr hm, ((row_fields r cw).1 hm).2⟩

/-- Settles O3: every row fixes the whole `op` field, and no two rows fix it to the same value. -/
theorem noTwoRowsMatchTheSameWord : Obligations.NoTwoRowsMatchTheSameWord :=
  fun _ r r' hr hr' h h' => opcodeTable_opValue r hr r' hr' ((row_opField hr h).symm.trans (row_opField hr' h'))

/-! ### Operand fields back from the word -/

@[simp] theorem selField_cmdWord (op v : BitVec 8) (sel : BufSel) (b : BitVec 32) :
    selField (cmdWord op v (selWord sel) b) = sel := by
  rw [selField, aField_cmdWord, selWord_bit0]
  cases sel <;> rfl

@[simp] theorem ticksField_cmdWord (op v : BitVec 8) (a : BitVec 16) (b : BitVec 32) :
    ticksField (cmdWord op v a b) = b.extractLsb' 0 16 := by
  rw [ticksField, bField_cmdWord]

theorem openFlags_loop (loop lock : Bool) : (openFlags loop lock).getLsbD 0 = loop := by
  cases loop <;> cases lock <;> rfl

theorem openFlags_lock (loop lock : Bool) : (openFlags loop lock).getLsbD 1 = lock := by
  cases loop <;> cases lock <;> rfl

/-! ### The field from its operands, where the must-be-zero bits are zero -/

theorem zero_of_and_allOnes {w : Nat} {x : BitVec w} (h : x &&& BitVec.allOnes w = 0#w) : 0#w = x := by
  rw [← h, BitVec.and_allOnes]

/-- A mask over the high part alone constrains the high part. -/
theorem high_and_eq_zero {m n : Nat} {x : BitVec (m + n)} {mask : BitVec m}
    (h : x &&& (mask ++ 0#n) = 0#m ++ 0#n) : x.extractLsb' n m &&& mask = 0#m := by
  rw [← append_halves x, append_and, append_inj_iff] at h
  exact h.1

/-- A bit string whose high part is zero is its low part under zeros. -/
theorem zero_append_of_and {m n : Nat} {x : BitVec (m + n)} (h : x &&& (BitVec.allOnes m ++ 0#n) = 0#m ++ 0#n) :
    0#m ++ x.extractLsb' 0 n = x := by
  rw [zero_of_and_allOnes (high_and_eq_zero h), append_halves]

/-- A 16-bit field that is free in bit 0 alone is the word of that bit. -/
theorem bit0_of_and {x : BitVec 16} (h : x &&& 0xFFFE#16 = 0#16) : (if x.getLsbD 0 then 1#16 else 0#16) = x := by
  have hx : 0#15 ++ x.extractLsb' 0 1 = x := zero_append_of_and h
  rw [← hx]
  generalize x.extractLsb' 0 1 = bit
  revert bit
  decide

theorem selWord_of_and {cw : CmdWord} (h : aField cw &&& 0xFFFE#16 = 0#16) : selWord (selField cw) = aField cw := by
  calc selWord (selField cw) = if (aField cw).getLsbD 0 then 1#16 else 0#16 := by
        rw [selField]
        split <;> rfl
    _ = aField cw := bit0_of_and h

theorem openFlags_of_and {f : BitVec 8} (h : f &&& 0xFC#8 = 0#8) : openFlags (f.getLsbD 0) (f.getLsbD 1) = f := by
  revert f
  decide

theorem ticksWord_of_and {b : BitVec 32} (h : b &&& 0xFFFF0000#32 = 0#32) : ticksWord (b.extractLsb' 0 16) = b :=
  zero_append_of_and (m := 16) h

theorem fadeWord_of_and {b : BitVec 32} (h : b &&& 0xFFFE0000#32 = 0#32) :
    fadeWord (b.extractLsb' 0 16) (b.getLsbD 16) = b := by
  have hsoc : b.getLsbD 16 = (b.extractLsb' 16 16).getLsbD 0 := by simp
  calc fadeWord (b.extractLsb' 0 16) (b.getLsbD 16) = b.extractLsb' 16 16 ++ b.extractLsb' 0 16 := by
        rw [hsoc, fadeWord, bit0_of_and (high_and_eq_zero (m := 16) (n := 16) h)]
    _ = b := append_halves (m := 16) (n := 16) b

/-! ### Payloads -/

@[simp] theorem length_beats (cells : Cells) : cells.beats.length = cells.count := by
  cases cells with
  | comp bytes => exact List.length_map _
  | pcm frames => rfl

theorem assembleRbwrite_ok_iff {v : BitVec 8} {sel : BufSel} {payload : List Beat} {i : Instr} :
    assembleRbwrite v sel payload = .ok i ↔
      ∃ cells : Cells, i = .rbwrite v cells ∧ cells.sel = sel ∧ cells.beats = payload := by
  constructor
  · intro h
    cases sel with
    | pcm => exact ⟨.pcm payload, (Except.ok.inj h).symm, rfl, rfl⟩
    | comp =>
      cases hb : beatBytes payload with
      | some bytes =>
        simp only [assembleRbwrite, hb] at h
        exact ⟨.comp bytes, (Except.ok.inj h).symm, rfl, map_beatBytes hb⟩
      | none =>
        simp only [assembleRbwrite, hb] at h
        exact nomatch h
  · rintro ⟨cells, rfl, rfl, rfl⟩
    cases cells with
    | comp bytes => simp [assembleRbwrite, Cells.sel, Cells.beats]
    | pcm frames => rfl

theorem assembleIngest_ok_iff {v : BitVec 8} {payload : List Beat} {i : Instr} :
    assembleIngest v payload = .ok i ↔ ∃ block : List Byte, i = .ingest v block ∧ block.map byteBeat = payload := by
  constructor
  · intro h
    cases hb : beatBytes payload with
    | some block =>
      simp only [assembleIngest, hb] at h
      exact ⟨block, (Except.ok.inj h).symm, map_beatBytes hb⟩
    | none =>
      simp only [assembleIngest, hb] at h
      exact nomatch h
  · rintro ⟨block, rfl, rfl⟩
    simp [assembleIngest]

/-- A cell count stands in the 32-bit operand `b` when it is below 2^32. -/
theorem lt_iff_eq_toNat_ofNat (n : Nat) : n < 2 ^ 32 ↔ n = (BitVec.ofNat 32 n).toNat := by
  rw [BitVec.toNat_ofNat]
  omega

/-- The terms a command stands for are those whose payload has the length their word gives (R94). -/
theorem wf_iff_length_beats (c : Config) (i : Instr) :
    i.wf c = true ↔ i.beats.length = payloadLength c i.op i.word := by
  cases i with
  | rbwrite v cells =>
    simp only [Instr.wf, Instr.beats, Instr.op, Instr.word, payloadLength, decide_eq_true_eq, length_beats,
      bField_cmdWord]
    exact lt_iff_eq_toNat_ofNat _
  | ingest v block => simp [Instr.wf, Instr.beats, Instr.op, payloadLength]
  | push v frames =>
    simp only [Instr.wf, Instr.beats, Instr.op, Instr.word, payloadLength, decide_eq_true_eq, bField_cmdWord]
    exact lt_iff_eq_toNat_ofNat _
  | _ => exact iff_of_true rfl rfl

/-! ### Decode of encode -/

theorem encodesOwnRow : ∀ i : Instr, Laws.EncodesOwnRow.Statement i
  | .reset => Laws.EncodesOwnRow.reset
  | .openVoice .. => Laws.EncodesOwnRow.openVoice ..
  | .stopv .. => Laws.EncodesOwnRow.stopv ..
  | .query => Laws.EncodesOwnRow.query
  | .storerr => Laws.EncodesOwnRow.storerr
  | .rdreg .. => Laws.EncodesOwnRow.rdreg ..
  | .rbspace .. => Laws.EncodesOwnRow.rbspace ..
  | .rbwrite .. => Laws.EncodesOwnRow.rbwrite ..
  | .rbread .. => Laws.EncodesOwnRow.rbread ..
  | .rbused .. => Laws.EncodesOwnRow.rbused ..
  | .rbfree .. => Laws.EncodesOwnRow.rbfree ..
  | .db2idx .. => Laws.EncodesOwnRow.db2idx ..
  | .idx2lin .. => Laws.EncodesOwnRow.idx2lin ..
  | .fade .. => Laws.EncodesOwnRow.fade ..
  | .fstop .. => Laws.EncodesOwnRow.fstop ..
  | .fsvc .. => Laws.EncodesOwnRow.fsvc ..
  | .hasstor .. => Laws.EncodesOwnRow.hasstor ..
  | .ingest .. => Laws.EncodesOwnRow.ingest ..
  | .fetch .. => Laws.EncodesOwnRow.fetch ..
  | .hasdec .. => Laws.EncodesOwnRow.hasdec ..
  | .push .. => Laws.EncodesOwnRow.push ..
  | .decerr .. => Laws.EncodesOwnRow.decerr ..
  | .mix => Laws.EncodesOwnRow.mix

/-- The word the encoder writes selects the instruction's operation. -/
theorem selectOp_word (i : Instr) : selectOp i.word = some i.op := by
  obtain ⟨r, hr, hop, hm⟩ := encodesOwnRow i
  rw [selectOp_of_row hr hm, hop]

/-- Operand assembly reads back every operand and cell the encoder wrote (R96). -/
theorem assemble_encode (i : Instr) : assemble i.op i.word i.beats = .ok i := by
  cases i with
  | rbwrite v cells =>
    simp only [Instr.op, Instr.word, assemble, vField_cmdWord, selField_cmdWord]
    exact assembleRbwrite_ok_iff.2 ⟨cells, rfl, rfl, rfl⟩
  | ingest v block =>
    simp only [Instr.op, Instr.word, assemble, vField_cmdWord]
    exact assembleIngest_ok_iff.2 ⟨block, rfl, rfl⟩
  | _ =>
    simp only [Instr.op, Instr.word, Instr.beats, assemble, vField_cmdWord, aField_cmdWord, bField_cmdWord,
      selField_cmdWord, ticksField_cmdWord, ticksWord_low, fadeWord_low, fadeWord_soc, openFlags_loop, openFlags_lock]

/-- A command decodes when its word selects an operation, its payload has the length the word gives, and the
operands assemble (R97 step 1). -/
theorem decode_ok_iff {c : Config} {cmd : Command} {i : Instr} :
    decode c cmd = .ok i ↔ ∃ op, selectOp cmd.cw = some op ∧
      cmd.payload.length = payloadLength c op cmd.cw ∧ assemble op cmd.cw cmd.payload = .ok i := by
  unfold decode
  cases selectOp cmd.cw with
  | none =>
    simp only [reduceCtorEq, false_and, exists_false, iff_false]
    split <;> exact nofun
  | some op =>
    by_cases hl : cmd.payload.length = payloadLength c op cmd.cw <;> simp [hl]

/-- Settles O1: the word selects the instruction's own row, the payload has the length the word gives, and the operands
assemble to the instruction. -/
theorem decodeOfEncodeIsTheInstruction : Obligations.DecodeOfEncodeIsTheInstruction :=
  fun c i hi => decode_ok_iff.2 ⟨i.op, selectOp_word i, (wf_iff_length_beats c i).1 hi, assemble_encode i⟩

/-- A command written out in bits decodes to the instruction it is the encoding of. -/
theorem decode_of_encode_eq {c : Config} {cmd : Command} {i : Instr} (hi : i.wf c = true) (h : encode i = cmd) :
    decode c cmd = .ok i :=
  h ▸ decodeOfEncodeIsTheInstruction c i hi

/-! ### Encode of decode -/

/-- A word that selects an operation is written out from its `op` value and three fields, each of which has only to
be the word's own where the row's must-be-zero bits are zero. -/
theorem cmdWord_of_selectOp {cw : CmdWord} {op : Op} (hs : selectOp cw = some op)
    {v : BitVec 8} {a : BitVec 16} {b : BitVec 32}
    (hv : vField cw &&& vField op.row.mask = vField op.row.pattern → v = vField cw)
    (ha : aField cw &&& aField op.row.mask = aField op.row.pattern → a = aField cw)
    (hb : bField cw &&& bField op.row.mask = bField op.row.pattern → b = bField cw) :
    cmdWord (opField op.row.pattern) v a b = cw := by
  obtain ⟨hop, hv', ha', hb'⟩ := selectOp_fields hs
  rw [← hop, hv hv', ha ha', hb hb', cmdWord_fields]

theorem ofNat_eq_of_eq_toNat {n : Nat} {x : BitVec 32} (h : n = x.toNat) : BitVec.ofNat 32 n = x := by
  rw [h, BitVec.ofNat_toNat, BitVec.setWidth_eq]

/-- An operation without payload cells encodes to its word alone. -/
theorem encode_eq_of_beats_nil {i : Instr} {cw : CmdWord} {payload : List Beat} (hb : i.beats = [])
    (hp : payload.length = 0) (hw : i.word = cw) : encode i = ⟨cw, payload⟩ := by
  rw [encode, hb, hw, List.length_eq_zero_iff.1 hp]

/-- The encoder writes the word and the beats the operands were assembled from (R95, R96): an operand is its own
field, and a field without an operand is zero in the word as in the encoding. -/
theorem encode_of_assemble {c : Config} {op : Op} {cw : CmdWord} {payload : List Beat} {i : Instr}
    (hs : selectOp cw = some op) (hlen : payload.length = payloadLength c op cw)
    (hi : assemble op cw payload = .ok i) : encode i = ⟨cw, payload⟩ := by
  have word {v a b} := cmdWord_of_selectOp hs (v := v) (a := a) (b := b)
  have free {w : Nat} {p : Prop} {x : BitVec w} : p → x = x := fun _ => rfl
  have zero {w : Nat} {x : BitVec w} := zero_of_and_allOnes (x := x)
  cases op with
  | rbwrite =>
    obtain ⟨cells, rfl, hsel, rfl⟩ := assembleRbwrite_ok_iff.1 hi
    rw [length_beats] at hlen
    exact congrArg (Command.mk · _) (word free (fun h => hsel ▸ selWord_of_and h) (fun _ => ofNat_eq_of_eq_toNat hlen))
  | ingest =>
    obtain ⟨block, rfl, rfl⟩ := assembleIngest_ok_iff.1 hi
    exact congrArg (Command.mk · _) (word free zero zero)
  | push =>
    cases hi
    exact congrArg (Command.mk · _) (word free zero (fun _ => ofNat_eq_of_eq_toNat hlen))
  | reset => cases hi; exact encode_eq_of_beats_nil rfl hlen (word zero zero zero)
  | openVoice => cases hi; exact encode_eq_of_beats_nil rfl hlen (word openFlags_of_and free free)
  | stopv => cases hi; exact encode_eq_of_beats_nil rfl hlen (word free zero ticksWord_of_and)
  | query => cases hi; exact encode_eq_of_beats_nil rfl hlen (word zero zero zero)
  | storerr => cases hi; exact encode_eq_of_beats_nil rfl hlen (word zero zero zero)
  | rdreg => cases hi; exact encode_eq_of_beats_nil rfl hlen (word free free zero)
  | rbspace => cases hi; exact encode_eq_of_beats_nil rfl hlen (word free selWord_of_and free)
  | rbread => cases hi; exact encode_eq_of_beats_nil rfl hlen (word free selWord_of_and free)
  | rbused => cases hi; exact encode_eq_of_beats_nil rfl hlen (word free selWord_of_and zero)
  | rbfree => cases hi; exact encode_eq_of_beats_nil rfl hlen (word free selWord_of_and zero)
  | db2idx => cases hi; exact encode_eq_of_beats_nil rfl hlen (word zero free zero)
  | idx2lin => cases hi; exact encode_eq_of_beats_nil rfl hlen (word zero zero free)
  | fade => cases hi; exact encode_eq_of_beats_nil rfl hlen (word free free fadeWord_of_and)
  | fstop => cases hi; exact encode_eq_of_beats_nil rfl hlen (word free zero zero)
  | fsvc => cases hi; exact encode_eq_of_beats_nil rfl hlen (word free zero zero)
  | hasstor => cases hi; exact encode_eq_of_beats_nil rfl hlen (word free zero zero)
  | fetch => cases hi; exact encode_eq_of_beats_nil rfl hlen (word free zero free)
  | hasdec => cases hi; exact encode_eq_of_beats_nil rfl hlen (word free zero zero)
  | decerr => cases hi; exact encode_eq_of_beats_nil rfl hlen (word free zero zero)
  | mix => cases hi; exact encode_eq_of_beats_nil rfl hlen (word zero zero zero)

/-- Settles O2: the command is the encoding of what its operands assemble to, and the payload length the decoder has
checked makes that instruction well formed. -/
theorem encodeOfDecodeIsTheCommand : Obligations.EncodeOfDecodeIsTheCommand := by
  intro c cmd i h
  obtain ⟨op, hs, hlen, hi⟩ := decode_ok_iff.1 h
  obtain rfl : encode i = cmd := encode_of_assemble hs hlen hi
  obtain rfl : i.op = op := Option.some.inj ((selectOp_word i).symm.trans hs)
  exact ⟨rfl, (wf_iff_length_beats c i).2 hlen⟩

end Sys2Proof

namespace Sys2Proof.Machine

/-- The three fields of a response word (R99). -/
theorem response_word_fields (r : Response) :
    r.word.extractLsb' 56 8 = r.status.code ∧ r.word.extractLsb' 32 24 = 0 ∧ r.word.extractLsb' 0 32 = r.value := by
  have low56 : r.word.extractLsb' 0 56 = 0#24 ++ r.value := append_low _ _
  refine ⟨append_high _ _, ?_, ?_⟩
  · calc r.word.extractLsb' 32 24 = (r.word.extractLsb' 0 56).extractLsb' 32 24 :=
          (extract_extract r.word 32 24 0 56 (by omega)).symm
      _ = 0 := by rw [low56]; exact append_high _ _
  · calc r.word.extractLsb' 0 32 = (r.word.extractLsb' 0 56).extractLsb' 0 32 :=
          (extract_extract r.word 0 32 0 56 (by omega)).symm
      _ = r.value := by rw [low56]; exact append_low _ _

/-- Settles O5: the layout holds of every response, the codes are the table of R100. -/
theorem responseWordLayout : Obligations.ResponseWordLayout :=
  ⟨response_word_fields, rfl, rfl, rfl, rfl, rfl, rfl, rfl⟩

/-- Settles O4: the four commands are the encodings of the instructions written there. -/
theorem workedEncodingExamples : Obligations.WorkedEncodingExamples :=
  ⟨decode_of_encode_eq (by decide) (by decide), decode_of_encode_eq (by decide) (by decide),
    decode_of_encode_eq (by decide) (by decide), decode_of_encode_eq (by decide) (by decide), rfl, rfl⟩

/-! ### Illegal commands -/

/-- A command that does not decode answers `IllegalCommand` and writes nothing else (R97 step 1, R98). -/
theorem step_of_not_decoded {s : State} {cmd : Command} {rest : List Command} (hc : s.cfg.wf = true)
    (hp : s.pending = cmd :: rest) (h : ∀ i, decode s.cfg cmd ≠ .ok i) :
    step s = .next (({ s with pending := rest } : State).answered .illegalCommand 0 []) := by
  rw [step_pending s cmd rest hc hp, runCommand]
  cases hd : decode s.cfg cmd with
  | ok i => exact absurd hd (h i)
  | error e => rfl

theorem globalRegister_eq_none (s : State) {n : Nat} (h80 : n ≠ 0x80) (h81 : n ≠ 0x81) (hid : n < 0x90 ∨ 0x99 < n) :
    globalRegister s n = none := by
  simp (disch := omega) only [globalRegister, if_neg]

/-- An unassigned register number (R21, R33, R34) answers `IllegalCommand`. -/
theorem exec_rdreg_unassigned (s : State) (v : BitVec 8) {reg : BitVec 16} (hv : 16 < reg.toNat)
    (hg : globalRegister s reg.toNat = none) :
    exec (.rdreg v reg) s = .next (s.answered .illegalCommand 0 []) := by
  change execRdreg v reg s = _
  rw [execRdreg, if_neg (Nat.not_le.2 hv), hg]
  rfl

/-- Settles O7: neither a word without a row nor a payload of the wrong length decodes, and `RDREG` finds no register
under an unassigned number. -/
theorem illegalCommandsChangeNoState : Obligations.IllegalCommandsChangeNoState := by
  refine ⟨?_, ?_, ?_⟩
  · intro s cmd rest hc hp hrows
    refine step_of_not_decoded hc hp fun i hi => ?_
    obtain ⟨op, hs, -, -⟩ := decode_ok_iff.1 hi
    exact nomatch (selectOp_none.2 hrows).symm.trans hs
  · intro s cmd rest r hc hp hr hm hlen
    refine step_of_not_decoded hc hp fun i hi => ?_
    obtain ⟨op, hs, hlen', -⟩ := decode_ok_iff.1 hi
    obtain rfl : r.op = op := Option.some.inj ((selectOp_of_row hr hm).symm.trans hs)
    exact hlen hlen'
  · intro s v reg hv h80 h81 hid
    refine exec_rdreg_unassigned s v hv (globalRegister_eq_none s ?_ ?_ hid)
    · exact fun h => h80 (BitVec.eq_of_toNat_eq h)
    · exact fun h => h81 (BitVec.eq_of_toNat_eq h)

end Sys2Proof.Machine
end

section
/-! PROOFS (40_ring_buffer.md). A ring buffer as the list of its unread cells: a write appends to the list, a read
takes from its front (R123 to R125, R131); and what the ring operations do to the buffers of a voice. -/
namespace Sys2Proof.Machine

/-! ### A ring as the list of its unread cells -/

section Rings
variable {w : Nat} {b : RingBuffer w}

/-- A ring the procedures keep: a canonical memory and both cursors inside the capacity (R120). -/
structure RingBuffer.Sound (b : RingBuffer w) : Prop where
  mem : Memory.wf b.mem = true
  rd : b.rd < b.cap
  wr : b.wr < b.cap

/-- The unread cells, oldest first: what a read of the whole used space returns. -/
def RingBuffer.unread (b : RingBuffer w) : List (BitVec w) := b.peek b.used

@[simp] theorem ring_unread_length (b : RingBuffer w) : b.unread.length = b.used := ring_peek_length b b.used

theorem ring_readCells_used (b : RingBuffer w) : b.readCells b.used = b.unread := by
  rw [RingBuffer.readCells, ring_readCount_of_le b b.used (Nat.le_refl _), RingBuffer.unread]

/-- The free space as an integer difference (R121). -/
theorem ring_free_int (h : 0 < b.cap) : (b.free : Int) = b.cap - ((b.wr : Int) - b.rd) % b.cap := by
  have hused := ring_used_int b h
  have hfree := ring_used_add_free b h
  omega

theorem RingBuffer.Sound.cap_pos (hb : b.Sound) : 0 < b.cap := Nat.zero_lt_of_lt hb.rd

theorem RingBuffer.Sound.write (hb : b.Sound) (src : List (BitVec w)) : (b.write src).Sound :=
  ⟨writeCells_wf b.cap b.mem b.wr src hb.mem, hb.rd, Nat.mod_lt _ hb.cap_pos⟩

theorem RingBuffer.Sound.afterRead (hb : b.Sound) (n : Nat) : (b.afterRead n).Sound :=
  ⟨hb.mem, Nat.mod_lt _ hb.cap_pos, hb.wr⟩

/-- Equal cursors are the empty ring, never the full one (R121). -/
theorem ring_used_of_wr_eq_rd (h : b.wr = b.rd) : b.used = 0 := by
  simp [RingBuffer.used, h]

/-- The write cursor stands right behind the unread cells. -/
theorem ring_rd_add_used (hb : b.Sound) : (b.rd + b.used) % b.cap = b.wr := by
  obtain ⟨-, hrd, hwr⟩ := hb
  rw [ring_used_cursors b hwr hrd]
  split
  · rw [Nat.add_sub_of_le ‹_›, Nat.mod_eq_of_lt hwr]
  · rw [show b.rd + (b.wr + b.cap - b.rd) = b.wr + b.cap by omega, Nat.add_mod_right, Nat.mod_eq_of_lt hwr]

/-- The cell `i` cells behind the unread ones is the one the write procedure reaches after `i` cells. -/
theorem ring_rd_add_used_add (hb : b.Sound) (i : Nat) : (b.rd + b.used + i) % b.cap = (b.wr + i) % b.cap := by
  rw [← Nat.mod_add_mod, ring_rd_add_used hb]

/-- A peek of more cells continues behind the first ones. -/
theorem ring_peek_add (b : RingBuffer w) (k n : Nat) :
    b.peek (k + n) = b.peek k ++ (List.range n).map (fun i => Memory.read b.mem ((b.rd + k + i) % b.cap)) := by
  simp [RingBuffer.peek, List.range_add, Nat.add_assoc]

/-! ### The write procedure -/

/-- The used space after a write with space for it (R123). -/
theorem ring_write_used (hb : b.Sound) {src : List (BitVec w)} (hlen : src.length < b.free) :
    (b.write src).used = b.used + src.length := by
  have hfree := ring_used_add_free b hb.cap_pos
  have hsound := hb.write src
  have hlast : (b.rd + (b.used + src.length)) % b.cap = (b.rd + (b.write src).used) % b.cap := by
    calc (b.rd + (b.used + src.length)) % b.cap = (b.wr + src.length) % b.cap := by
          rw [← Nat.add_assoc, ring_rd_add_used_add hb]
      _ = (b.rd + (b.write src).used) % b.cap := (ring_rd_add_used hsound).symm
  exact (ring_index_inj (cap := b.cap) (by omega) (ring_used_lt (b.write src) hb.cap_pos) hlast).symm

/-- A write with space for it stores into no unread cell (R123). -/
theorem ring_write_peek_used (hb : b.Sound) {src : List (BitVec w)} (hlen : src.length < b.free) :
    (b.write src).peek b.used = b.peek b.used := by
  have hfree := ring_used_add_free b hb.cap_pos
  refine List.map_congr_left fun i hi => ?_
  have hi : i < b.used := List.mem_range.1 hi
  refine writeCells_read_other b.cap b.mem b.wr src hb.mem ((b.rd + i) % b.cap) fun j hj e => ?_
  rw [← ring_rd_add_used_add hb, Nat.add_assoc] at e
  have : i = b.used + j := ring_index_inj (by omega) (by omega) e
  omega

/-- Behind the cells unread before, a write leaves its own cells, in order (R124). -/
theorem ring_write_peek_stored (hb : b.Sound) {src : List (BitVec w)} (hlen : src.length ≤ b.cap) :
    (List.range src.length).map (fun i => Memory.read (b.write src).mem ((b.rd + b.used + i) % b.cap)) = src := by
  refine List.ext_getElem (by simp) fun i _ hi => ?_
  rw [List.getElem_map, List.getElem_range, ring_rd_add_used_add hb]
  exact writeCells_read_stored b.cap b.mem b.wr src hb.mem hlen i _ (List.getElem?_eq_getElem hi)

/-- A write with space for it appends its cells to the unread ones. -/
theorem ring_write_unread (hb : b.Sound) {src : List (BitVec w)} (hlen : src.length < b.free) :
    (b.write src).unread = b.unread ++ src := by
  have hcap : src.length ≤ b.cap := Nat.le_trans (Nat.le_of_lt hlen) (ring_free_le_cap b)
  calc (b.write src).unread = (b.write src).peek (b.used + src.length) := by
        rw [RingBuffer.unread, ring_write_used hb hlen]
    _ = (b.write src).peek b.used ++ (List.range src.length).map
          (fun i => Memory.read (b.write src).mem ((b.rd + b.used + i) % b.cap)) := ring_peek_add _ _ _
    _ = b.unread ++ src := by
        rw [ring_write_peek_used hb hlen, ring_write_peek_stored hb hcap, RingBuffer.unread]

/-! ### The read procedure and sequences of uses -/

/-- A read takes the cells it returns from the front of the unread ones (R125). -/
theorem ring_readCells_append_unread (hb : b.Sound) (n : Nat) :
    b.readCells n ++ (b.afterRead n).unread = b.unread := by
  have hcount := ring_readCount_le_used b n
  calc b.readCells n ++ (b.afterRead n).unread
      = b.peek (b.readCount n) ++ (b.afterRead n).peek (b.used - b.readCount n) := by
        rw [RingBuffer.unread, ring_afterRead_used b n hb.wr hb.rd, RingBuffer.readCells]
    _ = b.peek (b.readCount n + (b.used - b.readCount n)) := by
        rw [ring_afterRead_peek, ring_peek_add]
    _ = b.unread := by rw [Nat.add_sub_of_le hcount, RingBuffer.unread]

/-- What a sequence of uses that begins with a write can be. -/
theorem runRing_write_some {cells : List (BitVec w)} {rest : List (RingUse w)} {b' : RingBuffer w}
    {written returned : List (BitVec w)} (h : runRing (.write cells :: rest) b = some (b', written, returned)) :
    cells.length < b.free ∧
    ∃ later, runRing rest (b.write cells) = some (b', later, returned) ∧ written = cells ++ later := by
  rw [runRing] at h
  split at h
  · obtain ⟨⟨_, later, _⟩, hrest, e⟩ := Option.map_eq_some_iff.1 h
    obtain ⟨rfl, rfl, rfl⟩ := e
    exact ⟨‹_›, later, hrest, rfl⟩
  · exact nomatch h

/-- What a sequence of uses that begins with a read can be. -/
theorem runRing_read_some {n : Nat} {rest : List (RingUse w)} {b' : RingBuffer w}
    {written returned : List (BitVec w)} (h : runRing (.read n :: rest) b = some (b', written, returned)) :
    ∃ later, runRing rest (b.afterRead n) = some (b', written, later) ∧ returned = b.readCells n ++ later := by
  rw [runRing] at h
  obtain ⟨⟨_, _, later⟩, hrest, e⟩ := Option.map_eq_some_iff.1 h
  obtain ⟨rfl, rfl, rfl⟩ := e
  exact ⟨later, hrest, rfl⟩

/-- The law of R131 from any ring: the cells unread at first and then those written are the cells returned and then
those still unread, in the same order; the ring stays sound and keeps its capacity. -/
theorem runRing_unread {uses : List (RingUse w)} {b' : RingBuffer w} {written returned : List (BitVec w)}
    (hb : b.Sound) (h : runRing uses b = some (b', written, returned)) :
    b'.Sound ∧ b'.cap = b.cap ∧ b.unread ++ written = returned ++ b'.unread := by
  induction uses generalizing b written returned with
  | nil =>
    obtain ⟨rfl, rfl, rfl⟩ : b = b' ∧ [] = written ∧ [] = returned := by simpa [runRing] using h
    exact ⟨hb, rfl, by simp⟩
  | cons use rest ih =>
    cases use with
    | write cells =>
      obtain ⟨hlen, later, hrest, rfl⟩ := runRing_write_some h
      obtain ⟨hb', hcap, e⟩ := ih (hb.write cells) hrest
      rw [ring_write_unread hb hlen, List.append_assoc] at e
      exact ⟨hb', hcap, e⟩
    | read n =>
      obtain ⟨later, hrest, rfl⟩ := runRing_read_some h
      obtain ⟨hb', hcap, e⟩ := ih (hb.afterRead n) hrest
      refine ⟨hb', hcap, ?_⟩
      rw [← ring_readCells_append_unread hb n, List.append_assoc, e, List.append_assoc]

end Rings

/-! ### The obligations on the rings -/

/-- Settles O32: the used space grows by the cells written, below the capacity, and the unread cells lie outside
the cells written. -/
theorem checkedWritesNeverFillTheRing : Obligations.CheckedWritesNeverFillTheRing := by
  intro w b src hmem hrd hwr hspace
  have hb : b.Sound := ⟨hmem, hrd, hwr⟩
  have hlen : src.length < b.free := (ring_hasSpace_iff b src.length).1 hspace
  have hfree := ring_used_add_free b hb.cap_pos
  have hused := ring_write_used hb hlen
  refine ⟨by omega, hused, rfl, fun hne heq => ?_, ring_write_peek_used hb hlen⟩
  have hempty : (b.write src).used = 0 := ring_used_of_wr_eq_rd heq
  have hpos := List.length_pos_iff.2 hne
  omega

/-- Settles O33: an empty ring has no unread cells, so the cells written are the cells returned and then the unread
ones. -/
theorem ringIsAFifo : Obligations.RingIsAFifo := by
  intro w b b' uses written returned hmem hempty hrd h
  have hb : b.Sound := ⟨hmem, hrd, hempty ▸ hrd⟩
  obtain ⟨hb', hcap, e⟩ := runRing_unread hb h
  have hnone : b.unread = [] := List.eq_nil_of_length_eq_zero (by simp [ring_used_of_wr_eq_rd hempty])
  obtain rfl : written = returned ++ b'.unread := by simpa [hnone] using e
  have hused := ring_used_lt b' hb'.cap_pos
  refine ⟨List.prefix_append _ _, by simp, by omega, ?_⟩
  rw [ring_readCells_used, List.drop_left]

/-! ### The two rings of a voice -/

section VoiceRings
variable {c : Config} {x : Voice}

theorem compRing_used_int (hc : c.wf = true) : ((x.compRing c).used : Int) = usedComp c x :=
  ring_used_int _ (config_cap_pos hc).1

theorem pcmRing_used_int (hc : c.wf = true) : ((x.pcmRing c).used : Int) = usedPcm c x :=
  ring_used_int _ (config_cap_pos hc).2

theorem compRing_free_int (hc : c.wf = true) : ((x.compRing c).free : Int) = c.cComp - usedComp c x :=
  ring_free_int (config_cap_pos hc).1

theorem pcmRing_free_int (hc : c.wf = true) : ((x.pcmRing c).free : Int) = c.cPcm - usedPcm c x :=
  ring_free_int (config_cap_pos hc).2

theorem hasSpaceOf_iff (sel : BufSel) (n : Nat) : x.hasSpaceOf c sel n = true ↔ n < x.freeOf c sel := by
  cases sel with
  | comp => exact ring_hasSpace_iff _ n
  | pcm => exact ring_hasSpace_iff _ n

/-- A write to the compressed buffer leaves its read cursor and every other register (R124). -/
theorem setCompRing_write (bytes : List Byte) :
    x.setCompRing ((x.compRing c).write bytes) =
      { x with
        comp := writeCells c.cComp x.comp x.compWr.toNat bytes
        compWr := BitVec.ofNat 32 ((x.compWr.toNat + bytes.length) % c.cComp) } := by
  simp [Voice.setCompRing]

/-- A write to the decoded buffer leaves its read cursor and every other register (R124). -/
theorem setPcmRing_write (frames : List Frame) :
    x.setPcmRing ((x.pcmRing c).write frames) =
      { x with
        pcm := writeCells c.cPcm x.pcm x.pcmWr.toNat frames
        pcmWr := BitVec.ofNat 32 ((x.pcmWr.toNat + frames.length) % c.cPcm) } := by
  simp [Voice.setPcmRing]

/-- A read of the compressed buffer moves its read cursor and nothing else (R125). -/
theorem setCompRing_afterRead (n : Nat) :
    x.setCompRing ((x.compRing c).afterRead n) =
      { x with compRd := BitVec.ofNat 32 ((x.compRd.toNat + (x.compRing c).readCount n) % c.cComp) } := by
  simp [Voice.setCompRing]

/-- A read of the decoded buffer moves its read cursor and nothing else (R125). -/
theorem setPcmRing_afterRead (n : Nat) :
    x.setPcmRing ((x.pcmRing c).afterRead n) =
      { x with pcmRd := BitVec.ofNat 32 ((x.pcmRd.toNat + (x.pcmRing c).readCount n) % c.cPcm) } := by
  simp [Voice.setPcmRing]

end VoiceRings

/-! ### The operations on a voice that is served -/

section Served
variable {s : State} {v : BitVec 8} {x : Voice}

theorem exec_rbspace_serves (h : s.Serves v x) (sel : BufSel) (n : BitVec 32) :
    exec (.rbspace v sel n) s = .next (s.answered .ok (boolValue (x.hasSpaceOf s.cfg sel n.toNat)) []) :=
  onHandle_serves h _

theorem exec_rbused_serves (h : s.Serves v x) (sel : BufSel) :
    exec (.rbused v sel) s = .next (s.answered .ok (BitVec.ofNat 32 (x.usedOf s.cfg sel)) []) :=
  onHandle_serves h _

theorem exec_rbfree_serves (h : s.Serves v x) (sel : BufSel) :
    exec (.rbfree v sel) s = .next (s.answered .ok (BitVec.ofNat 32 (x.freeOf s.cfg sel)) []) :=
  onHandle_serves h _

theorem exec_hasstor_serves (h : s.Serves v x) :
    exec (.hasstor v) s =
      .next (s.answered .ok (boolValue (x.hasSpaceOf s.cfg .comp s.cfg.blockBytes)) []) :=
  onHandle_serves h _

theorem exec_hasdec_serves (h : s.Serves v x) :
    exec (.hasdec v) s =
      .next (s.answered .ok (boolValue (x.hasSpaceOf s.cfg .pcm s.cfg.decodeFrame)) []) :=
  onHandle_serves h _

theorem exec_rbread_serves (h : s.Serves v x) (sel : BufSel) (n : BitVec 32) :
    exec (.rbread v sel n) s = .next (s.updated v (x.afterReadOf s.cfg sel n.toNat) .ok
      (BitVec.ofNat 32 (min n.toNat (x.usedOf s.cfg sel))) (x.readBeatsOf s.cfg sel n.toNat)) :=
  onHandle_serves h _

theorem exec_rbwrite_serves (h : s.Serves v x) (cells : Cells) :
    exec (.rbwrite v cells) s = withSpace (x.hasSpaceOf s.cfg cells.sel cells.count)
      (.next (s.updated v (x.writeCellsOf s.cfg cells) .ok (BitVec.ofNat 32 cells.count) [])) :=
  onHandle_serves h _

theorem exec_push_serves (h : s.Serves v x) (frames : List Frame) :
    exec (.push v frames) s = withSpace (x.hasSpaceOf s.cfg .pcm frames.length)
      (.next (s.updated v (x.writeCellsOf s.cfg (.pcm frames)) .ok (BitVec.ofNat 32 frames.length) [])) :=
  onHandle_serves h _

theorem exec_ingest_serves (h : s.Serves v x) (hu : x.unread ≠ 0) (block : List Byte) :
    exec (.ingest v block) s = withSpace (x.hasSpaceOf s.cfg .comp block.length)
      (.next (s.updated v (ingestBlock s.cfg x block) .ok (BitVec.ofNat 32 (x.validBytes s.cfg)) [])) :=
  (onHandle_serves h _).trans (if_neg hu)

/-- A write that asks for space there is not is refused, whatever it would do (R124, U1). -/
theorem withSpace_of_free_le {c : Config} {sel : BufSel} {n : Nat} (h : x.freeOf c sel ≤ n)
    (k : Host.Outcome State Fault Refusal) : withSpace (x.hasSpaceOf c sel n) k = .refused .writeWithoutSpace := by
  have hno : x.hasSpaceOf c sel n = false :=
    Bool.eq_false_iff.2 fun e => Nat.not_le.2 ((hasSpaceOf_iff sel n).1 e) h
  rw [hno, withSpace_false]

/-- A write with space for its cells is performed (R124). -/
theorem withSpace_of_lt_free {c : Config} {sel : BufSel} {n : Nat} (h : n < x.freeOf c sel)
    (k : Host.Outcome State Fault Refusal) : withSpace (x.hasSpaceOf c sel n) k = k := by
  rw [(hasSpaceOf_iff sel n).2 h, withSpace_true]

end Served

/-! ### The obligations on the operations -/

/-- Settles O20: each of the three writes runs under `withSpace` with the number of its cells. -/
theorem writesWithoutSpaceAreRefused : Obligations.WritesWithoutSpaceAreRefused := by
  intro s v x hv
  refine ⟨fun cells hfree => ?_, fun frames hfree => ?_, fun block hread hfree => ?_⟩
  · rw [exec_rbwrite_serves hv, withSpace_of_free_le hfree]
  · rw [exec_push_serves hv, withSpace_of_free_le hfree]
  · have hu : x.unread ≠ 0 := Nat.sub_ne_zero_of_lt hread
    rw [exec_ingest_serves hv hu, withSpace_of_free_le hfree]

/-- The value of a space check, from the free space as an integer (R101, R122). -/
theorem boolValue_hasSpaceOf {c : Config} {x : Voice} {sel : BufSel} {free : Int} (h : (x.freeOf c sel : Int) = free)
    (n : Nat) : boolValue (x.hasSpaceOf c sel n) = if free > n then 1 else 0 := by
  rw [boolValue, ← h]
  exact if_congr ((hasSpaceOf_iff sel n).trans Int.ofNat_lt.symm) rfl rfl

/-- Settles O29: the used and the free space of the rings are those of the integer formulas. -/
theorem spaceQueriesAnswerTheCursorDifference : Obligations.SpaceQueriesAnswerTheCursorDifference := by
  intro s v x n hc hv
  have hcomp : (x.freeOf s.cfg .comp : Int) = s.cfg.cComp - usedComp s.cfg x := compRing_free_int hc
  have hpcm : (x.freeOf s.cfg .pcm : Int) = s.cfg.cPcm - usedPcm s.cfg x := pcmRing_free_int hc
  refine ⟨?_, ?_, ?_, ?_, ?_, ?_, ?_, ?_⟩
  · rw [exec_rbused_serves hv, ← compRing_used_int hc, BitVec.ofInt_natCast, Voice.usedOf]
  · rw [exec_rbused_serves hv, ← pcmRing_used_int hc, BitVec.ofInt_natCast, Voice.usedOf]
  · rw [exec_rbfree_serves hv, ← hcomp, BitVec.ofInt_natCast]
  · rw [exec_rbfree_serves hv, ← hpcm, BitVec.ofInt_natCast]
  · rw [exec_rbspace_serves hv, boolValue_hasSpaceOf hcomp]
  · rw [exec_rbspace_serves hv, boolValue_hasSpaceOf hpcm]
  · rw [exec_hasstor_serves hv, boolValue_hasSpaceOf hcomp]
  · rw [exec_hasdec_serves hv, boolValue_hasSpaceOf hpcm]

/-- Settles O30: the memory written is what the write procedure makes of the old one. -/
theorem rbwriteStoresTheCells : Obligations.RbwriteStoresTheCells := by
  intro s v x hc hm hv
  have ⟨_, _, hx, _⟩ := hv
  have ⟨hvoices, _⟩ := hm
  obtain ⟨⟨hcomp, -⟩, hpcm, -⟩ := hvoices x (List.mem_of_getElem? hx)
  refine ⟨fun bytes hlen => ?_, fun frames hlen => ?_⟩
  · have hlt : bytes.length < (x.compRing s.cfg).free := by rwa [← compRing_free_int hc, Int.ofNat_lt] at hlen
    have hcap : bytes.length ≤ s.cfg.cComp := Nat.le_trans (Nat.le_of_lt hlt) (ring_free_le_cap _)
    refine ⟨_, writeCells_storedAt s.cfg.cComp x.comp x.compWr.toNat bytes hcomp hcap, ?_⟩
    rw [exec_rbwrite_serves hv, withSpace_of_lt_free hlt, ← setCompRing_write]
    rfl
  · have hlt : frames.length < (x.pcmRing s.cfg).free := by rwa [← pcmRing_free_int hc, Int.ofNat_lt] at hlen
    have hcap : frames.length ≤ s.cfg.cPcm := Nat.le_trans (Nat.le_of_lt hlt) (ring_free_le_cap _)
    refine ⟨_, writeCells_storedAt s.cfg.cPcm x.pcm x.pcmWr.toNat frames hpcm hcap, ?_⟩
    rw [exec_rbwrite_serves hv, withSpace_of_lt_free hlt, ← setPcmRing_write]
    rfl

/-- Settles O31: the count of the read is the minimum the statement names, and the read moves the read cursor
alone. -/
theorem rbreadReturnsTheOldestCells : Obligations.RbreadReturnsTheOldestCells := by
  intro s v x n hc hv
  refine ⟨fun k hk => ?_, fun k hk => ?_⟩
  · obtain rfl : k = (x.compRing s.cfg).readCount n.toNat := by
      rw [← compRing_used_int hc] at hk
      exact_mod_cast hk
    rw [exec_rbread_serves hv, Voice.afterReadOf, setCompRing_afterRead, Voice.readBeatsOf, RingBuffer.readCells,
      RingBuffer.peek, List.map_map]
    rfl
  · obtain rfl : k = (x.pcmRing s.cfg).readCount n.toNat := by
      rw [← pcmRing_used_int hc] at hk
      exact_mod_cast hk
    rw [exec_rbread_serves hv, Voice.afterReadOf, setPcmRing_afterRead, Voice.readBeatsOf]
    rfl

end Sys2Proof.Machine
end

section
/-! PROOFS (41_gain_table.md). The index of a decibel value is a clamped linear map (R145), the gain table is
non-decreasing and zero below its floor (R141 c and e), and what the two table operations answer (R146, R148). -/
namespace Sys2Proof.Machine

section GainTable
variable {c : Config}

/-! ### The index of a decibel value -/

/-- The clamp of R145 to the table never binds: a clamped decibel value already has its index in the table. -/
theorem dbToIndex_int (h : c.wf = true) (db : Int) :
    (dbToIndex c db : Int) = (max c.minDb (min maxDb db) - c.minDb) * 2 := by
  have hn := config_n_int h
  obtain ⟨-, -, hmin, -⟩ := config_wf_ranges h
  simp only [dbToIndex, maxDb]
  omega

theorem dbToIndex_mono (h : c.wf = true) {x y : Int} (hxy : x ≤ y) : dbToIndex c x ≤ dbToIndex c y := by
  have hx := dbToIndex_int h x
  have hy := dbToIndex_int h y
  omega

theorem dbToIndex_minDb (h : c.wf = true) : dbToIndex c c.minDb = 0 := by
  have hi := dbToIndex_int h c.minDb
  obtain ⟨-, -, hmin, -⟩ := config_wf_ranges h
  unfold maxDb at hi
  omega

theorem dbToIndex_maxDb (h : c.wf = true) : dbToIndex c maxDb = c.n - 1 := by
  have hi := dbToIndex_int h maxDb
  have hn := config_n_int h
  obtain ⟨-, -, hmin, -⟩ := config_wf_ranges h
  unfold maxDb at hi ⊢
  omega

/-! ### The entries of the table -/

/-- The table never decreases (R141 c). -/
theorem indexToLinear_mono (h : c.wf = true) {i j gi gj : Nat} (hij : i ≤ j) (hi : indexToLinear c i = some gi)
    (hj : indexToLinear c j = some gj) : gi ≤ gj := by
  obtain ⟨-, -, hmono, -⟩ := config_rom h
  obtain ⟨-, rfl⟩ := List.getElem?_eq_some_iff.1 hi
  obtain ⟨hlt, rfl⟩ := List.getElem?_eq_some_iff.1 hj
  exact nondecreasing_getElem _ hmono i j hij hlt

/-- Two indices in order, the higher one inside the table, have amplitudes in order. -/
theorem exists_indexToLinear_le (h : c.wf = true) {i j : Nat} (hij : i ≤ j) (hj : j < c.n) :
    ∃ gi gj, indexToLinear c i = some gi ∧ indexToLinear c j = some gj ∧ gi ≤ gj := by
  obtain ⟨gi, hgi, -⟩ := indexToLinear_lt h (Nat.lt_of_le_of_lt hij hj)
  obtain ⟨gj, hgj, -⟩ := indexToLinear_lt h hj
  exact ⟨gi, gj, hgi, hgj, indexToLinear_mono h hij hgi hgj⟩

/-- The entries below the floor are zero (R141 e). -/
theorem indexToLinear_of_lt_z (h : c.wf = true) {i : Nat} (hi : i < c.z) : indexToLinear c i = some 0 := by
  obtain ⟨-, -, -, ⟨-, hz⟩, -⟩ := config_wf_ranges h
  obtain ⟨-, -, -, -, hzero⟩ := config_rom h
  obtain ⟨lin, hlin, -⟩ := indexToLinear_lt h (i := i) (by omega)
  have hmem : lin ∈ c.gainRom.take c.z :=
    List.mem_of_getElem? ((List.getElem?_take_of_lt hi).trans hlin)
  rw [hlin, hzero lin hmem]

end GainTable

/-! ### The two table operations -/

section TableOperations
variable {s : State}

theorem exec_db2idx_running (hr : s.halted = false) (db : BitVec 16) :
    exec (.db2idx db) s = .next (s.answered .ok (BitVec.ofNat 32 (dbToIndex s.cfg db.toInt)) []) :=
  whenRunning_running _ _ hr

theorem exec_idx2lin_running (hr : s.halted = false) {index : BitVec 32} {lin : Nat}
    (hl : indexToLinear s.cfg (min index.toNat (s.cfg.n - 1)) = some lin) :
    exec (.idx2lin index) s = .next (s.answered .ok (BitVec.ofNat 32 lin) []) := by
  change execIdx2lin index s = _
  rw [execIdx2lin, whenRunning_running _ _ hr, hl]
  rfl

end TableOperations

/-! ### The obligations on the gain table -/

/-- Settles O34: all but the answer of `DB2IDX` follows from the linear map on the clamped value. -/
theorem db2idxAnswersTheClampedIndex : Obligations.Db2idxAnswersTheClampedIndex := by
  intro s hc
  refine ⟨fun db => ⟨dbToIndex_int hc db, Nat.le_sub_one_of_lt (dbToIndex_lt s.cfg db hc), ?even⟩,
    dbToIndex_minDb hc, dbToIndex_maxDb hc, fun db hr => exec_db2idx_running hr db⟩
  case even =>
    have hi := dbToIndex_int hc db
    omega

/-- Settles O36: the index is monotone in decibels and the table in the index. -/
theorem gainIsMonotoneInDecibels : Obligations.GainIsMonotoneInDecibels := fun c hc =>
  ⟨fun _ _ hij hj => exists_indexToLinear_le hc hij hj, dbToIndex_minDb hc, dbToIndex_maxDb hc,
    fun _ hi => indexToLinear_of_lt_z hc hi,
    fun _ y hxy => exists_indexToLinear_le hc (dbToIndex_mono hc hxy) (dbToIndex_lt c y hc)⟩

/-- Settles O35: the clamped index lies in the table, so the read of `ROM` does not fault. -/
theorem idx2linReadsTheTable : Obligations.Idx2linReadsTheTable := by
  intro s index hc hr
  have hn := config_n_bounds hc
  obtain ⟨lin, hlin, hle⟩ := indexToLinear_lt hc (i := min index.toNat (s.cfg.n - 1)) (by omega)
  exact ⟨lin, hlin, hle, exec_idx2lin_running hr hlin⟩

end Sys2Proof.Machine
end

section
/-! PROOFS (42_fader.md). What starting a fade (R156 to R158) and servicing it (R162) do, one equation per case; what
the fader operations do to the voice they serve; and the course of a whole ramp in closed form (R167). -/
namespace Sys2Proof.Machine

/-! ### The start of a fade -/

section Start
variable {c : Config} {x : Voice} {db : Int} {ticks : Nat} {soc : Bool}

/-- The clamp of R156 as a maximum. -/
theorem clampTicks_eq_max (ticks : Nat) : clampTicks ticks = max 1 ticks := by
  unfold clampTicks
  split <;> omega

theorem faderStart_short (h : clampTicks ticks < 3) :
    faderStart c x db ticks soc =
      { x with
        faderCtl := ⟨true, soc, x.faderCtl.up, BitVec.ofNat 2 (clampTicks ticks), false⟩
        target := BitVec.ofNat 16 (dbToIndex c db) } :=
  if_pos h

theorem faderStart_same (h : ¬clampTicks ticks < 3) (ht : dbToIndex c db = x.gainIdx.toNat) :
    faderStart c x db ticks soc = x :=
  (if_neg h).trans (if_pos ht)

theorem faderStart_ramp (h : ¬clampTicks ticks < 3) (ht : dbToIndex c db ≠ x.gainIdx.toNat) :
    faderStart c x db ticks soc =
      { x with
        faderCtl := ⟨true, soc, decide (x.gainIdx.toNat < dbToIndex c db), 0, false⟩
        target := BitVec.ofNat 16 (dbToIndex c db)
        rampDelta := BitVec.ofNat 32 (fadeDistance (dbToIndex c db) x.gainIdx.toNat * 65536 * 3 / clampTicks ticks)
        rampAcc := BitVec.ofNat 32 (x.gainIdx.toNat * 65536) } :=
  (if_neg h).trans (if_neg ht)

/-- The ramp delta of R158, computed on integers. -/
theorem ofInt_rampDelta (t g dur : Nat) :
    BitVec.ofInt 32 ((|(t : Int) - g| * 65536 * 3) / dur) = BitVec.ofNat 32 (fadeDistance t g * 65536 * 3 / dur) := by
  rw [← BitVec.ofInt_natCast, fadeDistance]
  push_cast
  rfl

theorem toNat_ofNat_of_lt {w k : Nat} (h : k < 2 ^ w) : (BitVec.ofNat w k).toNat = k := by
  rw [BitVec.toNat_ofNat, Nat.mod_eq_of_lt h]

/-- The index of a fade's target is held exactly by its register (R145). -/
theorem ofNat_dbToIndex_toNat (hc : c.wf = true) (db : Int) :
    (BitVec.ofNat 16 (dbToIndex c db)).toNat = dbToIndex c db := by
  have ht := dbToIndex_lt c db hc
  have hn := config_n_bounds hc
  exact toNat_ofNat_of_lt (by omega)

/-- Two indices of the table lie at most `N - 1 <= 2000` apart (R166). -/
theorem fadeDistance_bounds (hc : c.wf = true) {t g : Nat} (ht : t < c.n) (hg : g < c.n) (hne : t ≠ g) :
    1 ≤ fadeDistance t g ∧ fadeDistance t g ≤ 2000 := by
  have hn := config_n_bounds hc
  unfold fadeDistance
  omega

/-- A distance of at least one index over at most 65535 ticks still advances, and three ticks or more are at least one
quantum (R166). -/
theorem rampDelta_bounds {dist ticks : Nat} (hd : 1 ≤ dist) (h3 : 3 ≤ ticks) (h16 : ticks ≤ 65535) :
    3 ≤ dist * 65536 * 3 / ticks ∧ dist * 65536 * 3 / ticks ≤ dist * 65536 := by
  constructor
  · rw [Nat.le_div_iff_mul_le (by omega)]
    omega
  · exact Nat.div_le_of_le_mul (by rw [Nat.mul_comm]; exact Nat.mul_le_mul_right _ h3)

end Start

/-! ### One service of a fade -/

section Service
variable {x : Voice}

theorem satsub0_eq_sub (a b : Nat) : satsub0 a b = a - b := by
  unfold satsub0
  split <;> omega

theorem faderService_idle (ha : x.faderCtl.active = false) : faderService x = (x, false) := by
  simp [faderService, ha]

section Active
variable (ha : x.faderCtl.active = true)
include ha

theorem faderService_short (hm : x.faderCtl.shortFadeMode ≠ 0) (hc : x.faderCtl.shortFadeCompleted = false) :
    faderService x =
      ({ x with gainIdx := x.target, faderCtl := { x.faderCtl with shortFadeCompleted := true } }, false) := by
  rw [faderService, if_pos ha, if_pos hm, serviceShort]
  simp [hc]

theorem faderService_short_completed (hm : x.faderCtl.shortFadeMode ≠ 0)
    (hc : x.faderCtl.shortFadeCompleted = true) :
    faderService x = ({ x with faderCtl := x.faderCtl.idle }, x.faderCtl.stopOnComplete) := by
  rw [faderService, if_pos ha, if_pos hm, serviceShort]
  simp [hc]

theorem faderService_reached (hm : x.faderCtl.shortFadeMode = 0)
    (ht : (x.faderCtl.up = true ∧ x.target.toNat ≤ x.gainIdx.toNat) ∨
      (x.faderCtl.up = false ∧ x.gainIdx.toNat ≤ x.target.toNat)) :
    faderService x = ({ x with faderCtl := { x.faderCtl with active := false } }, x.faderCtl.stopOnComplete) := by
  rcases ht with ⟨hu, ht⟩ | ⟨hu, ht⟩
  · simp [faderService, serviceUp, ha, hm, hu, ht]
  · simp [faderService, serviceDown, ha, hm, hu, ht]

theorem faderService_up (hm : x.faderCtl.shortFadeMode = 0) (hu : x.faderCtl.up = true)
    (ht : x.gainIdx.toNat < x.target.toNat) :
    faderService x =
      ({ x with
          rampAcc := BitVec.ofNat 32 (min (x.rampAcc.toNat + x.rampDelta.toNat) (2 ^ 32 - 1))
          gainIdx := BitVec.ofNat 16
            (min (min (x.rampAcc.toNat + x.rampDelta.toNat) (2 ^ 32 - 1) / 65536) x.target.toNat) }, false) := by
  simp [faderService, serviceUp, ha, hm, hu, ht, satadd32, intpart]

theorem faderService_down (hm : x.faderCtl.shortFadeMode = 0) (hu : x.faderCtl.up = false)
    (ht : x.target.toNat < x.gainIdx.toNat) :
    faderService x =
      ({ x with
          rampAcc := BitVec.ofNat 32 (x.rampAcc.toNat - x.rampDelta.toNat)
          gainIdx := BitVec.ofNat 16
            (max ((x.rampAcc.toNat - x.rampDelta.toNat) / 65536) x.target.toNat) }, false) := by
  simp [faderService, serviceDown, ha, hm, hu, ht, satsub0_eq_sub, intpart]

end Active
end Service

/-! ### The operations on a voice that is served -/

section Served
variable {s : State} {v : BitVec 8} {x : Voice}

theorem exec_fade_serves (h : s.Serves v x) (db ticks : BitVec 16) (soc : Bool) :
    exec (.fade v db ticks soc) s =
      .next (s.updated v (faderStart s.cfg x db.toInt ticks.toNat soc) .ok 0 []) :=
  onHandle_serves h _

theorem exec_fstop_serves (h : s.Serves v x) :
    exec (.fstop v) s = .next (s.updated v (faderStop x) .ok 0 []) :=
  onHandle_serves h _

theorem exec_fsvc_serves (h : s.Serves v x) {y : Voice} {r : Bool} (hy : faderService x = (y, r)) :
    exec (.fsvc v) s = .next (s.updated v y .ok (boolValue r) []) := by
  have he : exec (.fsvc v) s =
      .next (s.updated v (faderService x).1 .ok (boolValue (faderService x).2) []) := onHandle_serves h _
  rw [he, hy]

end Served

/-! ### A ramp in the course of its services -/

section Ramp
variable {x : Voice}

/-- The service that `serviceTimes` does first can as well be done last. -/
theorem serviceTimes_succ (k : Nat) (x : Voice) : serviceTimes (k + 1) x = (faderService (serviceTimes k x)).1 := by
  induction k generalizing x with
  | zero => rfl
  | succ k ih => exact ih (faderService x).1

/-- A voice in its ramp: all that a ramp step changes is the accumulator and the gain index (R162). -/
def rampAt (x : Voice) (acc g : Nat) : Voice :=
  { x with rampAcc := BitVec.ofNat 32 acc, gainIdx := BitVec.ofNat 16 g }

theorem rampAt_self (x : Voice) : rampAt x x.rampAcc.toNat x.gainIdx.toNat = x := by
  simp [rampAt]

theorem rampAt_gainIdx {acc g : Nat} (hg : g < 2 ^ 16) : (rampAt x acc g).gainIdx.toNat = g :=
  toNat_ofNat_of_lt hg

theorem rampAt_rampAcc {acc g : Nat} (hacc : acc < 2 ^ 32) : (rampAt x acc g).rampAcc.toNat = acc :=
  toNat_ofNat_of_lt hacc

section Steps
variable (ha : x.faderCtl.active = true) (hm : x.faderCtl.shortFadeMode = 0)
include ha hm

theorem faderService_rampAt_up (hu : x.faderCtl.up = true) {acc g : Nat}
    (hacc : acc + x.rampDelta.toNat < 2 ^ 32) (hg : g < x.target.toNat) :
    faderService (rampAt x acc g) =
      (rampAt x (acc + x.rampDelta.toNat) (min ((acc + x.rampDelta.toNat) / 65536) x.target.toNat), false) := by
  have hg' : (rampAt x acc g).gainIdx.toNat = g := rampAt_gainIdx (hg.trans x.target.isLt)
  have ha' : (rampAt x acc g).rampAcc.toNat = acc := rampAt_rampAcc (by omega)
  rw [faderService_up (x := rampAt x acc g) ha hm hu (hg'.symm ▸ hg), ha']
  change (rampAt x (min (acc + x.rampDelta.toNat) _)
    (min (min (acc + x.rampDelta.toNat) _ / 65536) x.target.toNat), false) = _
  rw [Nat.min_eq_left (by omega)]

theorem faderService_rampAt_down (hu : x.faderCtl.up = false) {acc g : Nat} (hacc : acc < 2 ^ 32)
    (hg : g < 2 ^ 16) (ht : x.target.toNat < g) :
    faderService (rampAt x acc g) =
      (rampAt x (acc - x.rampDelta.toNat) (max ((acc - x.rampDelta.toNat) / 65536) x.target.toNat), false) := by
  have hg' : (rampAt x acc g).gainIdx.toNat = g := rampAt_gainIdx hg
  rw [faderService_down (x := rampAt x acc g) ha hm hu (hg'.symm ▸ ht), rampAt_rampAcc hacc]
  rfl

/-- A ramp at its target ends, whichever way it came (R162). -/
theorem faderService_rampAt_target (acc : Nat) :
    faderService (rampAt x acc x.target.toNat) =
      ({ rampAt x acc x.target.toNat with faderCtl := { x.faderCtl with active := false } },
        x.faderCtl.stopOnComplete) := by
  have hg : (rampAt x acc x.target.toNat).gainIdx.toNat = x.target.toNat := rampAt_gainIdx x.target.isLt
  refine faderService_reached ha hm ?_
  cases hu : x.faderCtl.up with
  | true => exact .inl ⟨hu, hg.ge⟩
  | false => exact .inr ⟨hu, hg.le⟩

/-- A ramp that runs through `acc` and `g` for `K` calls and is then at its target: what every call leaves and answers
(R167). -/
theorem ramp_converges {acc g : Nat → Nat} {K : Nat} (hx : rampAt x (acc 0) (g 0) = x)
    (hstep : ∀ k, k < K → faderService (rampAt x (acc k) (g k)) = (rampAt x (acc (k + 1)) (g (k + 1)), false))
    (hfit : ∀ k, k ≤ K → g k < 2 ^ 16) (hK : g K = x.target.toNat) :
    (∀ k, k ≤ K → (serviceTimes k x).gainIdx.toNat = g k) ∧
    (∀ k, k < K → (faderService (serviceTimes k x)).2 = false) ∧
    (faderService (serviceTimes K x)).2 = x.faderCtl.stopOnComplete ∧
    (serviceTimes (K + 1) x).faderCtl.active = false ∧
    (serviceTimes (K + 1) x).gainIdx.toNat = x.target.toNat := by
  have hrun : ∀ k, k ≤ K → serviceTimes k x = rampAt x (acc k) (g k) := by
    intro k hk
    induction k with
    | zero => exact hx.symm
    | succ k ih => rw [serviceTimes_succ, ih (by omega), hstep k hk]
  have hend := faderService_rampAt_target ha hm (acc K)
  rw [← hK, ← hrun K (Nat.le_refl K)] at hend
  refine ⟨fun k hk => ?_, fun k hk => ?_, ?_, ?_, ?_⟩
  · rw [hrun k hk, rampAt_gainIdx (hfit k hk)]
  · rw [hrun k hk.le, hstep k hk]
  · rw [hend]
  · rw [serviceTimes_succ, hend]
  · rw [serviceTimes_succ, hend, ← hK, ← rampAt_gainIdx (hfit K (Nat.le_refl K)), ← hrun K (Nat.le_refl K)]

end Steps
end Ramp

/-! ### The closed forms of R167 -/

section ClosedForms
variable {s t d k : Nat}

/-- The gain index after `k` steps of an up ramp from `s` to `t`. -/
def upIndex (s t d k : Nat) : Nat := min ((s * 65536 + k * d) / 65536) t

/-- The gain index after `k` steps of a down ramp from `s` to `t`; the subtraction stops at 0. -/
def downIndex (s t d k : Nat) : Nat := max ((s * 65536 - k * d) / 65536) t

theorem upIndex_zero (h : s ≤ t) : upIndex s t d 0 = s := by
  unfold upIndex
  omega

theorem downIndex_zero (h : t ≤ s) : downIndex s t d 0 = s := by
  unfold downIndex
  omega

theorem upIndex_le (s t d k : Nat) : upIndex s t d k ≤ t := Nat.min_le_right _ _

theorem downIndex_ge (s t d k : Nat) : t ≤ downIndex s t d k := Nat.le_max_right _ _

theorem downIndex_le (h : t ≤ s) (d k : Nat) : downIndex s t d k ≤ s := by
  unfold downIndex
  omega

/-- An up ramp is below its target while its steps do not span the distance. -/
theorem upIndex_lt_iff (h : s ≤ t) : upIndex s t d k < t ↔ k * d < (t - s) * 65536 := by
  unfold upIndex
  omega

/-- A down ramp is above its target until its steps eat into the last index of the distance: the integer part drops as
soon as anything is subtracted. -/
theorem lt_downIndex_iff (h : t < s) : t < downIndex s t d k ↔ k * d ≤ (s - t - 1) * 65536 := by
  unfold downIndex
  omega

theorem lt_ceil_div_iff {n : Nat} (hd : 0 < d) : k < (n + (d - 1)) / d ↔ k * d < n := by
  rw [Nat.lt_iff_add_one_le, Nat.le_div_iff_mul_le hd, Nat.succ_mul]
  omega

theorem lt_div_add_one_iff {n : Nat} (hd : 0 < d) : k < n / d + 1 ↔ k * d ≤ n := by
  rw [Nat.lt_add_one_iff, Nat.le_div_iff_mul_le hd]

end ClosedForms

/-! ### The obligations on the fader -/

/-- Settles O37: the three cases are those of `faderStart`, its clamp read as a maximum. -/
theorem fadeEntersTheFadeItNames : Obligations.FadeEntersTheFadeItNames := by
  rintro s v x db ticks soc dur t hs hdur rfl
  rw [← clampTicks_eq_max] at hdur
  subst hdur
  rw [exec_fade_serves hs]
  refine ⟨fun h => ?short, fun h ht => ?same, fun h ht => ?ramp⟩
  case short => rw [faderStart_short h]
  case same => rw [faderStart_same (Nat.not_lt.2 h) ht]
  case ramp => rw [faderStart_ramp (Nat.not_lt.2 h) ht, ofInt_rampDelta]

/-- Settles O38. -/
theorem fstopForcesIdle : Obligations.FstopForcesIdle := fun _ _ _ hs => exec_fstop_serves hs

/-- Settles O39: the six cases are the equations of `faderService`. -/
theorem fsvcServicesOneQuantum : Obligations.FsvcServicesOneQuantum := by
  intro s v x hs
  refine ⟨fun ha => ?idle, fun ha hm hc => ?first, fun ha hm hc => ?second, fun ha hm ht => ?reached, ?up, ?down⟩
  case idle => exact exec_fsvc_serves hs (faderService_idle ha)
  case first => exact exec_fsvc_serves hs (faderService_short ha hm hc)
  case second => exact exec_fsvc_serves hs (faderService_short_completed ha hm hc)
  case reached => exact exec_fsvc_serves hs (faderService_reached ha hm ht)
  case up =>
    rintro ha hm hu ht a rfl
    exact exec_fsvc_serves hs (faderService_up ha hm hu ht)
  case down =>
    rintro ha hm hu ht a rfl
    exact exec_fsvc_serves hs (faderService_down ha hm hu ht)

/-- Settles O40: the bounds hold of the quotient, and each value fits its register. -/
theorem fadeRampDeltaBounds : Obligations.FadeRampDeltaBounds := by
  intro c x db ticks soc hc hg h3 h16 hne
  have hn := config_n_bounds hc
  have hdur : clampTicks ticks = ticks := by rw [clampTicks_eq_max]; omega
  obtain ⟨hd1, hd2000⟩ := fadeDistance_bounds hc (dbToIndex_lt c db hc) hg hne
  obtain ⟨hlo, hhi⟩ := rampDelta_bounds hd1 h3 h16
  rw [faderStart_ramp (by omega) hne, hdur]
  refine ⟨?_, ?_, ?_, ofNat_dbToIndex_toNat hc db⟩
  · rwa [toNat_ofNat_of_lt (by omega)]
  · exact Nat.le_trans (toNat_ofNat_le 32 _) hhi
  · exact toNat_ofNat_of_lt (by omega)

/-- Settles O41: the mode the start records is not 0, so both services are those of a short fade. -/
theorem shortFadesTakeTwoServices : Obligations.ShortFadesTakeTwoServices := by
  intro c x y z r r' db ticks soc hc h3 hy hz
  have hlt : clampTicks ticks < 3 := by rw [clampTicks_eq_max]; omega
  have hm := (shortFadeMode_ofNat (clampTicks_pos ticks) hlt).1
  rw [faderStart_short hlt, faderService_short rfl hm rfl] at hy
  obtain ⟨rfl, rfl⟩ := Prod.mk.inj hy
  rw [faderService_short_completed rfl hm rfl] at hz
  obtain ⟨rfl, rfl⟩ := Prod.mk.inj hz
  exact ⟨ofNat_dbToIndex_toNat hc db, rfl, rfl, rfl, rfl, rfl⟩

/-- Settles O42: the index is below the target for exactly `kUp` calls, and until then the accumulator does not
saturate. -/
theorem upRampsConverge : Obligations.UpRampsConverge := by
  rintro x s t d kUp ha hm hu rfl rfl rfl hacc hst ht hd hle hK
  have hlt : ∀ k, k < kUp → k * x.rampDelta.toNat < (x.target.toNat - x.gainIdx.toNat) * 65536 := fun k hk =>
    (lt_ceil_div_iff hd).1 (hK ▸ hk)
  have hbelow : ∀ k, k < kUp → upIndex x.gainIdx.toNat x.target.toNat x.rampDelta.toNat k < x.target.toNat :=
    fun k hk => (upIndex_lt_iff hst.le).2 (hlt k hk)
  have hat : upIndex x.gainIdx.toNat x.target.toNat x.rampDelta.toNat kUp = x.target.toNat :=
    (upIndex_le _ _ _ _).antisymm <| Nat.not_lt.1 fun h =>
      hK.not_lt ((lt_ceil_div_iff hd).2 ((upIndex_lt_iff hst.le).1 h))
  obtain ⟨hidx, hfalse, hsoc, hidle, hend⟩ := ramp_converges ha hm (K := kUp)
    (acc := fun k => x.gainIdx.toNat * 65536 + k * x.rampDelta.toNat)
    (g := upIndex x.gainIdx.toNat x.target.toNat x.rampDelta.toNat)
    (by rw [upIndex_zero hst.le, Nat.zero_mul, Nat.add_zero, ← hacc, rampAt_self])
    (fun k hk => by
      have hk' := hlt k hk
      rw [faderService_rampAt_up ha hm hu (by omega) (hbelow k hk), upIndex, Nat.succ_mul, Nat.add_assoc])
    (fun k _ => (upIndex_le _ _ _ k).trans_lt x.target.isLt) hat
  exact ⟨fun k _ hk => hidx k hk, fun k hk => ⟨(hidx k hk.le).trans_lt (hbelow k hk), hfalse k hk⟩,
    (hidx kUp (Nat.le_refl _)).trans hat, hsoc, hidle, hend⟩

/-- Settles O43: the index is above the target for exactly `kDown` calls. -/
theorem downRampsConverge : Obligations.DownRampsConverge := by
  rintro x s t d kDown ha hm hu rfl rfl rfl hacc hts hd hK
  have hs16 := x.gainIdx.isLt
  have habove : ∀ k, k < kDown → x.target.toNat < downIndex x.gainIdx.toNat x.target.toNat x.rampDelta.toNat k :=
    fun k hk => (lt_downIndex_iff hts).2 ((lt_div_add_one_iff hd).1 (hK ▸ hk))
  have hat : downIndex x.gainIdx.toNat x.target.toNat x.rampDelta.toNat kDown = x.target.toNat :=
    (Nat.not_lt.1 fun h => hK.not_lt ((lt_div_add_one_iff hd).2 ((lt_downIndex_iff hts).1 h))).antisymm
      (downIndex_ge _ _ _ _)
  have hfit : ∀ k, downIndex x.gainIdx.toNat x.target.toNat x.rampDelta.toNat k < 2 ^ 16 := fun k =>
    (downIndex_le hts.le _ k).trans_lt hs16
  obtain ⟨hidx, hfalse, hsoc, hidle, hend⟩ := ramp_converges ha hm (K := kDown)
    (acc := fun k => x.gainIdx.toNat * 65536 - k * x.rampDelta.toNat)
    (g := downIndex x.gainIdx.toNat x.target.toNat x.rampDelta.toNat)
    (by rw [downIndex_zero hts.le, Nat.zero_mul, Nat.sub_zero, ← hacc, rampAt_self])
    (fun k hk => by
      rw [faderService_rampAt_down ha hm hu (by omega) (hfit k) (habove k hk), downIndex, Nat.succ_mul, Nat.sub_sub])
    (fun k _ => hfit k) hat
  exact ⟨fun k _ hk => hidx k hk, fun k hk => ⟨(habove k hk).trans_eq (hidx k hk.le).symm, hfalse k hk⟩,
    (hidx kDown (Nat.le_refl _)).trans hat, hsoc, hidle, hend⟩

end Sys2Proof.Machine
end

section
/-! PROOFS (43_voice_pipeline.md). The compressed stream of a voice: `INGEST` appends a block to the unread bytes and
`FETCH` takes from their front, and the two byte counters follow them up to the track size (R183, R186, R187); what
the operations that change the pipeline do to a voice that is served. -/
namespace Sys2Proof.Machine

/-! ### The byte counters -/

section Counters
variable {n size : BitVec 32} {k : Nat}

/-- A counter that advances by no more than is left of the track does not wrap. -/
theorem toNat_add_ofNat_of_le_rest (hk : k ≤ size.toNat - n.toNat) : (n + BitVec.ofNat 32 k).toNat = n.toNat + k := by
  have hn := n.isLt
  have hsize := size.isLt
  rw [BitVec.toNat_add, BitVec.toNat_ofNat]
  omega

theorem add_ofNat_eq_iff_of_le_rest (hk : k ≤ size.toNat - n.toNat) :
    n + BitVec.ofNat 32 k = size ↔ n.toNat + k = size.toNat := by
  rw [← BitVec.toNat_inj, toNat_add_ofNat_of_le_rest hk]

theorem add_ofNat_eq_ofNat (n : BitVec 32) (k : Nat) : n + BitVec.ofNat 32 k = BitVec.ofNat 32 (n.toNat + k) := by
  rw [BitVec.ofNat_add, BitVec.ofNat_toNat, BitVec.setWidth_eq]

end Counters

section Stream
variable {c : Config} {x y : Voice}

theorem validBytes_le_unread (c : Config) (x : Voice) : x.validBytes c ≤ x.trackSize.toNat - x.bytesRead.toNat :=
  Nat.min_le_right _ _

theorem fetchCount_le_undelivered (c : Config) (x : Voice) (requested : Nat) :
    fetchCount c x requested ≤ x.trackSize.toNat - x.bytesDeliv.toNat :=
  Nat.le_trans (Nat.min_le_right _ _) (Nat.min_le_left _ _)

theorem fetchCount_le_used (c : Config) (x : Voice) (requested : Nat) :
    fetchCount c x requested ≤ (x.compRing c).used :=
  Nat.le_trans (Nat.min_le_right _ _) (Nat.min_le_right _ _)

/-- The read of a `FETCH` is never short: its count is within the used space (R186). -/
theorem readCount_fetchCount (c : Config) (x : Voice) (requested : Nat) :
    (x.compRing c).readCount (fetchCount c x requested) = fetchCount c x requested :=
  ring_readCount_of_le _ _ (fetchCount_le_used c x requested)

/-! ### What `INGEST` and `FETCH` do to a voice, written out -/

/-- Every register `INGEST` writes, its counter as a number (R183). -/
theorem ingestBlock_eq (c : Config) (x : Voice) (block : List Byte) :
    ingestBlock c x block =
      { x with
        comp := writeCells c.cComp x.comp x.compWr.toNat block
        compWr := BitVec.ofNat 32 ((x.compWr.toNat + block.length) % c.cComp)
        bytesRead := BitVec.ofNat 32 (x.bytesRead.toNat + x.validBytes c)
        flags := { x.flags with
          endOfFile := x.flags.endOfFile || decide (x.bytesRead.toNat + x.validBytes c = x.trackSize.toNat) } } := by
  rw [ingestBlock, setCompRing_write]
  simp only [add_ofNat_eq_iff_of_le_rest (validBytes_le_unread c x)]
  rw [add_ofNat_eq_ofNat]

/-- Every register `FETCH` writes, its counter as a number (R186). -/
theorem fetchBytes_eq (c : Config) (x : Voice) (requested : Nat) :
    fetchBytes c x (fetchCount c x requested) =
      { x with
        compRd := BitVec.ofNat 32 ((x.compRd.toNat + fetchCount c x requested) % c.cComp)
        bytesDeliv := BitVec.ofNat 32 (x.bytesDeliv.toNat + fetchCount c x requested) } := by
  rw [fetchBytes, setCompRing_afterRead, readCount_fetchCount, add_ofNat_eq_ofNat]

/-- The `FETCH` value as the statement spells it: bit 31 says that the track is exhausted (R186). -/
theorem fetchValue_fetchBytes (c : Config) (x : Voice) (requested : Nat) :
    fetchValue (fetchBytes c x (fetchCount c x requested)).exhausted (fetchCount c x requested) =
      if x.bytesDeliv.toNat + fetchCount c x requested = x.trackSize.toNat
      then 0x80000000 ||| BitVec.ofNat 32 (fetchCount c x requested)
      else BitVec.ofNat 32 (fetchCount c x requested) := by
  have hexhausted := add_ofNat_eq_iff_of_le_rest (fetchCount_le_undelivered c x requested)
  simp only [fetchValue, Voice.exhausted, fetchBytes_bytesDeliv, fetchBytes_trackSize, hexhausted]
  split <;> simp [*, boolValue]

/-! ### The compressed ring of a voice in a stream -/

/-- A sound ring of the capacity of the compressed buffer is what its registers and memory give back. -/
theorem compRing_setCompRing (hc : c.wf = true) {b : RingBuffer 8} (hb : b.Sound) (hcap : b.cap = c.cComp) :
    (x.setCompRing b).compRing c = b := by
  obtain ⟨-, -, -, -, -, ⟨-, hmax⟩, -⟩ := config_wf_ranges hc
  have ⟨_, hrd, hwr⟩ := hb
  simp only [Voice.compRing, Voice.setCompRing]
  rw [toNat_ofNat_of_lt (by omega), toNat_ofNat_of_lt (by omega), ← hcap]

/-- `INGEST` writes its block to the compressed ring (R182). -/
theorem compRing_ingestBlock (hc : c.wf = true) (hb : (x.compRing c).Sound) (block : List Byte) :
    (ingestBlock c x block).compRing c = (x.compRing c).write block :=
  compRing_setCompRing (x := x) hc (hb.write block) rfl

/-- `FETCH` reads its bytes from the compressed ring (R186). -/
theorem compRing_fetchBytes (hc : c.wf = true) (hb : (x.compRing c).Sound) (k : Nat) :
    (fetchBytes c x k).compRing c = (x.compRing c).afterRead k :=
  compRing_setCompRing (x := x) hc (hb.afterRead k) rfl

/-- A voice within its stream: the compressed ring is sound, and `bytesRead` counts the bytes delivered and those
waiting in the ring, up to the track size; the last block may hold more (R182, R183). -/
structure Voice.InStream (c : Config) (x : Voice) : Prop where
  ring : (x.compRing c).Sound
  read : x.bytesRead.toNat = min x.trackSize.toNat (x.bytesDeliv.toNat + (x.compRing c).used)

/-- `INGEST` before end of file counts all the bytes it writes, as long as the track has so many left. -/
theorem Voice.InStream.ingestBlock (hx : x.InStream c) (hc : c.wf = true) {block : List Byte}
    (hlen : block.length = c.blockBytes) (hfree : block.length < (x.compRing c).free) :
    (ingestBlock c x block).InStream c := by
  obtain ⟨hring, hread⟩ := hx
  have hcomp := compRing_ingestBlock hc hring block
  refine ⟨hcomp ▸ hring.write block, ?_⟩
  rw [ingestBlock_bytesRead, toNat_add_ofNat_of_le_rest (validBytes_le_unread c x), hcomp, ring_write_used hring hfree,
    ingestBlock_trackSize, ingestBlock_bytesDeliv, Voice.validBytes, Voice.unread]
  omega

/-- `FETCH` moves bytes from those waiting to those delivered. -/
theorem Voice.InStream.fetchBytes (hx : x.InStream c) (hc : c.wf = true) (requested : Nat) :
    (fetchBytes c x (fetchCount c x requested)).InStream c := by
  obtain ⟨hring, hread⟩ := hx
  have hcomp := compRing_fetchBytes hc hring (fetchCount c x requested)
  refine ⟨hcomp ▸ hring.afterRead _, ?_⟩
  have hused := fetchCount_le_used c x requested
  rw [fetchBytes_bytesDeliv, toNat_add_ofNat_of_le_rest (fetchCount_le_undelivered c x requested), hcomp,
    ring_afterRead_used _ _ hring.wr hring.rd, readCount_fetchCount, fetchBytes_trackSize, fetchBytes_bytesRead, hread,
    Nat.add_assoc, Nat.add_sub_of_le hused]

/-! ### Sequences of uses of the stream -/

/-- What a sequence of uses that begins with a block can be: the block is not taken after end of file, and is
written whole before. -/
theorem runStream_ingest_some {block : List Byte} {rest : List StreamUse} {stored delivered : List Byte}
    (h : runStream c (.ingest block :: rest) x = some (y, stored, delivered)) :
    runStream c rest x = some (y, stored, delivered) ∨
    (x.unread ≠ 0 ∧ block.length = c.blockBytes ∧ block.length < (x.compRing c).free ∧
      ∃ later, runStream c rest (ingestBlock c x block) = some (y, later, delivered) ∧ stored = block ++ later) := by
  rw [runStream] at h
  split at h
  · exact .inl h
  · split at h
    · rename_i hu hspace
      obtain ⟨hlen, hfree⟩ := hspace
      obtain ⟨⟨_, later, _⟩, hrest, e⟩ := Option.map_eq_some_iff.1 h
      obtain ⟨rfl, rfl, rfl⟩ := e
      exact .inr ⟨hu, hlen, hfree, later, hrest, rfl⟩
    · exact nomatch h

/-- What a sequence of uses that begins with a request can be. -/
theorem runStream_fetch_some {requested : Nat} {rest : List StreamUse} {stored delivered : List Byte}
    (h : runStream c (.fetch requested :: rest) x = some (y, stored, delivered)) :
    ∃ later, runStream c rest (fetchBytes c x (fetchCount c x requested)) = some (y, stored, later) ∧
      delivered = (x.compRing c).readCells (fetchCount c x requested) ++ later := by
  rw [runStream] at h
  obtain ⟨⟨_, _, later⟩, hrest, e⟩ := Option.map_eq_some_iff.1 h
  obtain ⟨rfl, rfl, rfl⟩ := e
  exact ⟨later, hrest, rfl⟩

/-- The law of R187 from any voice within its stream: the bytes waiting at first and then those stored are the bytes
delivered and then those still waiting, in the same order, and `bytesDeliv` counts the bytes delivered. -/
theorem runStream_unread {uses : List StreamUse} {stored delivered : List Byte} (hc : c.wf = true)
    (hx : x.InStream c) (h : runStream c uses x = some (y, stored, delivered)) :
    y.InStream c ∧ y.trackSize = x.trackSize ∧ y.bytesDeliv.toNat = x.bytesDeliv.toNat + delivered.length ∧
    (x.compRing c).unread ++ stored = delivered ++ (y.compRing c).unread := by
  induction uses generalizing x stored delivered with
  | nil =>
    obtain ⟨rfl, rfl, rfl⟩ : x = y ∧ [] = stored ∧ [] = delivered := by simpa [runStream] using h
    exact ⟨hx, rfl, rfl, by simp⟩
  | cons use rest ih =>
    cases use with
    | ingest block =>
      rcases runStream_ingest_some h with hrest | ⟨-, hlen, hfree, later, hrest, rfl⟩
      · exact ih hx hrest
      · obtain ⟨hy, hsize, hdeliv, e⟩ := ih (hx.ingestBlock hc hlen hfree) hrest
        rw [compRing_ingestBlock hc hx.ring, ring_write_unread hx.ring hfree, List.append_assoc] at e
        exact ⟨hy, hsize, hdeliv, e⟩
    | fetch requested =>
      obtain ⟨later, hrest, rfl⟩ := runStream_fetch_some h
      obtain ⟨hy, hsize, hdeliv, e⟩ := ih (hx.fetchBytes hc requested) hrest
      rw [compRing_fetchBytes hc hx.ring] at e
      rw [fetchBytes_bytesDeliv, toNat_add_ofNat_of_le_rest (fetchCount_le_undelivered c x requested)] at hdeliv
      refine ⟨hy, hsize, ?_, ?_⟩
      · rw [hdeliv, List.length_append, ring_readCells_length, readCount_fetchCount, Nat.add_assoc]
      · rw [← ring_readCells_append_unread hx.ring, List.append_assoc, e, List.append_assoc]

/-- Once the whole track is read from storage, what is left of it waits in the ring, so the used space caps no
request (R187). -/
theorem Voice.InStream.fetchCount_of_all_read (hx : x.InStream c) (h : x.bytesRead = x.trackSize) (requested : Nat) :
    fetchCount c x requested = min requested (x.trackSize.toNat - x.bytesDeliv.toNat) := by
  have hread := hx.read
  rw [h] at hread
  have hused : x.undelivered ≤ (x.compRing c).used := by
    rw [Voice.undelivered]
    omega
  rw [fetchCount, Nat.min_eq_left hused, Voice.undelivered]

end Stream

/-! ### The operations on a voice that is served -/

section Served
variable {s : State} {v : BitVec 8} {x : Voice}

theorem exec_ingest_all_read (h : s.Serves v x) (hu : x.unread = 0) (block : List Byte) :
    exec (.ingest v block) s = .next (s.answered .ok 0 []) :=
  (onHandle_serves h _).trans (if_pos hu)

theorem exec_fetch_serves (h : s.Serves v x) (requested : BitVec 32) {k : Nat}
    (hk : k = fetchCount s.cfg x requested.toNat) :
    exec (.fetch v requested) s = .next (s.updated v (fetchBytes s.cfg x k) .ok
      (fetchValue (fetchBytes s.cfg x k).exhausted k) (((x.compRing s.cfg).readCells k).map byteBeat)) := by
  subst hk
  exact onHandle_serves h _

theorem exec_decerr_serves (h : s.Serves v x) :
    exec (.decerr v) s = .next (s.updated v (streamFailed x) .streamError 0 []) :=
  onHandle_serves h _

/-- `PUSH` is the ring write of its frames (R189). -/
theorem exec_push_eq_rbwrite (h : s.Serves v x) (frames : List Frame) :
    exec (.push v frames) s = exec (.rbwrite v (.pcm frames)) s :=
  (exec_push_serves h frames).trans (exec_rbwrite_serves h (.pcm frames)).symm

end Served

/-! ### The obligations -/

/-- Settles O44: after end of file nothing is left to read, and before it the block is written as any ring write. -/
theorem ingestWritesTheBlock : Obligations.IngestWritesTheBlock := by
  intro s v x block valid hc hm hv hlen
  refine ⟨fun hend => exec_ingest_all_read hv (by rw [Voice.unread, hend, Nat.sub_self]) block,
    fun hlt hspace hvalid => ?_⟩
  have ⟨_, _, hx, _⟩ := hv
  have ⟨hvoices, _⟩ := hm
  obtain ⟨⟨hcomp, -⟩, -⟩ := hvoices x (List.mem_of_getElem? hx)
  have hu : x.unread ≠ 0 := Nat.sub_ne_zero_of_lt hlt
  have hfree : block.length < (x.compRing s.cfg).free := by
    rwa [← compRing_free_int hc, ← hlen, Int.ofNat_lt] at hspace
  have hcap : block.length ≤ s.cfg.cComp := Nat.le_trans (Nat.le_of_lt hfree) (ring_free_le_cap _)
  obtain rfl : valid = x.validBytes s.cfg := hvalid
  refine ⟨_, writeCells_storedAt s.cfg.cComp x.comp x.compWr.toNat block hcomp hcap, ?_⟩
  rw [exec_ingest_serves hv hu, withSpace_of_lt_free hfree, ingestBlock_eq, hlen]

/-- Settles O45: the count of the integer formula is the count of the model, and no read of that count is short. -/
theorem fetchDeliversTheOldestBytes : Obligations.FetchDeliversTheOldestBytes := by
  intro s v x requested k hc hv hdeliv hk
  obtain rfl : k = fetchCount s.cfg x requested.toNat := by
    rw [← compRing_used_int hc] at hk
    rw [fetchCount, Voice.undelivered]
    omega
  rw [exec_fetch_serves hv requested rfl, fetchValue_fetchBytes, fetchBytes_eq, RingBuffer.readCells,
    readCount_fetchCount, RingBuffer.peek, List.map_map]
  rfl

/-- Settles O46, by the ring write of `RBWRITE`. -/
theorem pushStoresTheFrames : Obligations.PushStoresTheFrames := by
  intro s v x frames hc hm hv hspace
  rw [exec_push_eq_rbwrite hv]
  exact (rbwriteStoresTheCells s v x hc hm hv).2 frames hspace

/-- Settles O47: the slot after a stream error keeps no register of the old one. -/
theorem decerrFinalizesTheVoice : Obligations.DecerrFinalizesTheVoice := fun _ _ _ hv => exec_decerr_serves hv

/-- Settles O48: from an empty ring the bytes stored are those delivered and then those still waiting. -/
theorem deliveredBytesAreTheTrack : Obligations.DeliveredBytesAreTheTrack := by
  intro c x y uses stored delivered hc hmem hempty hrd hread0 hdeliv0 h
  have hused : (x.compRing c).used = 0 := ring_used_of_wr_eq_rd (congrArg BitVec.toNat hempty)
  have hwr : x.compWr.toNat < c.cComp := hempty ▸ hrd
  have hstart : x.InStream c := ⟨⟨hmem, hrd, hwr⟩, by simp [hread0, hdeliv0, hused]⟩
  obtain ⟨hy, hsize, hdeliv, e⟩ := runStream_unread hc hstart h
  have hnone : (x.compRing c).unread = [] := List.eq_nil_of_length_eq_zero (by simp [hused])
  obtain rfl : stored = delivered ++ (y.compRing c).unread := by simpa [hnone] using e
  have hcount : y.bytesDeliv.toNat = delivered.length := by simpa [hdeliv0] using hdeliv
  rw [← hsize]
  refine ⟨hcount, List.prefix_append _ _, fun hall => ⟨?_, ?_⟩, fun hall => hy.fetchCount_of_all_read hall⟩
  · rw [← hall, hcount, List.take_left]
  · refine BitVec.eq_of_toNat_eq (hy.read.trans ?_)
    rw [hall]
    exact Nat.min_eq_left (Nat.le_add_right _ _)

end Sys2Proof.Machine
end

section
/-! PROOFS (44_mixer.md). The arithmetic of the gain stage (R212 to R214); the two channels of a frame as one (R216);
what a voice can come to in a quantum, one case per way, each with what it adds to the run; and a quantum as the
chain of its voices (R206, R217, R218). -/
namespace Sys2Proof.Machine

/-! ### The gain ramp -/

section Ramp
variable {g0 g1 len k : Nat}

theorem frameGain_ramp (h : k < len) : frameGain g0 g1 len k = g0 + ((g1 : Int) - g0) * (k + 1) / len := if_pos h

theorem frameGain_after (h : len ≤ k) : frameGain g0 g1 len k = g1 := if_neg (Nat.not_lt.2 h)

/-- The last frame of the ramp has the end amplitude (R212). -/
theorem frameGain_last (h : 0 < len) : frameGain g0 g1 len (len - 1) = g1 := by
  have hlast : (((len - 1 : Nat) : Int) + 1) = len := by omega
  rw [frameGain_ramp (by omega), hlast, Int.mul_ediv_cancel _ (by omega)]
  omega

/-- A ramp frame has moved by a fraction of the difference, at most the whole of it (R212). -/
theorem frameGain_bounds (h : 0 < len) :
    ((min g0 g1 : Nat) : Int) ≤ frameGain g0 g1 len k ∧ frameGain g0 g1 len k ≤ ((max g0 g1 : Nat) : Int) := by
  rcases Nat.lt_or_ge k len with hk | hk
  · have hlen : (0 : Int) < len := by omega
    have hfrac : ((k : Int) + 1) ≤ len := by omega
    rw [frameGain_ramp hk]
    rcases Nat.le_total g0 g1 with hg | hg
    · have h0 : 0 ≤ ((g1 : Int) - g0) * (k + 1) / len :=
        Int.ediv_nonneg (Int.mul_nonneg (by omega) (by omega)) hlen.le
      have h1 : ((g1 : Int) - g0) * (k + 1) / len ≤ g1 - g0 :=
        Int.ediv_le_of_le_mul hlen (Int.mul_le_mul_of_nonneg_left hfrac (by omega))
      omega
    · have h0 : ((g1 : Int) - g0) * (k + 1) / len ≤ 0 :=
        Int.ediv_le_of_le_mul hlen (by
          rw [Int.zero_mul]
          exact Int.mul_nonpos_of_nonpos_of_nonneg (by omega) (by omega))
      have h1 : (g1 : Int) - g0 ≤ ((g1 : Int) - g0) * (k + 1) / len :=
        (Int.le_ediv_iff_mul_le hlen).2 (Int.mul_le_mul_of_nonpos_left (by omega) hfrac)
      omega
  · rw [frameGain_after hk]
    omega

/-- No ramp between equal amplitudes (R212). -/
theorem frameGain_flat (g len k : Nat) : frameGain g g len k = g := by
  unfold frameGain fdiv
  split <;> simp

/-- Settles O55: the two inequalities are those of the floor division. -/
theorem frameGainRampsBetweenTheEnds : Obligations.FrameGainRampsBetweenTheEnds := by
  intro g0 g1 len k hlen
  obtain ⟨hlo, hhi⟩ := frameGain_bounds (g0 := g0) (g1 := g1) (k := k) hlen
  refine ⟨fun hk => ?_, hlo, hhi, frameGain_last hlen, frameGain_after, ?_⟩
  · rw [frameGain_ramp hk, add_sub_cancel_left]
    exact ⟨Int.mul_ediv_self_le (by omega), Int.lt_mul_ediv_self_add (by omega)⟩
  · rintro rfl
    exact frameGain_flat g0 len k

end Ramp

/-! ### The ramp length -/

section RampLength
variable {c : Config} {f : FaderCtl}

theorem rampLength_short (ha : f.active = true) (hm : f.shortFadeMode ≠ 0) (hc : f.shortFadeCompleted = true) :
    rampLength c f = c.q * f.shortFadeMode.toNat / 3 :=
  if_pos (by simp only [FaderCtl.shortNow, ha, hc, decide_eq_true hm, Bool.and_self])

theorem rampLength_whole (h : f.active = false ∨ f.shortFadeCompleted = false ∨ f.shortFadeMode = 0) :
    rampLength c f = c.q := by
  rcases h with h | h | h <;> simp [rampLength, FaderCtl.shortNow, h]

/-- At least a third of a quantum of at least three frames, at most three thirds (R213). -/
theorem rampLength_bounds (hc : c.wf = true) (f : FaderCtl) : 1 ≤ rampLength c f ∧ rampLength c f ≤ c.q := by
  obtain ⟨-, ⟨hq, -⟩, -⟩ := config_wf_ranges hc
  unfold rampLength
  split
  · rename_i h
    have hm : f.shortFadeMode ≠ 0 := by
      simp only [FaderCtl.shortNow, Bool.and_eq_true, decide_eq_true_eq] at h
      obtain ⟨⟨-, hm⟩, -⟩ := h
      exact hm
    have hpos : 1 ≤ f.shortFadeMode.toNat := Nat.pos_of_ne_zero fun h => hm (BitVec.eq_of_toNat_eq h)
    have hmode : f.shortFadeMode.toNat ≤ 3 := Nat.le_of_lt_succ f.shortFadeMode.isLt
    have hlo : c.q * 1 ≤ c.q * f.shortFadeMode.toNat := Nat.mul_le_mul_left _ hpos
    have hhi : c.q * f.shortFadeMode.toNat ≤ c.q * 3 := Nat.mul_le_mul_left _ hmode
    omega
  · omega

/-- Settles O56. -/
theorem rampLengthOfTheQuantum : Obligations.RampLengthOfTheQuantum := by
  intro c f hc
  obtain ⟨hlo, hhi⟩ := rampLength_bounds hc f
  refine ⟨hlo, hhi, fun ha hd hm => ?_, fun ha hd hm => ?_, rampLength_whole⟩
  · rw [rampLength_short ha (by simp [hm]) hd, hm]
    exact congrArg (· / 3) (Nat.mul_one c.q)
  · rw [rampLength_short ha (by simp [hm]) hd, hm]
    exact congrArg (· / 3) (Nat.mul_comm c.q 2)

end RampLength

/-! ### The gain multiplier -/

section Multiplier

@[simp] theorem scaleSample_zero_gain (a : Int) : scaleSample a 0 = 0 := by simp [scaleSample, fdiv]

@[simp] theorem scaleSample_zero (g : Int) : scaleSample 0 g = 0 := by simp [scaleSample, fdiv]

theorem scaleSample_unity (a : Int) : scaleSample a unity = a := Int.mul_ediv_cancel a (by decide)

/-- A product of a sample and a gain at most unity is a sample again, floored (R214, R219). -/
theorem scaleSample_bounds {a g : Int} (ha : -32768 ≤ a ∧ a ≤ 32767) (hg : 0 ≤ g ∧ g ≤ 65536) :
    -32768 ≤ scaleSample a g ∧ scaleSample a g ≤ 32767 := by
  have hlo : -32768 * g ≤ a * g := Int.mul_le_mul_of_nonneg_right ha.1 hg.1
  have hhi : a * g ≤ 32767 * g := Int.mul_le_mul_of_nonneg_right ha.2 hg.1
  unfold scaleSample fdiv
  omega

/-- Settles O57. -/
theorem gainMultiplierFitsASample : Obligations.GainMultiplierFitsASample := by
  intro a g ha ha' hg hg'
  obtain ⟨hlo, hhi⟩ := scaleSample_bounds ⟨ha, ha'⟩ ⟨hg, hg'⟩
  exact ⟨hlo, hhi, scaleSample_unity a, scaleSample_zero_gain a, Int.mul_ediv_self_le (by decide),
    Int.lt_mul_ediv_self_add (by decide)⟩

end Multiplier

/-! ### The two channels of a frame -/

/-- A channel of a frame (R61). Both are mixed alike (R216), so what holds of a sample is said once for both. -/
inductive Lane where
  | left
  | right

/-- The sample of a frame on a channel. -/
def Lane.sample : Lane → Frame → Int
  | .left => frameLeft
  | .right => frameRight

section Lanes
variable (l : Lane)

@[simp] theorem Lane.sample_zero : l.sample 0 = 0 := by cases l <;> decide

theorem Lane.sample_bounds (f : Frame) : -32768 ≤ l.sample f ∧ l.sample f ≤ 32767 := by
  have h16 : ∀ x : BitVec 16, -32768 ≤ x.toInt ∧ x.toInt ≤ 32767 := fun x => by
    have hlo := BitVec.le_toInt x
    have hhi := BitVec.toInt_lt (x := x)
    omega
  cases l with
  | left => exact h16 _
  | right => exact h16 _

/-- A frame is its two samples. -/
theorem frame_ext {f g : Frame} (h : ∀ l : Lane, l.sample f = l.sample g) : f = g := by
  rw [← append_halves (m := 16) (n := 16) f, ← append_halves (m := 16) (n := 16) g, append_inj_iff]
  exact ⟨BitVec.eq_of_toInt_eq (h .right), BitVec.eq_of_toInt_eq (h .left)⟩

theorem Lane.sample_mixFrame (g : Int) (f a : Frame) :
    l.sample (mixFrame g f a) = sat16 (l.sample a + scaleSample (l.sample f) g) := by
  cases l with
  | left => exact mixFrame_left g f a
  | right => exact mixFrame_right g f a

/-- The clamp changes no sample. -/
theorem sat16_of_bounds {x : Int} (h : -32768 ≤ x ∧ x ≤ 32767) : sat16 x = x := by
  unfold sat16
  omega

/-- A frame scaled to silence leaves the accumulator cell as it is (R224). -/
theorem mixFrame_silent {g : Int} {f : Frame} (h : ∀ l : Lane, scaleSample (l.sample f) g = 0) (a : Frame) :
    mixFrame g f a = a :=
  frame_ext fun l => by
    rw [l.sample_mixFrame, h l, Int.add_zero, sat16_of_bounds (l.sample_bounds a)]

/-- A frame mixed into a cleared cell is the scaled frame: it fits with no saturation (R214). -/
theorem Lane.sample_mixFrame_cleared {g : Int} (hg : 0 ≤ g ∧ g ≤ 65536) (f : Frame) :
    l.sample (mixFrame g f 0) = scaleSample (l.sample f) g := by
  rw [l.sample_mixFrame, l.sample_zero, Int.zero_add, sat16_of_bounds (scaleSample_bounds (l.sample_bounds f) hg)]

end Lanes

/-! ### What a voice comes to in a quantum -/

section Fates
variable {c : Config} {x y z : Voice} {lin : Nat} {f : MixRun → MixRun}

@[simp] theorem countedRun_mixed (c : Config) (x : Voice) (r : MixRun) : (countedRun c x r).mixed = r.mixed := by
  unfold countedRun; split <;> rfl
@[simp] theorem countedRun_fin (c : Config) (x : Voice) (r : MixRun) : (countedRun c x r).fin = r.fin := by
  unfold countedRun; split <;> rfl

/-- A voice counts as short where fewer than Q frames are in use (R207). -/
theorem countedRun_short (hc : c.wf = true) (x : Voice) (r : MixRun) :
    (countedRun c x r).short = r.short + if usedPcm c x < c.q then 1 else 0 := by
  have hshort : mixAvail c x < c.q ↔ usedPcm c x < c.q := by
    rw [usedPcm_eq_used hc, mixAvail]
    omega
  rw [countedRun, ← if_congr hshort rfl rfl]
  split <;> rfl

/-- An immediate stop of a voice that is already silent (R208). -/
abbrev Voice.SilentStop (x : Voice) : Prop := x.flags.stopRequested = true ∧ x.gainIdx = 0

theorem silentStop_iff (x : Voice) : silentStop x = true ↔ x.SilentStop := by
  rw [silentStop, Bool.and_eq_true, decide_eq_true_eq]
  rfl

/-- The ways a slot can go through a quantum: the slot after it, and what becomes of the run whatever the run was. It
is skipped (R206); finalized in step 2 or 3 (R208, R209); mixed and finalized at the end of its stream (R221); or
mixed and drained (R210 to R220). -/
inductive MixFate (c : Config) (x : Voice) : Voice → (MixRun → MixRun) → Prop
  | skipped (hp : x.state ≠ .playing) : MixFate c x x id
  | finalized (hp : x.state = .playing) (hf : x.SilentStop ∨ (faderService (mutedSlot c x)).2 = true) :
      MixFate c x x.finalize (fun r => (countedRun c x r).countFinalized)
  | ended (z : Voice) (lin : Nat) (hp : x.state = .playing) (hs : ¬ x.SilentStop)
      (hz : faderService (mutedSlot c x) = (z, false)) (hl : indexToLinear c z.gainIdx.toNat = some lin)
      (he : x.AtEnd c) :
      MixFate c x x.finalize (fun r => (mixedRun c z (mixAvail c x) lin (countedRun c x r)).countFinalized)
  | drained (z : Voice) (lin : Nat) (hp : x.state = .playing) (hs : ¬ x.SilentStop)
      (hz : faderService (mutedSlot c x) = (z, false)) (hl : indexToLinear c z.gainIdx.toNat = some lin)
      (he : ¬ x.AtEnd c) :
      MixFate c x (drainedVoice c z (mixAvail c x) lin) (fun r => mixedRun c z (mixAvail c x) lin (countedRun c x r))

/-- A voice finalized in step 2 or 3 is not mixed. -/
theorem mixVoice_finalized (hp : x.state = .playing)
    (hf : x.SilentStop ∨ (faderService (mutedSlot c x)).2 = true) (r : MixRun) :
    mixVoice c x r = some (x.finalize, (countedRun c x r).countFinalized) := by
  rw [← silentStop_iff, mutedSlot_eq_hardMute] at hf
  rcases mixVoice_cases c x r with ⟨h, -⟩ | ⟨-, -, e⟩ | ⟨-, -, -, e⟩ | ⟨-, hs, hd, -⟩ | ⟨-, hs, hd, -⟩
  · exact absurd hp h
  · exact e
  · exact e
  all_goals simp [hs, hd] at hf

/-- A voice that passes steps 2 and 3 is mixed, and finalized after it at the end of its stream. -/
theorem mixVoice_mixed (hc : c.wf = true) (hp : x.state = .playing) (hs : ¬ x.SilentStop)
    (hz : faderService (mutedSlot c x) = (z, false)) (hl : indexToLinear c z.gainIdx.toNat = some lin) (r : MixRun) :
    mixVoice c x r =
      if x.AtEnd c then some (x.finalize, (mixedRun c z (mixAvail c x) lin (countedRun c x r)).countFinalized)
      else some (drainedVoice c z (mixAvail c x) lin, mixedRun c z (mixAvail c x) lin (countedRun c x r)) := by
  rw [← silentStop_iff] at hs
  rw [mutedSlot_eq_hardMute] at hz
  rcases mixVoice_cases c x r with ⟨h, -⟩ | ⟨-, h, -⟩ | ⟨-, -, h, -⟩ | ⟨-, -, -, h, -⟩ | ⟨-, -, -, lin', h, e⟩
  · exact absurd hp h
  · exact absurd h hs
  · simp [hz] at h
  · simp [hz, hl] at h
  · obtain rfl : lin = lin' := by simpa [hz, hl] using h
    rw [e, hz]
    exact if_congr (endOfStream_iff_atEnd hc x) rfl rfl

/-- A fate is what `mixVoice` does, to every run alike. -/
theorem MixFate.mixVoice_eq (h : MixFate c x y f) (hc : c.wf = true) (r : MixRun) :
    mixVoice c x r = some (y, f r) := by
  cases h with
  | skipped hp => exact if_neg hp
  | finalized hp hf => exact mixVoice_finalized hp hf r
  | ended z lin hp hs hz hl he => rw [mixVoice_mixed hc hp hs hz hl, if_pos he]
  | drained z lin hp hs hz hl he => rw [mixVoice_mixed hc hp hs hz hl, if_neg he]

/-- Steps 2 and 3 leave the gain index inside the table (R166). -/
theorem exists_lin_of_serviced (hc : c.wf = true) (hx : x.InRange c) {b : Bool}
    (hz : faderService (mutedSlot c x) = (z, b)) :
    ∃ lin, indexToLinear c z.gainIdx.toNat = some lin ∧ lin ≤ unity := by
  have hin := inRange_faderService (inRange_hardMute hx)
  rw [← mutedSlot_eq_hardMute, hz] at hin
  obtain ⟨-, -, ⟨hg, -, -⟩, -⟩ := hin
  exact indexToLinear_lt hc hg

/-- A mixed voice has a fate: ended or drained. -/
theorem exists_mixFate_mixed (hp : x.state = .playing) (hs : ¬ x.SilentStop)
    (hz : faderService (mutedSlot c x) = (z, false)) (hl : indexToLinear c z.gainIdx.toNat = some lin) :
    ∃ y f, MixFate c x y f := by
  by_cases he : x.AtEnd c
  · exact ⟨_, _, .ended z lin hp hs hz hl he⟩
  · exact ⟨_, _, .drained z lin hp hs hz hl he⟩

/-- A slot that the quantum completes has a fate. -/
theorem exists_mixFate_of_some {r : MixRun} {p : Voice × MixRun} (h : mixVoice c x r = some p) :
    ∃ y f, MixFate c x y f := by
  rcases mixVoice_cases c x r with ⟨hp, -⟩ | ⟨hp, hs, -⟩ | ⟨hp, -, hd, -⟩ | ⟨-, -, -, -, e⟩ | ⟨hp, hs, hd, lin, hl, -⟩
  · exact ⟨_, _, .skipped hp⟩
  · exact ⟨_, _, .finalized hp (.inl ((silentStop_iff x).1 hs))⟩
  · exact ⟨_, _, .finalized hp (.inr (by rwa [mutedSlot_eq_hardMute]))⟩
  · exact nomatch e.symm.trans h
  · have hs' : ¬ x.SilentStop := fun hss => by simp [(silentStop_iff x).2 hss] at hs
    exact exists_mixFate_mixed hp hs' (by rw [mutedSlot_eq_hardMute, ← hd]) hl

/-- Every slot with its registers in range has a fate. -/
theorem exists_mixFate (hc : c.wf = true) (hx : x.InRange c) : ∃ y f, MixFate c x y f := by
  by_cases hp : x.state = .playing
  · by_cases hf : x.SilentStop ∨ (faderService (mutedSlot c x)).2 = true
    · exact ⟨_, _, .finalized hp hf⟩
    · obtain ⟨hs, hd⟩ := not_or.1 hf
      have hz : faderService (mutedSlot c x) = ((faderService (mutedSlot c x)).1, false) :=
        Prod.ext rfl (Bool.eq_false_iff.2 hd)
      obtain ⟨lin, hl, -⟩ := exists_lin_of_serviced hc hx hz
      exact exists_mixFate_mixed hp hs hz hl
  · exact ⟨_, _, .skipped hp⟩

/-! ### What a mixed voice adds to the accumulator -/

/-- Steps 2 and 3 write the gain index, the fader control and the ramp accumulator only (R208, R209). -/
theorem serviced_eq {b : Bool} (hz : faderService (mutedSlot c x) = (z, b)) :
    z = { x with gainIdx := z.gainIdx, faderCtl := z.faderCtl, rampAcc := z.rampAcc } := by
  have h := serviced_frame c x
  rwa [← mutedSlot_eq_hardMute, hz] at h

theorem pcmRing_of_serviced {b : Bool} (hz : faderService (mutedSlot c x) = (z, b)) : z.pcmRing c = x.pcmRing c := by
  have h := serviced_pcmRing c x
  rwa [← mutedSlot_eq_hardMute, hz] at h

/-- Frame `k` of the accumulator after a voice is mixed (R212 to R217). -/
theorem mixedRun_acc_getElem? (hc : c.wf = true) {b : Bool} (hz : faderService (mutedSlot c x) = (z, b))
    {r : MixRun} (hr : r.acc.length = c.q) {k : Nat} {a : Frame} (ha : r.acc[k]? = some a) :
    (mixedRun c z (mixAvail c x) lin (countedRun c x r)).acc[k]? =
      some (mixFrame (frameGain x.gainLin.toNat lin (rampLength c z.faderCtl) k) (decodedFrame c x k) a) := by
  have hk : k < c.q := hr ▸ (List.getElem?_eq_some_iff.1 ha).1
  have hlin : z.gainLin = x.gainLin := by rw [serviced_eq hz]
  rw [mixedRun_acc, countedRun_acc, hlin,
    mixFrames_getElem? _ _ _ 0 _ _ k _ a (scratchFrames_getElem? hc (pcmRing_of_serviced hz) hk) ha, Nat.zero_add]

/-- The gains of a mixed voice lie between 0 and unity (R212). -/
theorem mixGain_bounds (hc : c.wf = true) (hx : x.InRange c) (hlin : lin ≤ unity) (k : Nat) (ctl : FaderCtl) :
    0 ≤ frameGain x.gainLin.toNat lin (rampLength c ctl) k ∧
      frameGain x.gainLin.toNat lin (rampLength c ctl) k ≤ 65536 := by
  obtain ⟨-, -, ⟨-, -, hg0⟩, -⟩ := hx
  obtain ⟨hlo, hhi⟩ := frameGain_bounds (g0 := x.gainLin.toNat) (g1 := lin) (k := k) (rampLength_bounds hc ctl).1
  unfold unity at hg0 hlin
  omega

theorem getElem?_cleared {k : Nat} (hk : k < c.q) : (List.replicate c.q (0 : Frame))[k]? = some 0 := by
  simp [hk]

end Fates

/-! ### A quantum as the chain of its voices -/

section Chain
variable {c : Config}

/-- The run a voice mixed alone starts from (R206). -/
def clearedRun (c : Config) : MixRun := ⟨List.replicate c.q 0, [], 0, 0, 0⟩

theorem mixAlone_eq (c : Config) (x : Voice) : mixAlone c x = mixVoice c x (clearedRun c) := rfl

/-- The run `r'` is `r` and then the voices `alone`, each mixed alone: the counts added up, and every sample the
saturating chain of theirs (R217, R218). -/
structure ChainedRun (c : Config) (alone : List (Voice × MixRun)) (r r' : MixRun) : Prop where
  mixed : r'.mixed = r.mixed + (alone.map fun p => p.2.mixed).sum
  fin : r'.fin = r.fin + (alone.map fun p => p.2.fin).sum
  short : r'.short = r.short + (alone.map fun p => p.2.short).sum
  sample : ∀ (l : Lane) (k : Nat), k < c.q → l.sample (r'.acc.getD k 0) =
    (alone.map fun p => l.sample (p.2.acc.getD k 0)).foldl (fun a x => sat16 (a + x)) (l.sample (r.acc.getD k 0))

theorem ChainedRun.nil (r : MixRun) : ChainedRun c [] r r := ⟨rfl, rfl, rfl, fun _ _ _ => rfl⟩

theorem ChainedRun.cons {p : Voice × MixRun} {ps : List (Voice × MixRun)} {r r1 r2 : MixRun}
    (h : ChainedRun c [p] r r1) (hs : ChainedRun c ps r1 r2) : ChainedRun c (p :: ps) r r2 where
  mixed := by simp [hs.mixed, h.mixed, Nat.add_assoc]
  fin := by simp [hs.fin, h.fin, Nat.add_assoc]
  short := by simp [hs.short, h.short, Nat.add_assoc]
  sample l k hk := by rw [hs.sample l k hk, h.sample l k hk]; rfl

/-- A silent contribution changes no sample. -/
theorem sat16_add_cleared (l : Lane) (a : Frame) {k : Nat} (hk : k < c.q) :
    sat16 (l.sample a + l.sample ((clearedRun c).acc.getD k 0)) = l.sample a := by
  rw [List.getD_eq_getElem?_getD, clearedRun, getElem?_cleared hk, Option.getD_some, l.sample_zero, Int.add_zero,
    sat16_of_bounds (l.sample_bounds a)]

section Voice
variable {x y z : Voice} {lin : Nat} {f : MixRun → MixRun} (hc : c.wf = true) (hx : x.InRange c)
include hc hx

/-- A mixed voice adds to any run the samples it gives alone, with saturation (R217). -/
theorem mixedRun_sample (hz : faderService (mutedSlot c x) = (z, false))
    (hl : indexToLinear c z.gainIdx.toNat = some lin) {r : MixRun} (hr : r.acc.length = c.q) (l : Lane) {k : Nat}
    (hk : k < c.q) :
    l.sample ((mixedRun c z (mixAvail c x) lin (countedRun c x r)).acc.getD k 0) =
      sat16 (l.sample (r.acc.getD k 0) +
        l.sample ((mixedRun c z (mixAvail c x) lin (countedRun c x (clearedRun c))).acc.getD k 0)) := by
  have ha : r.acc[k]? = some (r.acc[k]'(hr ▸ hk)) := List.getElem?_eq_getElem _
  have halone := mixedRun_acc_getElem? (lin := lin) hc hz (r := clearedRun c) List.length_replicate
    (getElem?_cleared hk)
  have hgain := mixGain_bounds hc hx (indexToLinear_le_unity hc hl) k z.faderCtl
  simp only [List.getD_eq_getElem?_getD]
  rw [mixedRun_acc_getElem? hc hz hr ha, ha, halone]
  simp only [Option.getD_some]
  rw [l.sample_mixFrame_cleared hgain, l.sample_mixFrame]

/-- A voice does to any run what the chain with its own contribution does. -/
theorem MixFate.chainedRun (h : MixFate c x y f) {r : MixRun} (hr : r.acc.length = c.q) :
    ChainedRun c [(y, f (clearedRun c))] r (f r) := by
  cases h with
  | skipped hp => exact ⟨rfl, rfl, rfl, fun l k hk => (sat16_add_cleared l _ hk).symm⟩
  | finalized hp hf =>
    refine ⟨by simp [clearedRun], by simp [clearedRun], by simp [countedRun_short hc, clearedRun], fun l k hk => ?_⟩
    simp only [List.map_cons, List.map_nil, List.foldl_cons, List.foldl_nil, countFinalized_acc, countedRun_acc]
    exact (sat16_add_cleared l _ hk).symm
  | ended z lin hp hs hz hl he =>
    exact ⟨by simp [clearedRun], by simp [clearedRun], by simp [countedRun_short hc, clearedRun],
      fun l k hk => mixedRun_sample hc hx hz hl hr l hk⟩
  | drained z lin hp hs hz hl he =>
    exact ⟨by simp [clearedRun], by simp [clearedRun], by simp [countedRun_short hc, clearedRun],
      fun l k hk => mixedRun_sample hc hx hz hl hr l hk⟩

end Voice

/-- A quantum is the voices mixed each alone, chained in ascending index (R206, R218). -/
theorem mixVoices_chainedRun (hc : c.wf = true) {xs : List Voice} (hx : ∀ x ∈ xs, x.InRange c) {r : MixRun}
    (hr : r.acc.length = c.q) :
    ∃ alone r', mixAllAlone c xs = some alone ∧ mixVoices c xs r = some (alone.map (fun p => p.1), r') ∧
      ChainedRun c alone r r' := by
  induction xs generalizing r with
  | nil => exact ⟨[], r, rfl, rfl, .nil r⟩
  | cons x xs ih =>
    obtain ⟨hx0, hxs⟩ := List.forall_mem_cons.1 hx
    obtain ⟨y, f, hf⟩ := exists_mixFate hc hx0
    have hm := hf.mixVoice_eq hc r
    obtain ⟨ps, r2, halone, hvoices, hchain⟩ := ih hxs (mixVoice_acc_length hm hr)
    refine ⟨(y, f (clearedRun c)) :: ps, r2, ?_, ?_, (MixFate.chainedRun hc hx0 hf hr).cons hchain⟩
    · simp [mixAllAlone, mixAlone_eq, hf.mixVoice_eq hc, halone]
    · simp [mixVoices, hm, hvoices]

/-- Slots that are not Playing pass a quantum untouched (R206). -/
theorem mixVoices_skipped {xs : List Voice} (h : ∀ x ∈ xs, x.state ≠ .playing) (r : MixRun) :
    mixVoices c xs r = some (xs, r) := by
  induction xs with
  | nil => rfl
  | cons x xs ih =>
    obtain ⟨hx, hxs⟩ := List.forall_mem_cons.1 h
    simp [mixVoices, mixVoice, hx, ih hxs]

/-- With one slot Playing a quantum is that voice's own (R206). -/
theorem mixVoices_of_only {xs : List Voice} {v : Nat} {x y : Voice} {r r' : MixRun} (hx : xs[v]? = some x)
    (hothers : ∀ w u, w ≠ v → xs[w]? = some u → u.state ≠ .playing) (hm : mixVoice c x r = some (y, r')) :
    mixVoices c xs r = some (xs.set v y, r') := by
  induction xs generalizing v with
  | nil => simp at hx
  | cons x0 xs ih =>
    cases v with
    | zero =>
      obtain rfl : x0 = x := by simpa using hx
      have hskip : ∀ u ∈ xs, u.state ≠ .playing := fun u hu => by
        obtain ⟨w, hw⟩ := List.getElem?_of_mem hu
        exact hothers (w + 1) u (by omega) (by simpa using hw)
      simp [mixVoices, hm, mixVoices_skipped hskip]
    | succ v =>
      have hskip : x0.state ≠ .playing := hothers 0 x0 (by omega) rfl
      have hrest := ih (v := v) (by simpa using hx)
        (fun w u hw hu => hothers (w + 1) u (by omega) (by simpa using hu))
      simp [mixVoices, mixVoice, hskip, hrest]

end Chain

/-! ### `MIX` in a legal state that is not halted -/

section Quantum
variable {s t : State}

theorem exec_mix_running (hr : s.halted = false) {vs : List Voice} {r : MixRun}
    (hm : mixVoices s.cfg s.voices (mixStart s) = some (vs, r)) : exec .mix s = .next (mixFinish s vs r) := by
  have h : exec .mix s = execMix s := rfl
  rw [h, execMix, whenRunning_running _ _ hr, hm]

/-- The accumulator handed out reads as the run's frames. -/
theorem read_mixFinish_acc (s : State) (vs : List Voice) (r : MixRun) (k : Nat) :
    Memory.read (mixFinish s vs r).acc k = r.acc.getD k 0 := by
  simpa using memory_read_ofCells 0 r.acc k

/-- In a legal state the voices complete their quantum, as a chain from a cleared accumulator. -/
theorem exists_mixVoices (hs : s.Legal) :
    ∃ alone r, mixAllAlone s.cfg s.voices = some alone ∧
      mixVoices s.cfg s.voices (mixStart s) = some (alone.map (fun p => p.1), r) ∧
      ChainedRun s.cfg alone (mixStart s) r := by
  obtain ⟨hc, -, hx⟩ := hs
  exact mixVoices_chainedRun hc hx List.length_replicate

/-- Every slot meets its fate. -/
theorem mixVoices_fate {c : Config} (hc : c.wf = true) {xs ys : List Voice} {r r' : MixRun}
    (hm : mixVoices c xs r = some (ys, r')) {v : Nat} {x y : Voice} {f : MixRun → MixRun} (hv : xs[v]? = some x)
    (hf : MixFate c x y f) : ys[v]? = some y := by
  obtain ⟨y', r1, r2, hy', h'⟩ := (mixVoices_slot hm).2 v x hv
  obtain ⟨rfl, -⟩ := Prod.mk.inj (Option.some.inj ((hf.mixVoice_eq hc r1).symm.trans h'))
  exact hy'

/-- `MIX` completes, and every slot meets its fate. -/
theorem exists_exec_mix (hs : s.Legal) (hr : s.halted = false) :
    ∃ t, exec .mix s = .next t ∧
      ∀ (v : Nat) x y f, s.voices[v]? = some x → MixFate s.cfg x y f → t.voices[v]? = some y := by
  obtain ⟨alone, r, -, hm, -⟩ := exists_mixVoices hs
  exact ⟨_, exec_mix_running hr hm, fun v x y f hv hf => mixVoices_fate hs.1 hm hv hf⟩

/-- Settles O49: the run keeps Q frames, `ACC` reads as they are, and a slot that is not Playing is skipped. -/
theorem mixCompletesWithOneQuantum : Obligations.MixCompletesWithOneQuantum := by
  intro s hs hr
  obtain ⟨alone, r, -, hm, -⟩ := exists_mixVoices hs
  have hlen : r.acc.length = s.cfg.q :=
    mixVoices_run (fun r => r.acc.length = s.cfg.q) (fun _ _ _ _ h hm => mixVoice_acc_length hm h)
      List.length_replicate hm
  refine ⟨_, _, r.acc, exec_mix_running hr hm, rfl, (mixVoices_slot hm).1, hlen, fun k f hk => ?_, fun k hk => ?_,
    fun v x hv hp => mixVoices_fate hs.1 hm hv (.skipped hp)⟩
  · rw [read_mixFinish_acc, List.getD_eq_getElem?_getD, hk, Option.getD_some]
  · rw [read_mixFinish_acc, List.getD_eq_default _ _ (by omega)]

/-- Settles O50: the chain of the quantum starts from a cleared accumulator and counts of 0. -/
theorem mixIsTheSaturatingChainOfVoices : Obligations.MixIsTheSaturatingChainOfVoices := by
  intro s hs hr
  obtain ⟨alone, r, halone, hm, hchain⟩ := exists_mixVoices hs
  have hsample : ∀ (l : Lane) (k : Nat), k < s.cfg.q →
      l.sample (Memory.read (mixFinish s (alone.map fun p => p.1) r).acc k) =
        saturatingChain (alone.map fun p => l.sample (p.2.acc.getD k 0)) := fun l k hk => by
    have h0 : l.sample ((mixStart s).acc.getD k 0) = 0 := by
      rw [List.getD_eq_getElem?_getD, mixStart, getElem?_cleared hk, Option.getD_some, l.sample_zero]
    rw [read_mixFinish_acc, hchain.sample l k hk, h0, saturatingChain]
  have hmixed : r.mixed = (alone.map fun p => p.2.mixed).sum := hchain.mixed.trans (Nat.zero_add _)
  have hfin : r.fin = (alone.map fun p => p.2.fin).sum := hchain.fin.trans (Nat.zero_add _)
  have hshort : r.short = (alone.map fun p => p.2.short).sum := hchain.short.trans (Nat.zero_add _)
  refine ⟨alone, _, halone, exec_mix_running hr hm, rfl,
    fun k hk => ⟨hsample .left k hk, hsample .right k hk⟩, r.acc, ?_⟩
  rw [← hmixed, ← hfin, ← hshort]
  rfl

end Quantum

/-! ### The slot of a Playing voice after `MIX` -/

section Slot
variable {c : Config} {x z : Voice} {lin : Nat} {slot : Option Voice}

theorem mutedSlot_running (h : x.flags.stopRequested = false) : mutedSlot c x = x := by simp [mutedSlot, h]

theorem not_silentStop_of_running (h : x.flags.stopRequested = false) : ¬ x.SilentStop := fun hs =>
  absurd (h.symm.trans hs.1) (by decide)

theorem mutedSlot_cancelled (h : x.flags.stopRequested = true) (hm : c.hardMuteCancelsFader = true) :
    mutedSlot c x =
      { x with gainIdx := 0, faderCtl := ⟨false, x.faderCtl.stopOnComplete, x.faderCtl.up, 0, false⟩ } := by
  simp [mutedSlot, h, hm]

theorem mutedSlot_literal (h : x.flags.stopRequested = true) (hm : c.hardMuteCancelsFader = false) :
    mutedSlot c x = { x with gainIdx := 0 } := by
  simp [mutedSlot, h, hm]

/-- The registers of a drained voice that its service and the drain did not write are the voice's own, and the drain
writes three (R210, R215, R220). -/
theorem drainedVoice_serviced {b : Bool} (hz : faderService (mutedSlot c x) = (z, b)) :
    drainedVoice c z (mixAvail c x) lin =
      { x with
        gainIdx := z.gainIdx
        faderCtl := z.faderCtl
        rampAcc := z.rampAcc
        pcmRd := BitVec.ofNat 32 ((x.pcmRd.toNat + mixAvail c x) % c.cPcm)
        gainLin := BitVec.ofNat 32 lin
        framesPlayed := BitVec.ofNat 32 (min (x.framesPlayed.toNat + mixAvail c x) (2 ^ 32 - 1)) } := by
  have hcount : (z.pcmRing c).readCount (mixAvail c x) = mixAvail c x := by
    rw [pcmRing_of_serviced hz, ring_readCount_of_le _ _ (mixAvail_le c x).1]
  rw [drainedVoice, setPcmRing_afterRead, hcount, serviced_eq hz]
  rfl

/-- At the end of its stream a Playing voice is finalized, whichever step does it (R221). -/
theorem MixFate.eq_finalize {y : Voice} {f : MixRun → MixRun} (h : MixFate c x y f) (hp : x.state = .playing)
    (he : x.AtEnd c) : y = x.finalize := by
  cases h with
  | skipped hp' => exact absurd hp hp'
  | finalized => rfl
  | ended => rfl
  | drained z lin _ _ _ _ he' => exact absurd he he'

/-- The slot of a voice that passes steps 2 and 3: finalized at the end of its stream, else drained (R221). -/
theorem keptUnlessAtEnd_of_fate (hslot : ∀ y f, MixFate c x y f → slot = some y) (hc : c.wf = true)
    (hx : x.InRange c) (hp : x.state = .playing) (hs : ¬ x.SilentStop)
    (hz : faderService (mutedSlot c x) = (z, false)) {P : Voice → Prop}
    (hP : ∀ lin, indexToLinear c z.gainIdx.toNat = some lin → P (drainedVoice c z (mixAvail c x) lin)) :
    KeptUnlessAtEnd c x slot P := by
  obtain ⟨lin, hl, -⟩ := exists_lin_of_serviced hc hx hz
  refine ⟨fun he => hslot _ _ (.ended z lin hp hs hz hl he), fun he => ?_⟩
  refine ⟨_, hslot _ _ (.drained z lin hp hs hz hl he), ?_, ?_, hP lin hl⟩
  · rw [drainedVoice_serviced hz]
    exact hp
  · rw [drainedVoice_serviced hz]

/-- A voice drained at the silence index has amplitude 0 (R141). -/
theorem drainedVoice_gainLin_silent (hc : c.wf = true) (hg : z.gainIdx = 0)
    (hl : indexToLinear c z.gainIdx.toNat = some lin) (avail : Nat) : (drainedVoice c z avail lin).gainLin = 0 := by
  obtain rfl : lin = 0 := by
    rw [hg] at hl
    exact Option.some.inj (hl.symm.trans (indexToLinear_zero hc))
  rfl

/-- Under the literal mute a fade that is not an up ramp or a short fade still pending ends, at the muted index. -/
theorem faderService_literal_ends (ha : x.faderCtl.active = true)
    (h : (x.faderCtl.shortFadeMode ≠ 0 ∧ x.faderCtl.shortFadeCompleted = true) ∨
      (x.faderCtl.shortFadeMode = 0 ∧ (x.faderCtl.up = false ∨ x.target = 0))) :
    ∃ z, faderService { x with gainIdx := 0 } = (z, x.faderCtl.stopOnComplete) ∧ z.gainIdx = 0 ∧
      z.faderCtl.active = false := by
  rcases h with ⟨hm, hd⟩ | ⟨hm, hend⟩
  · exact ⟨_, faderService_short_completed (x := { x with gainIdx := 0 }) ha hm hd, rfl, rfl⟩
  · refine ⟨_, faderService_reached (x := { x with gainIdx := 0 }) ha hm ?_, rfl, rfl⟩
    cases hu : x.faderCtl.up with
    | false => exact .inr ⟨rfl, Nat.zero_le _⟩
    | true =>
      obtain ht : x.target = 0 := by simpa [hu] using hend
      exact .inl ⟨rfl, by simp [ht]⟩

end Slot

/-- Settles O51: each clause is the service of the muted voice. -/
theorem immediateStopMutesThenFinalizes : Obligations.ImmediateStopMutesThenFinalizes := by
  intro s v x hs hr hv hp hstop
  obtain ⟨t, ht, hfates⟩ := exists_exec_mix hs hr
  obtain ⟨hc, -, hin⟩ := hs
  have hx : x.InRange s.cfg := hin x (List.mem_of_getElem? hv)
  have hslot : ∀ y f, MixFate s.cfg x y f → t.voices[v]? = some y := fun y f hf => hfates v x y f hv hf
  refine ⟨t, ht, fun hg => hslot _ _ (.finalized hp (.inl ⟨hstop, hg⟩)), fun hg hm => ?cancelled, fun hg hm => ?literal⟩
  case cancelled =>
    have hz := faderService_idle (x := mutedSlot s.cfg x) (by rw [mutedSlot_cancelled hstop hm])
    rw [mutedSlot_cancelled hstop hm] at hz
    refine keptUnlessAtEnd_of_fate hslot hc hx hp (fun h => hg h.2) (by rwa [mutedSlot_cancelled hstop hm])
      fun lin hl => ⟨rfl, drainedVoice_gainLin_silent hc rfl hl _, rfl⟩
  case literal =>
    have hmuted := mutedSlot_literal hstop hm
    have hkept : ∀ {z : Voice} {P : Voice → Prop}, faderService { x with gainIdx := 0 } = (z, false) →
        (∀ lin, indexToLinear s.cfg z.gainIdx.toNat = some lin → P (drainedVoice s.cfg z (mixAvail s.cfg x) lin)) →
        KeptUnlessAtEnd s.cfg x t.voices[v]? P :=
      fun hz hP => keptUnlessAtEnd_of_fate hslot hc hx hp (fun h => hg h.2) (by rwa [hmuted]) hP
    refine ⟨fun ha => ?idle, fun ha hsf hu ht => ?up, fun ha hsf hd => ?pending, fun ha hend => ?ends⟩
    case idle =>
      exact hkept (faderService_idle ha) fun lin hl => ⟨rfl, drainedVoice_gainLin_silent hc rfl hl _, rfl⟩
    case up =>
      refine hkept (faderService_up ha hsf hu ht) fun lin _ => ⟨rfl, toNat_ofNat_of_lt ?_⟩
      exact Nat.lt_of_le_of_lt (Nat.min_le_right _ _) x.target.isLt
    case pending => exact hkept (faderService_short ha hsf hd) fun lin _ => ⟨rfl, rfl⟩
    case ends =>
      obtain ⟨z, hz, hg0, hidle⟩ := faderService_literal_ends ha hend
      refine ⟨fun hsoc => hslot _ _ (.finalized hp (.inr ?_)), fun hsoc => ?_⟩
      · rw [hmuted, hz, hsoc]
      · exact hkept (hsoc ▸ hz) fun lin hl => ⟨hg0, drainedVoice_gainLin_silent hc hg0 hl _, hidle⟩

/-- Settles O52: with no stop pending the voice serviced is the voice itself. -/
theorem completedStopFadeFinalizes : Obligations.CompletedStopFadeFinalizes := by
  intro s v x hs hr hv hp hstop hdone
  obtain ⟨t, ht, hfates⟩ := exists_exec_mix hs hr
  exact ⟨t, ht, hfates v x _ _ hv (.finalized hp (.inr (by rwa [mutedSlot_running hstop])))⟩

/-- Settles O53: the drained fate, written out. -/
theorem mixDrainsAPlayingVoice : Obligations.MixDrainsAPlayingVoice := by
  intro s v x y avail hs hr hv hp hsilent hy he havail
  obtain ⟨t, ht, hfates⟩ := exists_exec_mix hs hr
  obtain ⟨hc, -, hin⟩ := hs
  obtain ⟨lin, hl, -⟩ := exists_lin_of_serviced hc (hin x (List.mem_of_getElem? hv)) hy
  obtain rfl : avail = mixAvail s.cfg x := by
    rw [usedPcm_eq_used hc] at havail
    rw [mixAvail]
    omega
  refine ⟨t, lin, ht, hl, ?_⟩
  rw [← drainedVoice_serviced hy]
  exact hfates v x _ _ hv (.drained y lin hp hsilent hy hl he)

/-- Settles O54: at the end of its stream every fate of a Playing voice is to be finalized; short of it, an Idle fader
with no stop pending leaves only the drained one. -/
theorem endOfStreamFinalizes : Obligations.EndOfStreamFinalizes := by
  intro s v x hs hr hv hp
  obtain ⟨t, ht, hfates⟩ := exists_exec_mix hs hr
  obtain ⟨hc, -, hin⟩ := hs
  have hx : x.InRange s.cfg := hin x (List.mem_of_getElem? hv)
  refine ⟨t, ht, fun h1 h2 h3 => ?_, fun hstop ha hne => ?_⟩
  · obtain ⟨y, f, hf⟩ := exists_mixFate hc hx
    rw [hfates v x y f hv hf, hf.eq_finalize hp ⟨h1, h2, h3⟩]
    rfl
  · have he : ¬ x.AtEnd s.cfg := fun ⟨h1, h2, h3⟩ => by simp [h1, h2, h3] at hne
    have hz : faderService (mutedSlot s.cfg x) = (x, false) := by rw [mutedSlot_running hstop, faderService_idle ha]
    obtain ⟨-, hkept⟩ := keptUnlessAtEnd_of_fate (fun y f hf => hfates v x y f hv hf) hc hx hp
      (not_silentStop_of_running hstop) hz (P := fun _ => True) (fun _ _ => trivial)
    obtain ⟨y, hy, hplaying, -⟩ := hkept he
    exact ⟨y, hy, hplaying⟩

/-! ### What a voice adds to a quantum -/

section Additivity
variable {c : Config} {x y z : Voice} {f : MixRun → MixRun}

/-- A voice none of whose frames is heard leaves the accumulator as it is (R224). -/
theorem mixedRun_acc_of_silent (hc : c.wf = true) (hz : faderService (mutedSlot c x) = (z, false)) {lin : Nat}
    {r : MixRun} (hr : r.acc.length = c.q)
    (hsilent : ∀ (k : Nat) (l : Lane), k < c.q → scaleSample (l.sample (decodedFrame c x k))
      (frameGain x.gainLin.toNat lin (rampLength c z.faderCtl) k) = 0) :
    (mixedRun c z (mixAvail c x) lin (countedRun c x r)).acc = r.acc := by
  have hframe : ∀ k a, r.acc[k]? = some a →
      (mixedRun c z (mixAvail c x) lin (countedRun c x r)).acc[k]? = some a := fun k a ha => by
    have hk : k < c.q := hr ▸ (List.getElem?_eq_some_iff.1 ha).1
    rw [mixedRun_acc_getElem? hc hz hr ha, mixFrame_silent (fun l => hsilent k l hk)]
  refine List.ext_getElem? fun k => ?_
  cases ha : r.acc[k]? with
  | some a => exact hframe k a ha
  | none =>
    rw [List.getElem?_eq_none_iff] at ha ⊢
    rw [mixedRun_acc, mixFrames_length]
    exact Nat.le_trans (Nat.min_le_right _ _) (by simpa using ha)

/-- A voice with nothing decoded, or with cells that are all zero, is mixed as silence (R210). -/
theorem decodedFrame_eq_zero (h : usedPcm c x = 0 ∨ ∀ k, Memory.read x.pcm k = 0) (k : Nat) :
    decodedFrame c x k = 0 := by
  unfold decodedFrame
  split
  · rcases h with h | h
    · omega
    · exact h _
  · rfl

/-- A voice silent at both ends of the quantum, or with no sound in its frames, adds nothing (R224). -/
theorem MixFate.acc_of_silent (h : MixFate c x y f) (hc : c.wf = true) {r : MixRun} (hr : r.acc.length = c.q)
    (hsilent : (x.gainLin = 0 ∧ y.gainLin = 0) ∨ ∀ k, Memory.read x.pcm k = 0) : (f r).acc = r.acc := by
  cases h with
  | skipped => rfl
  | finalized => rw [countFinalized_acc, countedRun_acc]
  | ended z lin hp hs hz hl he =>
    rw [countFinalized_acc]
    refine mixedRun_acc_of_silent hc hz hr fun k l _ => ?_
    rw [decodedFrame_eq_zero (.inl he.1), l.sample_zero, scaleSample_zero]
  | drained z lin hp hs hz hl he =>
    refine mixedRun_acc_of_silent hc hz hr fun k l _ => ?_
    rcases hsilent with ⟨hg0, hg1⟩ | hpcm
    · have hunity := indexToLinear_le_unity hc hl
      obtain rfl : lin = 0 := by
        have h0 : (BitVec.ofNat 32 lin).toNat = 0 := congrArg BitVec.toNat hg1
        rwa [toNat_ofNat_of_lt (by unfold unity at hunity; omega)] at h0
      have hflat : frameGain x.gainLin.toNat 0 (rampLength c z.faderCtl) k = 0 := by
        rw [hg0]
        exact frameGain_flat 0 _ k
      rw [hflat, scaleSample_zero_gain]
    · rw [decodedFrame_eq_zero (.inr hpcm), l.sample_zero, scaleSample_zero]

/-- A voice at unity gain at both ends, mixed into a cleared accumulator, gives its decoded frames (R224). -/
theorem mixedRun_acc_of_unity (hc : c.wf = true) (hz : faderService (mutedSlot c x) = (z, false))
    (hg : x.gainLin.toNat = unity) {r : MixRun} (hr : r.acc = List.replicate c.q 0) {k : Nat} (hk : k < c.q) :
    (mixedRun c z (mixAvail c x) unity (countedRun c x r)).acc[k]? = some (decodedFrame c x k) := by
  rw [mixedRun_acc_getElem? hc hz (by rw [hr, List.length_replicate]) (hr ▸ getElem?_cleared hk), hg, frameGain_flat]
  refine congrArg some (frame_ext fun l => ?_)
  rw [l.sample_mixFrame_cleared (by decide), scaleSample_unity]

end Additivity

/-- Settles O58. -/
theorem mixAdditivity : Obligations.MixAdditivity := by
  refine ⟨fun c x y r r' hc hr hm hsilent => ?_, fun s v x z hs hr hv hp hothers hstop hz hg hl => ?_⟩
  · obtain ⟨y', f, hf⟩ := exists_mixFate_of_some hm
    obtain ⟨rfl, rfl⟩ := Prod.mk.inj (Option.some.inj ((hf.mixVoice_eq hc r).symm.trans hm))
    exact hf.acc_of_silent hc hr hsilent
  · obtain ⟨hc, -, -⟩ := hs
    have hz' : faderService (mutedSlot s.cfg x) = (z, false) := by rwa [mutedSlot_running hstop]
    obtain ⟨y, r, hm, hacc⟩ : ∃ y r, mixVoice s.cfg x (mixStart s) = some (y, r) ∧
        r.acc = (mixedRun s.cfg z (mixAvail s.cfg x) unity (countedRun s.cfg x (mixStart s))).acc := by
      rw [mixVoice_mixed hc hp (not_silentStop_of_running hstop) hz' hl]
      split
      · exact ⟨_, _, rfl, rfl⟩
      · exact ⟨_, _, rfl, rfl⟩
    refine ⟨_, exec_mix_running hr (mixVoices_of_only hv hothers hm), fun k hk => ?_⟩
    rw [read_mixFinish_acc, hacc, List.getD_eq_getElem?_getD, mixedRun_acc_of_unity hc hz' hg rfl hk]
    rfl

/-! ### What a voice gives alone, and the value of `MIX` -/

section Alone
variable {c : Config} {x z : Voice} {lin : Nat}

theorem countedRun_cleared_short (hc : c.wf = true) (x : Voice) :
    (countedRun c x (clearedRun c)).short = if usedPcm c x < c.q then 1 else 0 :=
  (countedRun_short hc x _).trans (Nat.zero_add _)

/-- A voice finalized in step 2 or 3 gives silence and two counts (R208, R209). -/
theorem mixAlone_finalized (hc : c.wf = true) (hp : x.state = .playing)
    (hf : x.SilentStop ∨ (faderService (mutedSlot c x)).2 = true) :
    ∃ r, mixAlone c x = some (x.finalize, r) ∧ r.short = (if usedPcm c x < c.q then 1 else 0) ∧ r.mixed = 0 ∧
      r.fin = 1 ∧ ∀ k, k < c.q → r.acc[k]? = some 0 := by
  refine ⟨_, mixVoice_finalized hp hf _, countedRun_cleared_short hc x, ?_, ?_, fun k hk => ?_⟩
  · rw [countFinalized_mixed, countedRun_mixed]
  · rw [countFinalized_fin, countedRun_fin]
  · rw [countFinalized_acc, countedRun_acc]
    exact getElem?_cleared hk

/-- A voice that passes steps 2 and 3 gives its decoded frames, each scaled by its gain (R210 to R217). -/
theorem mixAlone_mixed (hc : c.wf = true) (hx : x.InRange c) (hp : x.state = .playing) (hs : ¬ x.SilentStop)
    (hz : faderService (mutedSlot c x) = (z, false)) (hl : indexToLinear c z.gainIdx.toNat = some lin) :
    ∃ y r, mixAlone c x = some (y, r) ∧ r.short = (if usedPcm c x < c.q then 1 else 0) ∧ r.mixed = 1 ∧
      (x.AtEnd c → r.fin = 1) ∧ (¬ x.AtEnd c → r.fin = 0) ∧
      ∀ k, k < c.q → ∃ a, r.acc[k]? = some a ∧ ∀ l : Lane, l.sample a =
        scaleSample (l.sample (decodedFrame c x k)) (frameGain x.gainLin.toNat lin (rampLength c z.faderCtl) k) := by
  have hframes : ∀ k, k < c.q → ∃ a,
      (mixedRun c z (mixAvail c x) lin (countedRun c x (clearedRun c))).acc[k]? = some a ∧
      ∀ l : Lane, l.sample a = scaleSample (l.sample (decodedFrame c x k))
        (frameGain x.gainLin.toNat lin (rampLength c z.faderCtl) k) := fun k hk =>
    ⟨_, mixedRun_acc_getElem? hc hz List.length_replicate (getElem?_cleared hk),
      fun l => l.sample_mixFrame_cleared (mixGain_bounds hc hx (indexToLinear_le_unity hc hl) k z.faderCtl) _⟩
  by_cases he : x.AtEnd c
  · refine ⟨_, _, (MixFate.ended z lin hp hs hz hl he).mixVoice_eq hc _, countedRun_cleared_short hc x, ?_,
      fun _ => ?_, fun h => absurd he h, hframes⟩
    · rw [countFinalized_mixed, mixedRun_mixed, countedRun_mixed]
    · rw [countFinalized_fin, mixedRun_fin, countedRun_fin]
  · refine ⟨_, _, (MixFate.drained z lin hp hs hz hl he).mixVoice_eq hc _, countedRun_cleared_short hc x, ?_,
      fun h => absurd h he, fun _ => ?_, hframes⟩
    · rw [mixedRun_mixed, countedRun_mixed]
    · rw [mixedRun_fin, countedRun_fin]

/-- Three counts below 256 stand side by side (R101, R222). -/
theorem mixValue_eq {mixed fin short : Nat} (hm : mixed < 256) (hf : fin < 256) (hs : short < 256) :
    mixValue mixed fin short = BitVec.ofNat 32 (mixed + 256 * fin + 65536 * short) := by
  have hlow : mixed ||| fin <<< 8 = mixed + 256 * fin := by
    rw [Nat.or_comm, ← Nat.shiftLeft_add_eq_or_of_lt (i := 8) (by omega), Nat.shiftLeft_eq]
    omega
  have hall : (mixed + 256 * fin) ||| short <<< 16 = mixed + 256 * fin + 65536 * short := by
    rw [Nat.or_comm, ← Nat.shiftLeft_add_eq_or_of_lt (i := 16) (by omega), Nat.shiftLeft_eq]
    omega
  rw [← hall, ← hlow]
  refine BitVec.eq_of_toNat_eq ?_
  have hf32 : fin % 2 ^ 32 = fin := Nat.mod_eq_of_lt (by omega)
  have hs32 : short % 2 ^ 32 = short := Nat.mod_eq_of_lt (by omega)
  simp only [mixValue, BitVec.toNat_or, BitVec.toNat_shiftLeft, BitVec.toNat_ofNat, Nat.or_mod_two_pow, hf32, hs32]

end Alone

/-- Settles O60: a Playing voice that passes steps 2 and 3 is mixed, any other finalized; the rest is packing. -/
theorem voiceContributesItsScaledFrames : Obligations.VoiceContributesItsScaledFrames := by
  refine ⟨fun s v x z done hs hv hp hz => ?_, fun c x hp => ?_, fun _ _ _ hm hf hs => mixValue_eq hm hf hs⟩
  · obtain ⟨hc, -, hin⟩ := hs
    have hx := hin x (List.mem_of_getElem? hv)
    by_cases hf : x.SilentStop ∨ done = true
    · obtain ⟨r, hr, hshort, hgives⟩ := mixAlone_finalized hc hp (by rwa [hz])
      exact ⟨_, r, hr, hshort, fun _ => ⟨rfl, hgives⟩, fun h1 h2 => absurd hf (by simp [h1, h2])⟩
    · obtain ⟨hsilent, hdone⟩ := not_or.1 hf
      obtain rfl := Bool.eq_false_iff.2 hdone
      obtain ⟨lin, hl, -⟩ := exists_lin_of_serviced hc hx hz
      obtain ⟨y, r, hr, hshort, hmixed, hend, hkept, hframes⟩ := mixAlone_mixed hc hx hp hsilent hz hl
      refine ⟨y, r, hr, hshort, fun h => absurd h hf, fun _ _ => ⟨hmixed, hend, hkept, lin, hl, fun k hk => ?_⟩⟩
      obtain ⟨a, ha, hsample⟩ := hframes k hk
      exact ⟨a, ha, hsample .left, hsample .right⟩
  · exact ⟨_, if_neg hp, rfl, rfl, rfl, fun k hk => getElem?_cleared hk⟩

end Sys2Proof.Machine
end

section
/-! PROOFS (45_control_plane.md). What each control-plane operation answers, one equation per case of its rule (R241 to
R262): `OPEN` with and without a free slot, the two paths of `STOPV`, and the three ranges of register numbers. -/
namespace Sys2Proof.Machine

/-! ### RESET -/

/-- Every register of the all-zero slot reads 0 (R42). -/
theorem voiceRegisters_zero : voiceRegisters Voice.zero = List.replicate 17 0 := rfl

/-- Settles O8: the reset slots are copies of the all-zero slot, and an empty memory reads 0. -/
theorem resetLeavesTheResetState : Obligations.ResetLeavesTheResetState := by
  refine ⟨fun _ => rfl, fun _ => ⟨rfl, List.length_replicate, rfl, rfl, fun _ => ⟨rfl, rfl⟩, ?slots⟩, rfl⟩
  case slots =>
    intro x hx
    obtain ⟨-, rfl⟩ := List.mem_replicate.1 hx
    refine ⟨rfl, fun reg hreg => ?registers, fun _ => ⟨rfl, rfl⟩⟩
    case registers =>
      rw [voiceRegisters_zero]
      exact List.getElem?_replicate_of_lt (Nat.lt_succ_of_le hreg)

/-! ### OPEN -/

section Opening
variable {s : State} {db : BitVec 16} {size : BitVec 32} {loop lock : Bool}

/-- `OPEN` with `v` the lowest free slot and `lin` the amplitude of its gain (R245). -/
theorem exec_openVoice_free (hr : s.halted = false) {v lin : Nat} (hv : s.lowestFree = some v)
    (hl : indexToLinear s.cfg (dbToIndex s.cfg db.toInt) = some lin) :
    exec (.openVoice db size loop lock) s =
      .next ((s.setVoice v (openedVoice (dbToIndex s.cfg db.toInt) lin size loop lock s.quantumCounter)).ok
        (BitVec.ofNat 32 v) []) := by
  change execOpen db size loop lock s = _
  simp only [execOpen, whenRunning_running _ _ hr, hv, openSlot, hl]

/-- `OPEN` with every slot taken (R244). -/
theorem exec_openVoice_full (hr : s.halted = false) (hv : s.lowestFree = none) :
    exec (.openVoice db size loop lock) s = .next (s.answered .noFreeVoice 0 []) := by
  change execOpen db size loop lock s = _
  rw [execOpen, whenRunning_running _ _ hr, hv]
  rfl

end Opening

/-- Settles O25: the search finds the lowest free slot, and the gain index lies in the table. -/
theorem openTakesTheLowestFreeSlot : Obligations.OpenTakesTheLowestFreeSlot := by
  intro s db size loop lock hc hr
  refine ⟨fun v x hx hfree hlowest => ?free, fun hfull => exec_openVoice_full hr ((lowestFree_none s).2 hfull)⟩
  case free =>
    have hv : s.lowestFree = some v := (lowestFree_some s v).2 ⟨x, hx, hfree, hlowest⟩
    obtain ⟨lin, hl, -⟩ := indexToLinear_lt hc (dbToIndex_lt s.cfg db.toInt hc)
    exact ⟨lin, hl, exec_openVoice_free hr hv hl⟩

/-! ### STOPV -/

/-- The immediate stop of R251. -/
theorem stopVoice_immediate {c : Config} {x : Voice} {ticks : Nat} (h : ticks = 0 ∨ x.gainIdx = 0) :
    stopVoice c ticks x = { x with flags := { x.flags with stopRequested := true } } := if_pos h

/-- The release of R251. -/
theorem stopVoice_release {c : Config} {x : Voice} {ticks : Nat} (ht : ticks ≠ 0) (hg : x.gainIdx ≠ 0) :
    stopVoice c ticks x = faderStart c x c.minDb ticks true := if_neg (not_or.2 ⟨ht, hg⟩)

/-- `MIN_DB` fits the decibel field of a `FADE` (R9, R96). -/
theorem ofInt_minDb_toInt {c : Config} (hc : c.wf = true) : (BitVec.ofInt 16 c.minDb).toInt = c.minDb := by
  obtain ⟨-, -, ⟨hlo, hhi⟩, -⟩ := config_wf_ranges hc
  exact BitVec.toInt_ofInt_eq_self (by decide) (by omega) (by omega)

theorem exec_stopv_serves {s : State} {v : BitVec 8} {x : Voice} (h : s.Serves v x) (ticks : BitVec 16) :
    exec (.stopv v ticks) s = .next (s.updated v (stopVoice s.cfg ticks.toNat x) .ok 0 []) :=
  onHandle_serves h _

/-- Settles O26: on the release path both operations start the same fade. -/
theorem stopvArmsTheStop : Obligations.StopvArmsTheStop := by
  intro s v x ticks hc hs
  refine ⟨fun h => ?immediate, fun ht hg => ⟨_, exec_stopv_serves hs ticks, ?release⟩⟩
  case immediate =>
    rw [exec_stopv_serves hs, stopVoice_immediate (h.imp_left fun h0 => BitVec.toNat_eq.1 h0)]
  case release =>
    have ht' : ticks.toNat ≠ 0 := fun h0 => ht (BitVec.eq_of_toNat_eq h0)
    rw [exec_fade_serves hs, ofInt_minDb_toInt hc, stopVoice_release ht' hg]

/-! ### QUERY -/

/-- Settles O27: a count is the length of the filtered list. -/
theorem queryCountsAllocatedVoices : Obligations.QueryCountsAllocatedVoices := by
  intro s
  refine ⟨fun hr => ?running, fun hh => whenRunning_halted s _ hh⟩
  case running =>
    rw [← List.countP_eq_length_filter]
    exact whenRunning_running s _ hr

/-! ### RDREG -/

section Rdreg
variable {s : State} {v : BitVec 8} {reg : BitVec 16}

/-- `RDREG` of the voice register with a number of R21. -/
theorem exec_rdreg_voice {x : Voice} {w : BitVec 32} (hv : v.toNat < s.cfg.maxVoices)
    (hx : s.voices[v.toNat]? = some x) (hw : (voiceRegisters x)[reg.toNat]? = some w) :
    exec (.rdreg v reg) s = .next (s.answered .ok w []) := by
  have hreg : reg.toNat ≤ 16 := Nat.le_of_lt_succ (List.getElem?_eq_some_iff.1 hw).1
  have hslot := (slot?_some s v.toNat x).2 ⟨hv, hx⟩
  change execRdreg v reg s = _
  simp only [execRdreg, if_pos hreg, hslot, List.getD_eq_getElem?_getD, hw]
  rfl

/-- `RDREG` of a voice register of a voice out of range. -/
theorem exec_rdreg_badIndex (hreg : reg.toNat ≤ 16) (hv : s.cfg.maxVoices ≤ v.toNat) :
    exec (.rdreg v reg) s = .next (s.answered .badIndex 0 []) := by
  have hslot : s.slot? v.toNat = none := if_neg (Nat.not_lt.2 hv)
  change execRdreg v reg s = _
  rw [execRdreg, if_pos hreg, hslot]
  rfl

/-- `RDREG` of a register with a number of R33 or R34, whatever the voice field. -/
theorem exec_rdreg_global {w : BitVec 32} (hreg : 16 < reg.toNat) (hw : globalRegister s reg.toNat = some w) :
    exec (.rdreg v reg) s = .next (s.answered .ok w []) := by
  change execRdreg v reg s = _
  rw [execRdreg, if_neg (Nat.not_le.2 hreg), hw]
  rfl

/-- Every other register number (R262). -/
theorem exec_rdreg_other (hreg : 16 < reg.toNat) (h80 : reg ≠ 0x80) (h81 : reg ≠ 0x81)
    (hid : reg.toNat < 0x90 ∨ 0x99 < reg.toNat) :
    exec (.rdreg v reg) s = .next (s.answered .illegalCommand 0 []) :=
  exec_rdreg_unassigned s v hreg <| globalRegister_eq_none s
    (fun h => h80 (BitVec.eq_of_toNat_eq h)) (fun h => h81 (BitVec.eq_of_toNat_eq h)) hid

end Rdreg

/-- The layout of `flags` (R23), checked on each of its 32 values. -/
theorem voiceFlags_word_bits (f : VoiceFlags) :
    f.word.getLsbD 0 = f.loop ∧ f.word.getLsbD 1 = f.lock ∧ f.word.getLsbD 2 = f.stopRequested ∧
    f.word.getLsbD 3 = f.endOfFile ∧ f.word.getLsbD 4 = f.streamError ∧ f.word.toNat < 2 ^ 5 := by
  obtain ⟨loop, lock, stopRequested, endOfFile, streamError⟩ := f
  revert loop lock stopRequested endOfFile streamError
  decide

/-- The layout of `faderCtl` (R28), checked on each of its 64 values. -/
theorem faderCtl_word_bits (f : FaderCtl) :
    f.word.getLsbD 0 = f.active ∧ f.word.getLsbD 1 = f.stopOnComplete ∧ f.word.getLsbD 2 = f.up ∧
    f.word.extractLsb' 3 2 = f.shortFadeMode ∧ f.word.getLsbD 5 = f.shortFadeCompleted ∧ f.word.toNat < 2 ^ 6 := by
  obtain ⟨active, stopOnComplete, up, shortFadeMode, shortFadeCompleted⟩ := f
  revert active stopOnComplete up shortFadeMode shortFadeCompleted
  decide

/-- Settles O28: one reading of the register list, one of the global map, and the two errors. -/
theorem rdregReadsTheRegisterMap : Obligations.RdregReadsTheRegisterMap := by
  refine ⟨fun s v x hv hx => ?voice, fun _ _ _ => exec_rdreg_badIndex, fun s v => ?global,
    fun _ _ _ => exec_rdreg_other, ⟨rfl, rfl, rfl, rfl⟩, voiceFlags_word_bits, faderCtl_word_bits⟩
  case voice =>
    and_intros <;> exact exec_rdreg_voice hv hx rfl
  case global =>
    and_intros <;> exact exec_rdreg_global (by decide) rfl

end Sys2Proof.Machine
end

section
/-! PROOFS (60_exceptions.md). The statuses of a response and what each one says of the operation and the next state
(R265 to R269), the halted condition (R272, R273), and `lock`, which no rule reads (R280): clearing every `lock` flag
commutes with every operation. -/
namespace Sys2Proof.Machine

/-! ### A voice without its `lock` flag -/

section LocklessVoice
variable (c : Config) (x : Voice)

theorem hardMute_dropLock : hardMute c x.dropLock = (hardMute c x).dropLock := by
  unfold hardMute
  rw [apply_ite Voice.dropLock, apply_ite Voice.dropLock]
  rfl

theorem faderStart_dropLock (db : Int) (ticks : Nat) (soc : Bool) :
    faderStart c x.dropLock db ticks soc = (faderStart c x db ticks soc).dropLock := by
  unfold faderStart faderStartNormal
  rw [apply_ite Voice.dropLock, apply_ite Voice.dropLock]
  rfl

theorem stopVoice_dropLock (ticks : Nat) : stopVoice c ticks x.dropLock = (stopVoice c ticks x).dropLock := by
  unfold stopVoice
  rw [apply_ite Voice.dropLock, faderStart_dropLock]
  rfl

/-- A service changes a voice alike with and without its `lock`, and returns the same value (R162). -/
theorem faderService_dropLock : faderService x.dropLock = (faderService x).map Voice.dropLock id := by
  simp only [faderService, serviceShort, serviceUp, serviceDown, apply_ite (Prod.map Voice.dropLock id)]
  rfl

/-- What an operation does to its voice, it does alike with and without the `lock`. -/
theorem voiceEffect_dropLock (i : Instr) : voiceEffect c i x.dropLock = (voiceEffect c i x).dropLock := by
  cases i with
  | stopv v ticks => exact stopVoice_dropLock c x ticks.toNat
  | fade v db ticks soc => exact faderStart_dropLock c x db.toInt ticks.toNat soc
  | fsvc v => exact congrArg Prod.fst (faderService_dropLock x)
  | rbwrite v cells => cases cells <;> rfl
  | rbread v sel n => cases sel <;> rfl
  | _ => rfl

/-- Of the registers of R21 only `flags`, number 1, shows `lock`. -/
theorem voiceRegisters_dropLock {n : Nat} (hn : n ≠ 1) :
    (voiceRegisters x.dropLock).getD n 0 = (voiceRegisters x).getD n 0 := by
  have hset : voiceRegisters x.dropLock = (voiceRegisters x).set 1 x.dropLock.flags.word := rfl
  rw [hset, List.getD_eq_getElem?_getD, List.getElem?_set_ne hn.symm, List.getD_eq_getElem?_getD]

end LocklessVoice

/-! ### A quantum without the `lock` flags -/

section LocklessQuantum
variable (c : Config) (x : Voice) (r : MixRun)

theorem mixStage_dropLock (avail lin : Nat) :
    mixStage c x.dropLock avail lin r = (mixStage c x avail lin r).map Voice.dropLock id := by
  unfold mixStage
  rw [apply_ite (Prod.map Voice.dropLock id)]
  rfl

theorem mixServiced_dropLock (avail : Nat) :
    mixServiced c x.dropLock avail r = (mixServiced c x avail r).map (Prod.map Voice.dropLock id) := by
  unfold mixServiced
  rw [faderService_dropLock]
  obtain ⟨y, stopped⟩ := faderService x
  cases stopped with
  | true => rfl
  | false =>
    have hgain : y.dropLock.gainIdx = y.gainIdx := rfl
    simp only [Prod.map, id, hgain]
    cases indexToLinear c y.gainIdx.toNat with
    | none => rfl
    | some lin => exact congrArg some (mixStage_dropLock c y r avail lin)

theorem mixPlaying_dropLock :
    mixPlaying c x.dropLock r = (mixPlaying c x r).map (Prod.map Voice.dropLock id) := by
  simp only [mixPlaying, hardMute_dropLock, mixServiced_dropLock, apply_ite (Option.map (Prod.map Voice.dropLock id))]
  rfl

theorem mixVoice_dropLock : mixVoice c x.dropLock r = (mixVoice c x r).map (Prod.map Voice.dropLock id) := by
  unfold mixVoice
  rw [mixPlaying_dropLock, apply_ite (Option.map (Prod.map Voice.dropLock id))]
  rfl

/-- The quantum of the slots without their `lock`: the same run, and the same slots without their `lock`. -/
theorem mixVoices_dropLock (xs : List Voice) :
    mixVoices c (xs.map Voice.dropLock) r = (mixVoices c xs r).map (Prod.map (List.map Voice.dropLock) id) := by
  induction xs generalizing r with
  | nil => rfl
  | cons x xs ih =>
    rw [List.map_cons, mixVoices, mixVoices, mixVoice_dropLock]
    cases hx : mixVoice c x r with
    | none => rfl
    | some p =>
      obtain ⟨y, r'⟩ := p
      simp only [Option.map_some, Prod.map, id, ih]
      cases mixVoices c xs r' <;> rfl

end LocklessQuantum

/-! ### A state and an outcome without the `lock` flags -/

section LocklessState
variable (s : State)

@[simp] theorem dropLock_cfg : s.dropLock.cfg = s.cfg := rfl
@[simp] theorem dropLock_voices : s.dropLock.voices = s.voices.map Voice.dropLock := rfl

theorem setVoice_dropLock (v : Nat) (y : Voice) :
    (s.setVoice v y).dropLock = s.dropLock.setVoice v y.dropLock := by
  simp only [State.dropLock, State.setVoice, List.map_set]

theorem slot?_dropLock (v : Nat) : s.dropLock.slot? v = (s.slot? v).map Voice.dropLock := by
  unfold State.slot?
  rw [apply_ite (Option.map _), dropLock_voices, List.getElem?_map]
  rfl

theorem handle?_dropLock (v : Nat) : s.dropLock.handle? v = (s.handle? v).map Voice.dropLock := by
  unfold State.handle?
  rw [slot?_dropLock]
  cases s.slot? v with
  | none => rfl
  | some x => exact (apply_ite (Option.map Voice.dropLock) (x.state = .available) none (some x)).symm

theorem lowestFree_dropLock : s.dropLock.lowestFree = s.lowestFree := List.findIdx?_map

theorem activeCount_dropLock : s.dropLock.activeCount = s.activeCount := List.countP_map

theorem mixStart_dropLock : mixStart s.dropLock = mixStart s := rfl

theorem performReset_dropLock : s.performReset.dropLock = s.dropLock.performReset := by
  simp only [State.dropLock, State.performReset, State.resetOf, List.map_replicate]
  rfl

variable {s} {v : Nat}

theorem whenRunning_dropLock {k k' : Host.Outcome State Fault Refusal} (hk : dropLockOutcome k = k') :
    dropLockOutcome (s.whenRunning k) = s.dropLock.whenRunning k' := by
  unfold State.whenRunning
  rw [apply_ite dropLockOutcome, hk]
  rfl

theorem onHandle_dropLock {k k' : Voice → Host.Outcome State Fault Refusal}
    (hk : ∀ x, dropLockOutcome (k x) = k' x.dropLock) :
    dropLockOutcome (s.onHandle v k) = s.dropLock.onHandle v k' := by
  refine whenRunning_dropLock ?_
  rw [handle?_dropLock]
  cases s.handle? v with
  | none => rfl
  | some x => exact hk x

theorem withSpace_dropLock (space : Bool) (k : Host.Outcome State Fault Refusal) :
    dropLockOutcome (withSpace space k) = withSpace space (dropLockOutcome k) := by
  cases space <;> rfl

/-- The write of an operation to its voice, and any response. -/
theorem written_dropLock (i : Instr) (x : Voice) (st : Status) (w : BitVec 32) (p : List Beat) :
    dropLockOutcome (.next ((s.setVoice v (voiceEffect s.cfg i x)).respond st w p)) =
      .next ((s.dropLock.setVoice v (voiceEffect s.cfg i x.dropLock)).respond st w p) := by
  rw [voiceEffect_dropLock, ← setVoice_dropLock]
  rfl

/-- The write of an operation that needs space for it. -/
theorem withSpace_written_dropLock (i : Instr) (x : Voice) (space : Bool) (w : BitVec 32) :
    dropLockOutcome (withSpace space (.next ((s.setVoice v (voiceEffect s.cfg i x)).respond .ok w []))) =
      withSpace space (.next ((s.dropLock.setVoice v (voiceEffect s.cfg i x.dropLock)).respond .ok w [])) := by
  rw [withSpace_dropLock, written_dropLock]

theorem openSlot_dropLock (db : BitVec 16) (size : BitVec 32) (loop lock : Bool) :
    dropLockOutcome (openSlot db size loop lock v s) = openSlot db size loop false v s.dropLock := by
  simp only [openSlot, dropLock_cfg]
  cases indexToLinear s.cfg (dbToIndex s.cfg db.toInt) with
  | none => rfl
  | some lin =>
    exact congrArg (fun t : State => Host.Outcome.next (t.ok (BitVec.ofNat 32 v) [])) (setVoice_dropLock s v _)

theorem execRdreg_dropLock (u : BitVec 8) {reg : BitVec 16} (hreg : reg ≠ 1) :
    dropLockOutcome (execRdreg u reg s) = execRdreg u reg s.dropLock := by
  have hreg' : reg.toNat ≠ 1 := fun h => hreg (BitVec.eq_of_toNat_eq h)
  unfold execRdreg
  split
  · rw [slot?_dropLock]
    cases s.slot? u.toNat with
    | none => rfl
    | some x => exact congrArg (fun w => Host.Outcome.next (s.dropLock.ok w [])) (voiceRegisters_dropLock x hreg').symm
  · have hglobal : globalRegister s.dropLock reg.toNat = globalRegister s reg.toNat := rfl
    rw [hglobal]
    cases globalRegister s reg.toNat <;> rfl

end LocklessState

/-! ### Every operation without the `lock` flags -/

/-- The operation with the operand `lock` of `OPEN` cleared. -/
def clearOpenLock : Instr → Instr
  | .openVoice db size loop _ => .openVoice db size loop false
  | i => i

/-- Clearing every `lock` flag commutes with every operation but the `RDREG` that reads one (R280). -/
theorem exec_dropLock (i : Instr) (s : State) (hi : ∀ v, i ≠ .rdreg v 1) :
    dropLockOutcome (exec i s) = exec (clearOpenLock i) s.dropLock := by
  cases i with
  | reset => exact congrArg (fun t : State => Host.Outcome.next (t.ok 0 [])) (performReset_dropLock s)
  | openVoice db size loop lock =>
    refine whenRunning_dropLock ?_
    rw [lowestFree_dropLock]
    cases s.lowestFree with
    | none => rfl
    | some v => exact openSlot_dropLock db size loop lock
  | query =>
    refine whenRunning_dropLock ?_
    rw [activeCount_dropLock]
    rfl
  | storerr => exact whenRunning_dropLock rfl
  | rdreg v reg => exact execRdreg_dropLock v fun h => hi v (by rw [h])
  | db2idx db => exact whenRunning_dropLock rfl
  | idx2lin index =>
    refine whenRunning_dropLock ?_
    rw [dropLock_cfg]
    cases indexToLinear s.cfg (min index.toNat (s.cfg.n - 1)) <;> rfl
  | mix =>
    refine whenRunning_dropLock ?_
    rw [dropLock_cfg, dropLock_voices, mixVoices_dropLock, mixStart_dropLock]
    cases mixVoices s.cfg s.voices (mixStart s) <;> rfl
  | rbspace v sel n => exact onHandle_dropLock fun x => by cases sel <;> rfl
  | rbused v sel => exact onHandle_dropLock fun x => by cases sel <;> rfl
  | rbfree v sel => exact onHandle_dropLock fun x => by cases sel <;> rfl
  | hasstor v => exact onHandle_dropLock fun x => rfl
  | hasdec v => exact onHandle_dropLock fun x => rfl
  | stopv v ticks => exact onHandle_dropLock fun x => written_dropLock (.stopv v ticks) x ..
  | rbread v sel n => exact onHandle_dropLock fun x => written_dropLock (.rbread v sel n) x ..
  | fade v db ticks soc => exact onHandle_dropLock fun x => written_dropLock (.fade v db ticks soc) x ..
  | fstop v => exact onHandle_dropLock fun x => written_dropLock (.fstop v) x ..
  | fsvc v =>
    refine onHandle_dropLock fun x => (written_dropLock (.fsvc v) x ..).trans ?_
    simp only [voiceEffect, faderService_dropLock]
    rfl
  | fetch v n => exact onHandle_dropLock fun x => written_dropLock (.fetch v n) x ..
  | decerr v => exact onHandle_dropLock fun x => written_dropLock (.decerr v) x ..
  | rbwrite v cells => exact onHandle_dropLock fun x => withSpace_written_dropLock (.rbwrite v cells) x ..
  | push v frames => exact onHandle_dropLock fun x => withSpace_written_dropLock (.push v frames) x ..
  | ingest v block =>
    refine onHandle_dropLock fun x => ?_
    rw [apply_ite dropLockOutcome]
    exact ite_congr rfl (fun _ => rfl) (fun _ => withSpace_written_dropLock (.ingest v block) x ..)

/-- Settles O24: both runs come to the run from the common lockless state, and both `OPEN`s to the one without the
operand. -/
theorem lockHasNoEffect : Obligations.LockHasNoEffect := by
  refine ⟨fun i s s' hi hs => ?flags, fun s db size loop lock lock' => ?operand⟩
  case flags => rw [exec_dropLock i s hi, exec_dropLock i s' hi, hs]
  case operand =>
    exact (exec_dropLock (.openVoice db size loop lock) s nofun).trans
      (exec_dropLock (.openVoice db size loop lock') s nofun).symm

/-! ### The statuses of a response -/

/-- How an operation that leads from `s` to `t` comes to its status (R265 to R269): each error, whose next state is
`s` but for the response, and the two reports. -/
inductive AnsweredBy (i : Instr) (s t : State) : Status → Prop where
  | performed : AnsweredBy i s t .ok
  | halted (hh : s.halted = true) (hreset : i ≠ .reset) (hrdreg : ∀ v reg, i ≠ .rdreg v reg)
      (ht : t = s.answered .storageError 0 []) : AnsweredBy i s t .storageError
  | badIndex (hi : (handleField i).isSome = true ∨ ∃ v reg, i = .rdreg v reg ∧ reg.toNat ≤ 16)
      (ht : t = s.answered .badIndex 0 []) : AnsweredBy i s t .badIndex
  | noFreeVoice (hi : ∃ db size loop lock, i = .openVoice db size loop lock)
      (ht : t = s.answered .noFreeVoice 0 []) : AnsweredBy i s t .noFreeVoice
  | illegalCommand (hi : ∃ v reg, i = .rdreg v reg)
      (ht : t = s.answered .illegalCommand 0 []) : AnsweredBy i s t .illegalCommand
  | decerr (hi : ∃ v, i = .decerr v) : AnsweredBy i s t .streamError
  | storerr (hi : i = .storerr) (hr : s.halted = false) : AnsweredBy i s t .storageError

theorem answerOnly_answeredBy {i : Instr} {s t : State} (h : AnswerOnly i s t) :
    ∃ r, t.response = some r ∧ AnsweredBy i s t r.status := by
  rcases h with ⟨-, -, -, w, p, rfl⟩ | ⟨hh, hreset, hrdreg, rfl⟩ | ⟨hi, rfl⟩ | ⟨hi, rfl⟩ | ⟨hi, rfl⟩
  · exact ⟨_, rfl, .performed⟩
  · exact ⟨_, rfl, .halted hh hreset hrdreg rfl⟩
  · exact ⟨_, rfl, .badIndex hi rfl⟩
  · exact ⟨_, rfl, .noFreeVoice hi rfl⟩
  · exact ⟨_, rfl, .illegalCommand hi rfl⟩

/-- Every operation that completes responds, with a status it comes to in one of these ways. -/
theorem exec_answeredBy {i : Instr} {s t : State} (h : exec i s = .next t) :
    ∃ r, t.response = some r ∧ AnsweredBy i s t r.status := by
  rcases exec_next h with h | h | h | h | h | h
  · exact answerOnly_answeredBy h
  · obtain ⟨v, x, st, w, p, -, -, -, rfl, rfl | ⟨rfl, hi⟩⟩ := h
    · exact ⟨_, rfl, .performed⟩
    · exact ⟨_, rfl, .decerr hi⟩
  · obtain ⟨db, size, loop, lock, v, lin, -, -, -, -, rfl⟩ := h
    exact ⟨_, rfl, .performed⟩
  · obtain ⟨-, -, vs, r, -, rfl⟩ := h
    exact ⟨_, rfl, .performed⟩
  · obtain ⟨-, rfl⟩ := h
    exact ⟨_, rfl, .performed⟩
  · obtain ⟨hi, hr, rfl⟩ := h
    exact ⟨_, rfl, .storerr hi hr⟩

/-- Settles O16: only the reports come to their status with a state written. -/
theorem errorAnswersWriteNoState : Obligations.ErrorAnswersWriteNoState := by
  intro i s t r h hr
  obtain ⟨r', hr', hby⟩ := exec_answeredBy h
  obtain rfl : r = r' := Option.some.inj (hr.symm.trans hr')
  generalize r.status = st at hby
  cases hby with
  | performed => simp
  | halted hh hreset hrdreg ht => simp [hh, ht]
  | badIndex hi ht => simp [ht]
  | noFreeVoice hi ht => simp [ht]
  | illegalCommand hi ht => simp [ht]
  | decerr hi => simp [hi]
  | storerr hi hrun => simp [hi, hrun]

/-- Settles O18: each way to a status names its operations. -/
theorem statusesBelongToTheirOperations : Obligations.StatusesBelongToTheirOperations := by
  intro i s t h
  obtain ⟨r, hr, hby⟩ := exec_answeredBy h
  refine ⟨r, hr, ?_⟩
  generalize r.status = st at hby
  cases hby with
  | performed => exact ⟨nofun, nofun, nofun, nofun, nofun, nofun⟩
  | halted hh hreset hrdreg ht => exact ⟨nofun, nofun, nofun, nofun, fun _ => ⟨hreset, hrdreg⟩, nofun⟩
  | badIndex hi ht => exact ⟨nofun, fun _ => hi, nofun, nofun, nofun, nofun⟩
  | noFreeVoice hi ht => exact ⟨nofun, nofun, fun _ => hi, nofun, nofun, nofun⟩
  | illegalCommand hi ht => exact ⟨nofun, nofun, nofun, nofun, nofun, fun _ => hi⟩
  | decerr hi => exact ⟨nofun, nofun, nofun, fun _ => hi, nofun, nofun⟩
  | storerr hi hrun => exact ⟨nofun, nofun, nofun, nofun, fun _ => by simp [hi], nofun⟩

/-! ### No handle, and halted -/

/-- Every operation with a handle field runs under the checks of that handle (R97, R267). -/
theorem exec_handleField {i : Instr} {v : BitVec 8} (hi : handleField i = some v) (s : State) :
    ∃ k, exec i s = s.onHandle v.toNat k := by
  cases i with
  | reset | openVoice | query | storerr | rdreg | db2idx | idx2lin | mix => exact nomatch hi
  | _ =>
    obtain rfl := Option.some.inj hi
    exact ⟨_, rfl⟩

/-- Settles O19: check (3) of R97 fails before the operation. -/
theorem nonHandlesAreBadIndex : Obligations.NonHandlesAreBadIndex := by
  intro i v s hr hi hv
  obtain ⟨k, hk⟩ := exec_handleField hi s
  rw [hk]
  exact onHandle_noHandle hr hv k

/-- While halted, every operation but `RESET` and `RDREG` is refused by check (2) of R97 (R272, R273). -/
theorem exec_halted {i : Instr} {s : State} (hh : s.halted = true) (hreset : i ≠ .reset)
    (hrdreg : ∀ v reg, i ≠ .rdreg v reg) : exec i s = .next (s.answered .storageError 0 []) := by
  cases i with
  | reset => exact absurd rfl hreset
  | rdreg v reg => exact absurd rfl (hrdreg v reg)
  | _ => exact whenRunning_halted s _ hh

/-- Who writes `halted`: `RESET` clears it, `STORERR` sets it, and every other operation leaves it (R241, R258). -/
theorem exec_next_halted {i : Instr} {s t : State} (h : exec i s = .next t) :
    (i = .reset ∧ t.halted = false) ∨ (i = .storerr ∧ t.halted = true) ∨ t.halted = s.halted := by
  rcases exec_next h with h | h | h | h | h | h
  · obtain ⟨st, w, p, rfl⟩ := answerOnly_respond h
    exact .inr (.inr rfl)
  · obtain ⟨v, x, st, w, p, -, -, -, rfl, -⟩ := h
    exact .inr (.inr rfl)
  · obtain ⟨db, size, loop, lock, v, lin, -, -, -, -, rfl⟩ := h
    exact .inr (.inr rfl)
  · obtain ⟨-, -, vs, r, -, rfl⟩ := h
    exact .inr (.inr rfl)
  · obtain ⟨rfl, rfl⟩ := h
    exact .inl ⟨rfl, rfl⟩
  · obtain ⟨rfl, -, rfl⟩ := h
    exact .inr (.inl ⟨rfl, rfl⟩)

/-- Settles O17: the entry and the refusal are check (2) of R97, the exit and the other operations follow from who
writes `halted`. -/
theorem haltedUntilReset : Obligations.HaltedUntilReset := by
  refine ⟨fun s hr => whenRunning_running s _ hr, fun i s hh hreset hrdreg => exec_halted hh hreset hrdreg,
    fun i s t hs h ht => ?exit, fun i s t hs h ht => ?entry⟩
  case exit =>
    rcases exec_next_halted h with ⟨hi, -⟩ | ⟨-, hset⟩ | hkept
    · exact hi
    · simp [ht] at hset
    · simp [ht, hs] at hkept
  case entry =>
    rcases exec_next_halted h with ⟨-, hclear⟩ | ⟨hi, -⟩ | hkept
    · simp [ht] at hclear
    · exact hi
    · simp [ht, hs] at hkept

end Sys2Proof.Machine
end

section
/-! PROOFS (70_reset_and_hazards.md). A command completes in a next state unless it writes a ring without space for it
(R271, R300, R301), and an immediate stop takes at most two quanta where the hard mute cancels the fader (R309,
R312). -/
namespace Sys2Proof.Machine

/-! ### Completion under the checks of R97 -/

section Completion
variable {s : State} {i : Instr}

/-- Check (2) of R97 answers by itself while halted; what runs behind it has to complete otherwise. -/
theorem whenRunning_completes {k : Host.Outcome State Fault Refusal} (h : s.halted = false → ∃ t, k = .next t) :
    ∃ t, s.whenRunning k = .next t := by
  cases hr : s.halted with
  | true => exact ⟨_, whenRunning_halted s k hr⟩
  | false => rw [whenRunning_running s k hr]; exact h hr

/-- Checks (2) and (3) of R97 answer by themselves; what runs behind them has to complete on the voice served. -/
theorem onHandle_completes {v : BitVec 8} {k : Voice → Host.Outcome State Fault Refusal}
    (h : ∀ x, s.Serves v x → ∃ t, k x = .next t) : ∃ t, s.onHandle v.toNat k = .next t := by
  refine whenRunning_completes fun hr => ?_
  cases hx : s.handle? v.toNat with
  | none => exact ⟨_, rfl⟩
  | some x => exact h x ⟨hr, (handle?_some s v.toNat x).1 hx⟩

/-- A write with space for its cells passes its check (R122, R124). -/
theorem withSpace_completes {c : Config} {x : Voice} {sel : BufSel} {n : Nat} (h : n < x.freeOf c sel) (t : State) :
    ∃ t', withSpace (x.hasSpaceOf c sel n) (.next t) = .next t' :=
  ⟨t, withSpace_of_lt_free h _⟩

/-! ### Completion of one operation -/

/-- Every decibel value has its index inside the table, so `OPEN` finds an amplitude (R145, R245). -/
theorem exec_openVoice_completes (hs : s.Legal) (db : BitVec 16) (size : BitVec 32) (loop lock : Bool) :
    ∃ t, exec (.openVoice db size loop lock) s = .next t := by
  refine whenRunning_completes fun hr => ?_
  cases hv : s.lowestFree with
  | none => exact ⟨_, rfl⟩
  | some v =>
    obtain ⟨lin, hl, -⟩ := indexToLinear_lt hs.1 (dbToIndex_lt s.cfg db.toInt hs.1)
    exact ⟨_, by simp only [openSlot, hl]; rfl⟩

/-- The clamp of R148 keeps the index inside the table. -/
theorem exec_idx2lin_completes (hs : s.Legal) (index : BitVec 32) : ∃ t, exec (.idx2lin index) s = .next t := by
  refine whenRunning_completes fun _ => ?_
  have hn := config_n_bounds hs.1
  obtain ⟨lin, hl, -⟩ := indexToLinear_lt hs.1 (i := min index.toNat (s.cfg.n - 1)) (by omega)
  exact ⟨_, by rw [hl]⟩

/-- `RDREG` answers in every state: a register, `BadIndex` or `IllegalCommand` (R262). -/
theorem exec_rdreg_completes (v : BitVec 8) (reg : BitVec 16) : ∃ t, exec (.rdreg v reg) s = .next t := by
  change ∃ t, execRdreg v reg s = .next t
  unfold execRdreg
  split
  case isTrue => split <;> exact ⟨_, rfl⟩
  case isFalse => split <;> exact ⟨_, rfl⟩

theorem exec_mix_completes (hs : s.Legal) : ∃ t, exec .mix s = .next t := by
  cases hr : s.halted with
  | true => exact ⟨_, whenRunning_halted s _ hr⟩
  | false =>
    obtain ⟨t, ht, -⟩ := exists_exec_mix hs hr
    exact ⟨t, ht⟩

/-- After the last block of the track an `INGEST` writes nothing and needs no space (R183). -/
theorem exec_ingest_completes {v : BitVec 8} {block : List Byte} (hd : SpaceChecked (.ingest v block) s) :
    ∃ t, exec (.ingest v block) s = .next t := by
  refine onHandle_completes fun x ⟨_, _, hx, _⟩ => ?_
  by_cases hu : x.unread = 0
  · exact ⟨_, if_pos hu⟩
  · rw [if_neg hu]
    exact withSpace_completes (sel := .comp) ((hd x hx).resolve_left hu) _

/-- In a legal state an operation that keeps the space-check discipline completes (R271, R300, R301). -/
theorem exec_completes (hs : s.Legal) (hd : SpaceChecked i s) : ∃ t, exec i s = .next t := by
  cases i with
  | reset => exact ⟨_, rfl⟩
  | rdreg v reg => exact exec_rdreg_completes v reg
  | query | storerr | db2idx => exact whenRunning_completes fun _ => ⟨_, rfl⟩
  | openVoice db size loop lock => exact exec_openVoice_completes hs db size loop lock
  | idx2lin index => exact exec_idx2lin_completes hs index
  | mix => exact exec_mix_completes hs
  | rbwrite v cells => exact onHandle_completes fun x ⟨_, _, hx, _⟩ => withSpace_completes (hd x hx) _
  | push v frames => exact onHandle_completes fun x ⟨_, _, hx, _⟩ => withSpace_completes (sel := .pcm) (hd x hx) _
  | ingest v block => exact exec_ingest_completes hd
  | stopv | rbspace | rbread | rbused | rbfree | fade | fstop | fsvc | hasstor | fetch | hasdec | decerr =>
    exact onHandle_completes fun _ _ => ⟨_, rfl⟩

end Completion

/-- Settles O15: a step waits, answers `IllegalCommand`, or runs an operation, and each completes. -/
theorem disciplinedStepsComplete : Obligations.DisciplinedStepsComplete := by
  intro s hs hd
  cases hp : s.pending with
  | nil => exact ⟨s, by rw [step, if_pos hs.1, State.fetch, hp]⟩
  | cons cmd rest =>
    cases hi : decode s.cfg cmd with
    | error e => exact ⟨_, step_of_not_decoded hs.1 hp (by simp [hi])⟩
    | ok i =>
      obtain ⟨t, ht⟩ := exec_completes (s := { s with pending := rest }) hs (hd cmd rest i hp hi)
      exact ⟨t, (stepRunsTheDecodedInstruction s cmd rest i hs.1 hp hi).trans ht⟩

/-! ### The immediate stop -/

section ImmediateStop
variable {s : State} {v : Nat} {x : Voice}

/-- The first `MIX` after an immediate stop finalizes the voice, or leaves it Playing with the stop pending and its
gain index at silence (R208, R221). -/
theorem exec_mix_stopRequested (hs : s.Legal) (hr : s.halted = false) (hm : s.cfg.hardMuteCancelsFader = true)
    (hv : s.voices[v]? = some x) (hp : x.state = .playing) (hstop : x.flags.stopRequested = true) :
    ∃ t, exec .mix s = .next t ∧
      (t.voices[v]? = some x.finalize ∨
        ∃ y, t.voices[v]? = some y ∧ y.state = .playing ∧ y.flags = x.flags ∧ y.gainIdx = 0) := by
  obtain ⟨t, ht, hsilent, hcancelled, -⟩ := immediateStopMutesThenFinalizes s v x hs hr hv hp hstop
  refine ⟨t, ht, ?_⟩
  by_cases hg : x.gainIdx = 0
  · exact .inl (hsilent hg)
  · obtain ⟨hend, hkept⟩ := hcancelled hg hm
    by_cases he : x.AtEnd s.cfg
    · exact .inl (hend he)
    · obtain ⟨y, hy, hplaying, hflags, hg0, -⟩ := hkept he
      exact .inr ⟨y, hy, hplaying, hflags, hg0⟩

/-- `MIX` leaves a state that the next `MIX` can run on. -/
theorem exec_mix_legal_running {t : State} (hs : s.Legal) (hr : s.halted = false) (h : exec .mix s = .next t) :
    t.Legal ∧ t.halted = false := by
  refine ⟨exec_legal hs h, ?_⟩
  rcases exec_next_halted h with ⟨hi, -⟩ | ⟨hi, -⟩ | hkept
  · exact nomatch hi
  · exact nomatch hi
  · rw [hkept, hr]

end ImmediateStop

/-- Settles O59: the second `MIX` skips a slot the first one has finalized, and finds a silent stop in any other. -/
theorem immediateStopEndsWithinTwoMixes : Obligations.ImmediateStopEndsWithinTwoMixes := by
  intro s v x hs hr hm hv hp hstop
  obtain ⟨t, ht, hfirst⟩ := exec_mix_stopRequested hs hr hm hv hp hstop
  obtain ⟨hlegal, hrun⟩ := exec_mix_legal_running hs hr ht
  obtain ⟨u, hu, hfates⟩ := exists_exec_mix hlegal hrun
  refine ⟨t, u, ht, hu, ?_⟩
  rcases hfirst with hfinal | ⟨y, hy, hplaying, hflags, hg0⟩
  · exact hfates v _ _ _ hfinal (.skipped (by simp))
  · have hsilent : y.SilentStop := ⟨hflags ▸ hstop, hg0⟩
    have hsame : y.finalize = x.finalize := finalize_of_streamError (by rw [hflags])
    exact (hfates v _ _ _ hy (.finalized hplaying (.inl hsilent))).trans (congrArg some hsame)

end Sys2Proof.Machine
end
